-- ==== Sys2Proof/Word.lean ====
section
/-! DEFINITION. The word the pipeline moves (20_memory.md R81) and the byte of the transmitter boundary (R84). -/

namespace Sys2Proof

/-- Every access moves exactly one 32-bit word (R81). -/
abbrev Word := BitVec 32

/-- A byte, seen only at the transmitter boundary (R84, R316), and the width of EV and XC numbers (R110). -/
abbrev Byte := BitVec 8

end Sys2Proof
end

