-- ==== Sys2Proof/Syntax.lean ====
section
/-! DEFINITION. The syntax: bit symbols, the three encoded formats, one constructor per row of spec/opcode_table.json, and the
pseudo-instructions. -/

namespace Sys2Proof

/-- The bit symbols, in the order of their tags 0..6 (30_encoding.md R122). -/
inductive BitSymbol where
  | zero
  | one
  | start
  | stop
  | ifg
  | frameStart
  | eof
deriving DecidableEq, Repr

/-- The three encoded formats of R110. -/
inductive Fmt where
  /-- A 32-bit command word. -/
  | cmd
  /-- An 8-bit event number, from the transmitter to the interrupt handler. -/
  | ev
  /-- An 8-bit external call id, from the pipeline to its environment. -/
  | xc
deriving DecidableEq, Repr

/-- An encoded word with its format: an EV or XC number stands in bits [7:0], the others 0. The format is not in the bits:
an event is delivered to the handler, a call is issued by the pipeline, a command is written to a port (R110, R130, R131). -/
structure Code where
  fmt  : Fmt
  word : Word
deriving DecidableEq, Repr

/-- The instructions: the 18 commands (R112), the 2 events (R130) and the 8 external calls (R131). An operand that the word
does not hold (`ARG`, or the operand the invoking rule names) is not syntax: the machine's state holds it (R115, R117). -/
inductive Instr where
  | xlatCfg
  | xlatVal
  /-- `SUB[2:0]` is the tag (R113); 7 spells no symbol. -/
  | xlatLkp (s : BitVec 3)
  | ringWr
  | ringRst
  | ringAvf
  | ringAvd
  /-- `IMM16` is the offset k (R114). -/
  | ringPeek (k : BitVec 16)
  /-- `IMM16` is the count n (R114). -/
  | ringAdv (n : BitVec 16)
  | encFill
  | bgWait
  | drvService
  | drvCqstep
  | chInit
  | frameStart
  /-- `SUB[0]` is p (R113). -/
  | pause (p : Bool)
  /-- `IMM16` is the snapshot word index 0..7 (R114). -/
  | status (i : BitVec 3)
  | chTeardown
  | evThr
  | evTxdone
  | srcMore
  | srcNext
  | srcFramestart
  | txConfigure
  | txTransmit
  | txAwait
  | txDisable
  | txTeardown
deriving DecidableEq, Repr

/-- A host's write to one of its port's two writable registers (10_state.md R30); `arg` is the assembler's `SETARG` (R132). -/
inductive PortWrite where
  | arg (v : Word)
  | cmd (w : Word)
deriving DecidableEq, Repr

/-- The pseudo-instructions of R133. -/
inductive Pseudo where
  | resume
  | pauseOn
  | xlatValAt (h : Word)
  | chInitAt (h : Word)
  | tick
  | statusAll
deriving DecidableEq, Repr

end Sys2Proof
end

