-- ==== Sys2Proof/WellFormed.lean ====
section
/-! DEFINITION. Which syntax spells an operation. The operand widths are in the types; the one check left is that the tag of
`XLAT.LKP` is a symbol's. -/

namespace Sys2Proof

/-- R113: a tag of 7 (the sentinel) is no symbol. -/
def tagIsSymbol (s : BitVec 3) : Bool := s != 7#3

/-- An instruction that some encoded word spells (R112, R113, R114, R128). -/
def Instr.wf : Instr → Bool
  | .xlatCfg => true
  | .xlatVal => true
  | .xlatLkp s => tagIsSymbol s
  | .ringWr => true
  | .ringRst => true
  | .ringAvf => true
  | .ringAvd => true
  | .ringPeek _ => true
  | .ringAdv _ => true
  | .encFill => true
  | .bgWait => true
  | .drvService => true
  | .drvCqstep => true
  | .chInit => true
  | .frameStart => true
  | .pause _ => true
  | .status _ => true
  | .chTeardown => true
  | .evThr => true
  | .evTxdone => true
  | .srcMore => true
  | .srcNext => true
  | .srcFramestart => true
  | .txConfigure => true
  | .txTransmit => true
  | .txAwait => true
  | .txDisable => true
  | .txTeardown => true

end Sys2Proof
end

