-- ==== Sys2Proof/Decode.lean ====
section
/-! DEFINITION. Decoding (30_encoding.md R110 to R119, R127, R128, R130, R131), total on any word, and after it the encoder,
the pseudo-instructions (R133) and the assembler's text (R132). -/

namespace Sys2Proof

/-- `OPC`, bits [7:0] of a command word (R110). -/
def fieldOpc (w : Word) : BitVec 8 := w.extractLsb' 0 8

/-- `SUB`, bits [15:8] of a command word (R110). -/
def fieldSub (w : Word) : BitVec 8 := w.extractLsb' 8 8

/-- `IMM16`, bits [31:16] of a command word (R110). -/
def fieldImm (w : Word) : BitVec 16 := w.extractLsb' 16 16

/-- R132: `w = (IMM16 << 16) | (SUB << 8) | OPC`. -/
def commandWord (imm : BitVec 16) (sub opc : BitVec 8) : Word := imm ++ sub ++ opc

/-- An operation with no `SUB` and no `IMM16` operand: both fields are reserved and must be 0 (R113, R114, R116). -/
def plainCommand (sub : BitVec 8) (imm : BitVec 16) (i : Instr) : Option Instr :=
  if sub = 0 ∧ imm = 0 then some i else none

/-- The command format (R112, R128), internal operations among them; none where the word spells no operation. -/
def decodeCmd (w : Word) : Option Instr :=
  let opc := fieldOpc w
  let sub := fieldSub w
  let imm := fieldImm w
  if opc = 0x10#8 then plainCommand sub imm .xlatCfg
  else if opc = 0x11#8 then plainCommand sub imm .xlatVal
  else if opc = 0x12#8 then
    if sub.extractLsb' 3 5 = 0 ∧ sub.extractLsb' 0 3 ≠ 7#3 ∧ imm = 0 then some (.xlatLkp (sub.extractLsb' 0 3)) else none
  else if opc = 0x20#8 then plainCommand sub imm .ringWr
  else if opc = 0x21#8 then plainCommand sub imm .ringRst
  else if opc = 0x22#8 then plainCommand sub imm .ringAvf
  else if opc = 0x23#8 then plainCommand sub imm .ringAvd
  else if opc = 0x24#8 then if sub = 0 then some (.ringPeek imm) else none
  else if opc = 0x25#8 then if sub = 0 then some (.ringAdv imm) else none
  else if opc = 0x30#8 then plainCommand sub imm .encFill
  else if opc = 0x40#8 then plainCommand sub imm .bgWait
  else if opc = 0x41#8 then plainCommand sub imm .drvService
  else if opc = 0x42#8 then plainCommand sub imm .drvCqstep
  else if opc = 0x50#8 then plainCommand sub imm .chInit
  else if opc = 0x51#8 then plainCommand sub imm .frameStart
  else if opc = 0x52#8 then
    if sub.extractLsb' 1 7 = 0 ∧ imm = 0 then some (.pause (sub.getLsbD 0)) else none
  else if opc = 0x53#8 then
    if sub = 0 ∧ imm.extractLsb' 3 13 = 0 then some (.status (imm.extractLsb' 0 3)) else none
  else if opc = 0x54#8 then plainCommand sub imm .chTeardown
  else none

/-- The event format: the event numbers the transmitter raises (R130). -/
def decodeEv (w : Word) : Option Instr :=
  if w = 0x01#32 then some .evThr
  else if w = 0x02#32 then some .evTxdone
  else none

/-- The external call format: the call ids (R131). -/
def decodeXc (w : Word) : Option Instr :=
  if w = 0x01#32 then some .srcMore
  else if w = 0x02#32 then some .srcNext
  else if w = 0x03#32 then some .srcFramestart
  else if w = 0x11#32 then some .txConfigure
  else if w = 0x12#32 then some .txTransmit
  else if w = 0x13#32 then some .txAwait
  else if w = 0x14#32 then some .txDisable
  else if w = 0x15#32 then some .txTeardown
  else none

/-- Decoding of an encoded word in its format. -/
def decode (c : Code) : Option Instr :=
  match c.fmt with
  | .cmd => decodeCmd c.word
  | .ev => decodeEv c.word
  | .xc => decodeXc c.word

/-- Whether a host may issue the instruction through a port (R112's column "issuer", R117). Events and external calls are
no commands. -/
def Instr.hostIssued : Instr → Bool
  | .xlatVal => true
  | .xlatLkp _ => true
  | .ringAvf => true
  | .ringAvd => true
  | .bgWait => true
  | .chInit => true
  | .frameStart => true
  | .pause _ => true
  | .status _ => true
  | .chTeardown => true
  | .xlatCfg => false
  | .ringWr => false
  | .ringRst => false
  | .ringPeek _ => false
  | .ringAdv _ => false
  | .encFill => false
  | .drvService => false
  | .drvCqstep => false
  | .evThr => false
  | .evTxdone => false
  | .srcMore => false
  | .srcNext => false
  | .srcFramestart => false
  | .txConfigure => false
  | .txTransmit => false
  | .txAwait => false
  | .txDisable => false
  | .txTeardown => false

/-- Whether the instruction takes its operand from `ARG[k]` when it is issued through a port (R112's column "ARG", R115). -/
def Instr.takesArg : Instr → Bool
  | .xlatCfg => true
  | .xlatVal => true
  | .ringWr => true
  | .chInit => true
  | .xlatLkp _ => false
  | .ringRst => false
  | .ringAvf => false
  | .ringAvd => false
  | .ringPeek _ => false
  | .ringAdv _ => false
  | .encFill => false
  | .bgWait => false
  | .drvService => false
  | .drvCqstep => false
  | .frameStart => false
  | .pause _ => false
  | .status _ => false
  | .chTeardown => false
  | .evThr => false
  | .evTxdone => false
  | .srcMore => false
  | .srcNext => false
  | .srcFramestart => false
  | .txConfigure => false
  | .txTransmit => false
  | .txAwait => false
  | .txDisable => false
  | .txTeardown => false

/-- R128: the decode of a word a host wrote to `CMD[k]`; none is the fault `F_ILLEGAL_COMMAND`. -/
def decodeHost (w : Word) : Option Instr :=
  match decodeCmd w with
  | some i => if i.hostIssued then some i else none
  | none => none

/-- The host command word takes the operand `ARG[k]`: `XLAT.VAL` and `CH.INIT` (R115, R320). -/
def wordTakesArg (w : Word) : Bool := ((decodeHost w).map Instr.takesArg).getD false

/-- The bit symbol of a tag byte; none for the sentinel 7 and for the malformed tags 8..255 (R122, R123). -/
def symbolOfTag (t : BitVec 8) : Option BitSymbol :=
  if t = 0#8 then some .zero
  else if t = 1#8 then some .one
  else if t = 2#8 then some .start
  else if t = 3#8 then some .stop
  else if t = 4#8 then some .ifg
  else if t = 5#8 then some .frameStart
  else if t = 6#8 then some .eof
  else none

/-- The tag of a bit symbol (R122). -/
def BitSymbol.tag : BitSymbol → BitVec 8
  | .zero => 0#8
  | .one => 1#8
  | .start => 2#8
  | .stop => 3#8
  | .ifg => 4#8
  | .frameStart => 5#8
  | .eof => 6#8

/-- The sentinel tag `LIST_END` (R123). -/
def listEndTag : BitVec 8 := 7#8

/-- The encoding of an instruction (R112 to R114, R130, R131). -/
def encode : Instr → Code
  | .xlatCfg => ⟨.cmd, commandWord 0 0 0x10#8⟩
  | .xlatVal => ⟨.cmd, commandWord 0 0 0x11#8⟩
  | .xlatLkp s => ⟨.cmd, commandWord 0 (0#5 ++ s) 0x12#8⟩
  | .ringWr => ⟨.cmd, commandWord 0 0 0x20#8⟩
  | .ringRst => ⟨.cmd, commandWord 0 0 0x21#8⟩
  | .ringAvf => ⟨.cmd, commandWord 0 0 0x22#8⟩
  | .ringAvd => ⟨.cmd, commandWord 0 0 0x23#8⟩
  | .ringPeek k => ⟨.cmd, commandWord k 0 0x24#8⟩
  | .ringAdv n => ⟨.cmd, commandWord n 0 0x25#8⟩
  | .encFill => ⟨.cmd, commandWord 0 0 0x30#8⟩
  | .bgWait => ⟨.cmd, commandWord 0 0 0x40#8⟩
  | .drvService => ⟨.cmd, commandWord 0 0 0x41#8⟩
  | .drvCqstep => ⟨.cmd, commandWord 0 0 0x42#8⟩
  | .chInit => ⟨.cmd, commandWord 0 0 0x50#8⟩
  | .frameStart => ⟨.cmd, commandWord 0 0 0x51#8⟩
  | .pause p => ⟨.cmd, commandWord 0 (0#7 ++ BitVec.ofBool p) 0x52#8⟩
  | .status i => ⟨.cmd, commandWord (0#13 ++ i) 0 0x53#8⟩
  | .chTeardown => ⟨.cmd, commandWord 0 0 0x54#8⟩
  | .evThr => ⟨.ev, 0x01#32⟩
  | .evTxdone => ⟨.ev, 0x02#32⟩
  | .srcMore => ⟨.xc, 0x01#32⟩
  | .srcNext => ⟨.xc, 0x02#32⟩
  | .srcFramestart => ⟨.xc, 0x03#32⟩
  | .txConfigure => ⟨.xc, 0x11#32⟩
  | .txTransmit => ⟨.xc, 0x12#32⟩
  | .txAwait => ⟨.xc, 0x13#32⟩
  | .txDisable => ⟨.xc, 0x14#32⟩
  | .txTeardown => ⟨.xc, 0x15#32⟩

/-- The instruction of a table row given as nbits bits of value w. The table names EV and XC rows by the same 8 bits (0x01
and 0x02 stand in both), so the bits alone do not tell them apart: an 8-bit value that is an event number is read as the
event. DESIGN CHOICE (log 5). -/
def decodeTableWord (nbits w : Nat) : Option Instr :=
  if 2 ^ nbits ≤ w then none
  else if nbits = 32 then decode ⟨.cmd, BitVec.ofNat 32 w⟩
  else if nbits = 8 then
    match decode ⟨.ev, BitVec.ofNat 32 w⟩ with
    | some i => some i
    | none => decode ⟨.xc, BitVec.ofNat 32 w⟩
  else none

/-- The expansions of R133, as writes to one port. -/
def Pseudo.expand : Pseudo → List PortWrite
  | .resume => [.cmd (encode (.pause false)).word]
  | .pauseOn => [.cmd (encode (.pause true)).word]
  | .xlatValAt h => [.arg h, .cmd (encode .xlatVal).word]
  | .chInitAt h => [.arg h, .cmd (encode .chInit).word]
  | .tick => [.cmd (encode .bgWait).word, .cmd (encode .frameStart).word]
  | .statusAll => (List.range 8).map fun i => .cmd (encode (.status (BitVec.ofNat 3 i))).word

/-- The assembler's name of a bit symbol (R132). -/
def BitSymbol.asm : BitSymbol → String
  | .zero => "ZERO"
  | .one => "ONE"
  | .start => "START"
  | .stop => "STOP"
  | .ifg => "IFG"
  | .frameStart => "FRAME_START"
  | .eof => "EOF"

/-- The assembler line of an instruction: `MNEMONIC [operand]` (R132). An operand that goes to `ARG` is no part of it. -/
def Instr.asm : Instr → String
  | .xlatCfg => "XLAT.CFG"
  | .xlatVal => "XLAT.VAL"
  | .xlatLkp s =>
    match symbolOfTag (s.setWidth 8) with
    | some b => "XLAT.LKP " ++ b.asm
    | none => "XLAT.LKP " ++ Nat.repr s.toNat
  | .ringWr => "RING.WR"
  | .ringRst => "RING.RST"
  | .ringAvf => "RING.AVF"
  | .ringAvd => "RING.AVD"
  | .ringPeek k => "RING.PEEK " ++ Nat.repr k.toNat
  | .ringAdv n => "RING.ADV " ++ Nat.repr n.toNat
  | .encFill => "ENC.FILL"
  | .bgWait => "BG.WAIT"
  | .drvService => "DRV.SERVICE"
  | .drvCqstep => "DRV.CQSTEP"
  | .chInit => "CH.INIT"
  | .frameStart => "FRAME.START"
  | .pause p => if p then "PAUSE 1" else "PAUSE 0"
  | .status i => "STATUS " ++ Nat.repr i.toNat
  | .chTeardown => "CH.TEARDOWN"
  | .evThr => "EV.THR"
  | .evTxdone => "EV.TXDONE"
  | .srcMore => "SRC.MORE"
  | .srcNext => "SRC.NEXT"
  | .srcFramestart => "SRC.FRAMESTART"
  | .txConfigure => "TX.CONFIGURE"
  | .txTransmit => "TX.TRANSMIT"
  | .txAwait => "TX.AWAIT"
  | .txDisable => "TX.DISABLE"
  | .txTeardown => "TX.TEARDOWN"

end Sys2Proof
end

