-- ==== Sys2Proof/Config.lean ====
section
/-! DEFINITION. What an implementation fixes (the OPEN parameters of 00_scope.md R11) and the free values: constants with
no body, so that nothing can be proved of the value of one. -/

namespace Sys2Proof

/-- `P_COUNTER_RESET_POLICY` (R11, R276). -/
inductive CounterPolicy where
  | perFrame
  | cumulative
deriving DecidableEq, Repr

/-- The OPEN parameters of R11, an argument of the model (R322). The three time parameters are opaque: no rule depends on
their value (R18, R392). -/
structure Params where
  /-- `P_RING_CAP` (C). -/
  ringCap : Nat
  /-- `P_MAX_CHUNK`. -/
  maxChunk : Nat
  /-- `P_HW_DEPTH`. -/
  hwDepth : Nat
  /-- `P_WATERMARK`. -/
  watermark : Nat
  /-- `P_TIMEOUT`, handed to the transmitter as `timeoutHint` (R315). -/
  timeout : Word
  /-- `P_TICK`, used by no rule (R250). -/
  tick : Word
  /-- `P_TIMING_RESOLUTION`, handed to `TX.CONFIGURE` (R310). -/
  timingResolution : Word
  /-- `P_MAX_TABLE_ENTRIES`. -/
  maxTableEntries : Nat
  /-- `P_NUM_CHANNELS`. -/
  numChannels : Nat
  /-- Which of the channels this machine is: its name in `REGISTRY` (R361; log 14). -/
  channel : Nat
  /-- `P_HOST_PORTS`. -/
  hostPorts : Nat
  /-- INTR is in `P_STRATEGIES_SUPPORTED`. -/
  intrSupported : Bool
  /-- CQ is in `P_STRATEGIES_SUPPORTED`. -/
  cqSupported : Bool
  /-- `P_COUNTER_RESET_POLICY`. -/
  counterPolicy : CounterPolicy
deriving DecidableEq, Repr

/-- The parameter set PA of 95_test_vectors.md section 0.2: the set `State.reset` holds. DESIGN CHOICE (log 2): the source
leaves every one of these OPEN; unsafe for a claim that rests on a value, so none does. -/
def Config.params : Params where
  ringCap := 16
  maxChunk := 4
  hwDepth := 8
  watermark := 2
  timeout := 0
  tick := 0
  timingResolution := 0
  maxTableEntries := 16
  numChannels := 1
  channel := 0
  hostPorts := 2
  intrSupported := true
  cqSupported := true
  counterPolicy := .cumulative

/-- Free value: the n-th draw of an oracle (R17) once no answer is lined up. DESIGN CHOICE of the form, safe (log 3). -/
opaque Config.freeDraw : Nat → Word

/-- Free value: which of the enabled agents steps in the n-th scheduled step (R90) once no agent is lined up. Safe (log 4). -/
opaque Config.freePick : Nat → Nat

/-- Free value: what ring slot i holds while nothing has written it (R41, R55). Safe (log 7). -/
opaque Config.freeSlot : Nat → Word

/-- Free value: what `SCRATCH[i]` holds while nothing has written it (R51, R55). Safe (log 7). -/
opaque Config.freeScratch : Nat → Word

/-- Free value: word i of the table list named by a handle, past the words the list holds (R80). Safe (log 13). -/
opaque Config.freeHostWord : Word → Nat → Word

end Sys2Proof
end

