-- ==== Sys2Proof/Machine/State.lean ====
section
/-! DEFINITION. The state of one channel (10_state.md) as plain data, the reasons a step can stop, and reset (R55, R370). -/

namespace Sys2Proof.Machine

/-- A word-indexed memory (20_memory.md R80): the (index, word) pairs something wrote, indices strictly rising. A word that
is not listed has not been written (log 7). -/
abbrev Memory := List (Nat × Word)

/-- `CH_STATE` (R40). -/
inductive ChState where
  | reset
  | ready
  | halted
deriving DecidableEq, Repr

/-- `ORCH_PHASE` (R40). -/
inductive OrchPhase where
  | idle
  | framingEmit
  | streaming
deriving DecidableEq, Repr

/-- `DRV_STATE` (R40). -/
inductive DrvState where
  | idle
  | active
deriving DecidableEq, Repr

/-- `CQ_PHASE` (R51). -/
inductive CqPhase where
  | idle
  | send
  | await
deriving DecidableEq, Repr

/-- `CFG0.STRATEGY` (R33). -/
inductive Strategy where
  | intr
  | cq
deriving DecidableEq, Repr

/-- The error codes 0..13 (60_exceptions.md R330); 14 and 15 are never written. -/
inductive ErrCode where
  | none
  | configurationError
  | transmitError
  | timeoutError
  | overrunError
  | validationError
  | underflowError
  | illegalReset
  | notConfigured
  | illegalCommand
  | reconfigureLive
  | untranslatedSymbol
  | hwOverflow
  | txCompleteUnderrun
deriving DecidableEq, Repr

/-- The fault kinds, one per bit of `FAULT` (R47, R337). -/
inductive FaultKind where
  | overrun
  | underflow
  | illegalReset
  | notConfigured
  | illegalCommand
  | reconfigureLive
  | untranslated
  | hwOverflow
deriving DecidableEq, Repr

/-- The transmitter's two events (R130, R340). -/
inductive Event where
  | thr
  | txdone
deriving DecidableEq, Repr

/-- The result codes 0..5 of a host command (30_encoding.md R118). -/
inductive ResultCode where
  | ok
  | rejPaused
  | rejBusy
  | aborted
  | cfgError
  | rejHalted
deriving DecidableEq, Repr

/-- One command port (R30, R57). -/
structure Port where
  /-- `ARG[k]`. -/
  arg : Word
  /-- `RES[k]`. -/
  res : Word
  /-- `RSTAT[k]`: `[3:0]` result code, `[7:4]` error code. -/
  rstat : BitVec 8
  /-- `BUSY[k]`. -/
  busy : Bool
  /-- `BGW[k]`: a `BG.WAIT` waits on this port. -/
  bgw : Bool
  /-- `CMD[k]`: the word written and not yet taken by SEQ (log 16). -/
  cmd : Option Word
deriving DecidableEq, Repr

/-- The latched configuration words `CFG0`..`CFG3` (R32 to R36). -/
structure Cfg where
  cfg0 : Word
  cfg1 : Word
  cfg2 : Word
  cfg3 : Word
deriving DecidableEq, Repr

/-- One entry of the translation table (R37). -/
structure TblEntry where
  valid : Bool
  code  : Word
deriving DecidableEq, Repr

/-- `TBL`: one entry per bit symbol (R37). -/
structure Table where
  zero       : TblEntry
  one        : TblEntry
  start      : TblEntry
  stop       : TblEntry
  ifg        : TblEntry
  frameStart : TblEntry
  eof        : TblEntry
deriving DecidableEq, Repr

/-- The Ring Send Buffer (R41). -/
structure Ring where
  /-- `SLOT`. -/
  slots : Memory
  /-- `WIDX`. -/
  widx : Nat
  /-- `RIDX`. -/
  ridx : Nat
  /-- `USED`. -/
  used : Nat
deriving DecidableEq, Repr

/-- The five counters (R44), each modulo 2^32. -/
structure Counters where
  /-- `ENTRIES_TRANSFERRED`. -/
  entries : Word
  /-- `BUFFER_FILLS`. -/
  fills : Word
  /-- `OVERRUN_COUNT`. -/
  overruns : Word
  /-- `TIMEOUT_COUNT`. -/
  timeouts : Word
  /-- `TXERR_COUNT`. -/
  txErrs : Word
deriving DecidableEq, Repr

/-- A log record (R52, R338). -/
structure LogRec where
  code : BitVec 4
  info : Word
deriving DecidableEq, Repr

/-- Error and fault state (R45 to R47, R52). -/
structure ErrState where
  /-- `RESTART_REQ`. -/
  restartReq : Bool
  /-- `LAST_ERR`. -/
  lastErr : BitVec 4
  /-- `FAULT`. -/
  fault : BitVec 8
  /-- `LOG`, oldest first. -/
  log : List LogRec
deriving DecidableEq, Repr

/-- The transmitter hardware (R50). -/
structure Hwtx where
  /-- `TXMEM`, head first. -/
  txmem : List Word
  /-- `TX_EN`. -/
  txEn : Bool
  /-- `THR_PEND`. -/
  thrPend : Bool
  /-- `DONE_PEND`. -/
  donePend : Bool
  /-- `WIRE`, oldest first. -/
  wire : List Word
  /-- `TX_CONFIGURED`. -/
  configured : Bool
deriving DecidableEq, Repr

/-- Completion-queue state (R51). -/
structure CqState where
  /-- `SCRATCH`. -/
  scratch : Memory
  /-- `CQ_N`. -/
  n : Nat
  /-- `CQ_PHASE`. -/
  phase : CqPhase
  /-- `CQ_PORT`. -/
  port : Nat
deriving DecidableEq, Repr

/-- A data source (46_external_contracts.md R300 to R304): an oracle, every answer of which is a draw, or a list source with
the whole list and what its cursor has still to yield. -/
inductive Source where
  | oracle
  | list (all rest : List Word)
deriving DecidableEq, Repr

/-- A channel descriptor's four words (R125). -/
structure Descriptor where
  word0 : Word
  word1 : Word
  word2 : Word
  word3 : Word
deriving DecidableEq, Repr

/-- What the HOST does at its port registers (R30), or to the whole process (R370). -/
inductive HostAct where
  | write (k : Nat) (pw : PortWrite)
  | readArg (k : Nat)
  | readRes (k : Nat)
  | readRstat (k : Nat)
  /-- `CMD[k]` is write-only (R30): this read stops the machine (log 26). -/
  | readCmd (k : Nat)
  /-- The start of the owning process over again (R370; log 12). -/
  | restart
deriving DecidableEq, Repr

/-- Who takes a step (00_scope.md R9). SEQ and PACER act for one port. The two oracles SRC and ENV answer inside the calling
step (R16, R303) and have a step of their own besides (log 30). `rule` is the model's own: it runs the rule-level invocation
latch (log 6). -/
inductive Agent where
  | host
  | seq (k : Nat)
  | isr
  | cqdrv
  | pacer (k : Nat)
  | hwtx
  /-- The data source: its own step makes up the answer of its next call (log 30). -/
  | src
  /-- The environment oracle: its own step makes up its next answer, or decides that a bounded wait times out (log 30). -/
  | env
  | rule
deriving DecidableEq, Repr

/-- One external call made: its call id (R131) and the words handed over (log 23). -/
structure XCall where
  id   : Byte
  args : List Word
deriving DecidableEq, Repr

/-- The launch environment of R322 and what is lined up for the oracles, the scheduler and the HOST. All of it is the
model's own, but for the host objects of R80 and R83. -/
structure Env where
  /-- Table lists by handle: the words from offset 0 on (R124). -/
  tables : List (Word × List Word)
  /-- Channel descriptors by handle (R125). -/
  descs : List (Word × Descriptor)
  /-- Data sources by handle (R300 to R305). -/
  sources : List (Word × Source)
  /-- ENV's answers lined up for the coming draws: transmit and await results, prefix lengths, `RES` of `XLAT.VAL` (R17;
  log 3). -/
  draws : List Word
  /-- SRC's answers lined up for the coming calls of a source that is an oracle (R17; log 3). -/
  srcDraws : List Word
  /-- How many free values were taken for answers. -/
  drawn : Nat
  /-- Agents lined up to step (R90; log 4). -/
  sched : List Agent
  /-- How many steps were scheduled. -/
  picked : Nat
  /-- What the HOST does next, in order (log 1). -/
  hostq : List HostAct
  /-- What the HOST's latest register read got (log 26). -/
  hostRead : Word
  /-- The ports whose `ARG` was written since reset (duty 4 of R320; log 32). -/
  argSet : List Nat
  /-- The external calls made, oldest first (log 23). -/
  calls : List XCall
deriving DecidableEq, Repr

/-- The model's own latches of the command sequencer. -/
structure SeqState where
  /-- The port whose command SEQ is executing (log 22). -/
  cur : Nat
  /-- An operation to be run by itself, outside any port: its encoded word (log 6). -/
  invoke : Option Code
  /-- The operand of that invocation: a handle or a PulseCode (R117; log 6). -/
  opnd : Word
  /-- What a rule-level operation or call answered its caller (log 6). -/
  answer : List Word
deriving DecidableEq, Repr

/-- The state of one channel (10_state.md; R360), with the parameters and the launch environment that are arguments of the
model (R322). -/
structure State where
  params : Params
  ports : List Port
  cfg : Cfg
  tbl : Table
  /-- `TBL_OK` (R38). -/
  tblOk : Bool
  chState : ChState
  orchPhase : OrchPhase
  drvState : DrvState
  ring : Ring
  /-- `HAS_DATA_REMAINING` (R42). -/
  hasData : Bool
  /-- `PAUSED` (R43). -/
  paused : Bool
  cnt : Counters
  err : ErrState
  /-- `NOTIFY` (R48). -/
  notify : Bool
  /-- `THR_IE` (R49). -/
  thrIe : Bool
  /-- `DONE_IE` (R49). -/
  doneIe : Bool
  hw : Hwtx
  cq : CqState
  /-- `REGISTRY`: (channel id, channel) pairs, no repeats (R361; log 14). -/
  registry : List (Byte × Nat)
  env : Env
  seq : SeqState
deriving DecidableEq, Repr

/-- Why the machine stops. None of these is the spec's `raise Fault`, which leaves a next state with its `FAULT` bit set
(R333; log 9). -/
inductive Fault where
  /-- Raised by `step` on a channel whose `FAULT` is not 0, when no host register access or restart is next: no agent of a
  faulted channel takes a step until reset (R333). Safe. -/
  | channelStuck (fault : BitVec 8)
  /-- Raised by `step` when the HOST names a port that does not exist (R30: the ports are 0..P_HOST_PORTS-1). Safe. -/
  | noSuchPort (k : Nat)
  /-- Raised by `step` when the HOST reads `CMD[k]`, which is write-only and not readable (R30). Safe. -/
  | cmdNotReadable (k : Nat)
deriving DecidableEq, Repr

/-- Why the machine refuses a step. -/
inductive Refusal where
  /-- Raised by `exec` for an instruction that has no meaning yet. Safe. -/
  | notModelled (mnemonic : String)
  /-- Raised by `step` on a parameter set that breaks a constraint of 00_scope.md R12, which says a model refuses it. Safe. -/
  | badParameters
  /-- Raised by `step` when the rule-level latch, which no rule fills, holds an event number or call id that R130 and R131 do
  not list: such a number is never raised. Safe. -/
  | unlistedNumber (c : Code)
deriving DecidableEq, Repr

/-- A port right after reset (R30, R55). -/
def Port.idle : Port :=
  { arg := 0, res := 0, rstat := 0, busy := false, bgw := false, cmd := none }

/-- A table entry right after reset: not valid (R37). Its code is unspecified and cannot be read while `VALID = 0`:
DESIGN CHOICE 0 (log 8). -/
def TblEntry.empty : TblEntry := { valid := false, code := 0 }

/-- The table right after reset (R37). -/
def Table.empty : Table :=
  { zero := .empty, one := .empty, start := .empty, stop := .empty, ifg := .empty, frameStart := .empty, eof := .empty }

/-- A launch environment with no host objects and nothing lined up (log 1). -/
def Env.bare : Env :=
  { tables := [], descs := [], sources := [], draws := [], srcDraws := [], drawn := 0, sched := [], picked := 0, hostq := [],
    hostRead := 0, argSet := [], calls := [] }

/-- The channel right after reset (R55, R370) under given parameters and launch environment (R322). -/
def State.resetWith (p : Params) (e : Env) : State where
  params := p
  ports := List.replicate p.hostPorts Port.idle
  cfg := { cfg0 := 0, cfg1 := 0, cfg2 := 0, cfg3 := 0 }
  tbl := Table.empty
  tblOk := false
  chState := .reset
  orchPhase := .idle
  drvState := .idle
  ring := { slots := [], widx := 0, ridx := 0, used := 0 }
  hasData := false
  paused := false
  cnt := { entries := 0, fills := 0, overruns := 0, timeouts := 0, txErrs := 0 }
  err := { restartReq := false, lastErr := 0, fault := 0, log := [] }
  notify := false
  thrIe := false
  doneIe := false
  hw := { txmem := [], txEn := false, thrPend := false, donePend := false, wire := [], configured := false }
  cq := { scratch := [], n := 0, phase := .idle, port := 0 }
  registry := []
  env := e
  seq := { cur := 0, invoke := none, opnd := 0, answer := [] }

/-- The machine right after reset (R55), with the parameter set PA (log 2) and a bare environment (log 1). -/
def State.reset : State := State.resetWith Config.params Env.bare

end Sys2Proof.Machine
end

