-- ==== Sys2Proof/Machine/Ops.lean ====
section
/-! DEFINITION. The named operations over memory, ports, errors, draws and calls; raising a fault (60_exceptions.md R333) and
entering and leaving the interrupt handler (R342, R343), each said once. -/

namespace Sys2Proof.Machine

/-! ### Word-indexed memory (20_memory.md R80, R81) -/

/-- The word at an index, if something wrote it. -/
def Memory.read : Memory → Nat → Option Word
  | [], _ => none
  | (a, v) :: m, i => if a = i then some v else Memory.read m i

/-- Writing one word keeps the indices strictly rising. -/
def Memory.write : Memory → Nat → Word → Memory
  | [], i, v => [(i, v)]
  | (a, w) :: m, i, v =>
    if i < a then (i, v) :: (a, w) :: m
    else if i = a then (i, v) :: m
    else (a, w) :: Memory.write m i v

/-- The canonical form: indices strictly rising, so that equal memories are equal lists. No word is left out for its value:
an unlisted word is one nothing wrote (log 7). -/
def Memory.wf : Memory → Bool
  | [] => true
  | (a, _) :: m => m.all (fun c => a < c.1) && Memory.wf m

/-- `MemRead((RING, i), 1)` is `SLOT[i mod C]` (R80); a slot nothing has written holds a free value (R55; log 7). -/
def slotWord (s : State) (i : Nat) : Word :=
  (s.ring.slots.read (i % s.params.ringCap)).getD (Config.freeSlot (i % s.params.ringCap))

/-- `SCRATCH[j]` (R51); free while nothing has written it (log 7). -/
def scratchWord (s : State) (j : Nat) : Word :=
  (s.cq.scratch.read j).getD (Config.freeScratch j)

/-- `SCRATCH[0..n-1]`, the contiguous run that `TX.TRANSMIT` takes (R85, R311). -/
def scratchRun (s : State) (n : Nat) : List Word := (List.range n).map (scratchWord s)

/-! ### Codes (30_encoding.md R118, R130; 60_exceptions.md R330, R337) -/

/-- R330. -/
def ErrCode.code : ErrCode → BitVec 4
  | .none => 0
  | .configurationError => 1
  | .transmitError => 2
  | .timeoutError => 3
  | .overrunError => 4
  | .validationError => 5
  | .underflowError => 6
  | .illegalReset => 7
  | .notConfigured => 8
  | .illegalCommand => 9
  | .reconfigureLive => 10
  | .untranslatedSymbol => 11
  | .hwOverflow => 12
  | .txCompleteUnderrun => 13

/-- The bit of `FAULT` a kind sets (R47, R337). -/
def FaultKind.mask : FaultKind → BitVec 8
  | .overrun => 0x01
  | .underflow => 0x02
  | .illegalReset => 0x04
  | .notConfigured => 0x08
  | .illegalCommand => 0x10
  | .reconfigureLive => 0x20
  | .untranslated => 0x40
  | .hwOverflow => 0x80

/-- The error code of a fault kind (R337). -/
def FaultKind.err : FaultKind → ErrCode
  | .overrun => .overrunError
  | .underflow => .underflowError
  | .illegalReset => .illegalReset
  | .notConfigured => .notConfigured
  | .illegalCommand => .illegalCommand
  | .reconfigureLive => .reconfigureLive
  | .untranslated => .untranslatedSymbol
  | .hwOverflow => .hwOverflow

/-- R118. -/
def ResultCode.code : ResultCode → BitVec 4
  | .ok => 0
  | .rejPaused => 1
  | .rejBusy => 2
  | .aborted => 3
  | .cfgError => 4
  | .rejHalted => 5

/-- `RSTAT`: `[7:4]` error code, `[3:0]` result code (R30, R118). -/
def rstatByte (rc : ResultCode) (e : ErrCode) : BitVec 8 := e.code ++ rc.code

/-- The event numbers of R130. -/
def Event.number : Event → Word
  | .thr => 0x01
  | .txdone => 0x02

/-! ### Errors and faults -/

/-- Recording an error: `LAST_ERR` and one log record (R46, R52, R338). -/
def recordError (e : ErrCode) (info : Word) (s : State) : State :=
  { s with err := { s.err with lastErr := e.code, log := s.err.log ++ [{ code := e.code, info := info }] } }

/-- `raise Fault(kind, info)` (R333): the fault bit, `LAST_ERR` and a log record. Nothing else is written, so the command
being executed leaves its port busy and writes no result. -/
def raiseFault (k : FaultKind) (info : Word) (s : State) : State :=
  { recordError k.err info s with
    err := { (recordError k.err info s).err with fault := s.err.fault ||| k.mask } }

/-- What a part of a step comes to: `ok`, or `error` with the state a fault left, after which the rest of the step is not
taken (R333). -/
abbrev Res (α : Type) := Except State α

/-- R333: the step stops here, with the writes made before it kept. -/
def faulting {α : Type} (k : FaultKind) (info : Word) (s : State) : Res α := .error (raiseFault k info s)

/-- Both ends of a step are next states: a fault is recorded in the state (R333; log 9). -/
def settle : Res State → Host.Outcome State Fault Refusal
  | .ok s => .next s
  | .error s => .next s

/-! ### The interrupt handler's entry and return -/

/-- Entry (R342): it clears the event's own pending bit as its first action, saves nothing and changes no mask. -/
def eventEntry (e : Event) (s : State) : State :=
  match e with
  | .thr => { s with hw := { s.hw with thrPend := false } }
  | .txdone => { s with hw := { s.hw with donePend := false } }

/-- Return (R343): the end of the handler's step; it restores nothing, because entry saved nothing. -/
def eventReturn (s : State) : State := s

/-! ### Ports (10_state.md R30, R31) -/

/-- The registers of port k. -/
def portOf (s : State) (k : Nat) : Port := s.ports.getD k Port.idle

/-- Changing the registers of port k. -/
def modPort (k : Nat) (f : Port → Port) (s : State) : State := { s with ports := s.ports.modify k f }

/-- Completing the command of port k: `RSTAT[k]`, `RES[k]` and `BUSY[k] <- 0` (R111). -/
def completePort (k : Nat) (rc : ResultCode) (e : ErrCode) (res : Word) (s : State) : State :=
  modPort k (fun p => { p with rstat := rstatByte rc e, res := res, busy := false }) s

/-- `return (rc, res)` of the command being executed, with `RSTAT[7:4] = e` (R15, R111, R118). -/
def reply (rc : ResultCode) (e : ErrCode) (res : Word) (s : State) : Res State :=
  .ok (completePort s.seq.cur rc e res s)

/-- The checks that start every host command but `CH.INIT`, `STATUS` and `XLAT.LKP`: RESET faults with the OPC (R273),
HALTED answers `REJ_HALTED` (R287). -/
def whenReady (opc : Word) (s : State) (body : Res State) : Res State :=
  match s.chState with
  | .reset => faulting .notConfigured opc s
  | .halted => reply .rejHalted .none 0 s
  | .ready => body

/-- What a rule-level operation answers its caller (log 6). -/
def answering (ws : List Word) (s : State) : State := { s with seq := { s.seq with answer := ws } }

/-! ### Draws and calls (00_scope.md R17; 30_encoding.md R131) -/

/-- One draw of ENV: the answer lined up for it, or a free value (R17; log 3). -/
def drawWord (s : State) : Word × State :=
  match s.env.draws with
  | w :: ws => (w, { s with env := { s.env with draws := ws } })
  | [] => (Config.freeDraw s.env.drawn, { s with env := { s.env with drawn := s.env.drawn + 1 } })

/-- A draw of one bit. -/
def drawBit (s : State) : Bool × State := ((drawWord s).1.getLsbD 0, (drawWord s).2)

/-- One draw of SRC (R17; log 3). -/
def sourceWord (s : State) : Word × State :=
  match s.env.srcDraws with
  | w :: ws => (w, { s with env := { s.env with srcDraws := ws } })
  | [] => (Config.freeDraw s.env.drawn, { s with env := { s.env with drawn := s.env.drawn + 1 } })

/-- A draw of one bit of SRC. -/
def sourceBit (s : State) : Bool × State := ((sourceWord s).1.getLsbD 0, (sourceWord s).2)

/-- An external call is made: its id and arguments (R131; log 23). -/
def noteCall (id : Byte) (args : List Word) (s : State) : State :=
  { s with env := { s.env with calls := s.env.calls ++ [{ id := id, args := args }] } }

end Sys2Proof.Machine
end

