-- ==== Sys2Proof/Machine/Operands.lean ====
section
/-! DEFINITION. Every operand form: the fields of the configuration words (10_state.md R32 to R36), the command's `ARG` (R115), the
table's entries (R37), host objects (R83, R124, R125), the bits of an intensity value (R202), the fields and bytes of a
PulseCode (R120, R84), and the parameter constraints (R12). -/

namespace Sys2Proof.Machine

/-! ### Parameters -/

/-- The constraints of 00_scope.md R11 and R12. -/
def paramsOk (p : Params) : Bool :=
  decide (2 ≤ p.ringCap) && decide (p.ringCap = 2 ^ p.ringCap.log2) &&
  decide (1 ≤ p.watermark) && decide (p.watermark ≤ p.hwDepth) &&
  decide (1 ≤ p.maxChunk) && decide (p.maxChunk ≤ p.hwDepth - p.watermark + 1) &&
  decide (p.maxChunk ≤ 65535) &&
  decide (2 ≤ p.maxTableEntries) && decide (1 ≤ p.hostPorts) && decide (1 ≤ p.numChannels) &&
  decide (p.channel < p.numChannels) &&
  (p.intrSupported || p.cqSupported)

/-! ### Configuration fields -/

/-- `CFG0.W` (R32). -/
def Cfg.width (c : Cfg) : Nat := (c.cfg0.extractLsb' 0 6).toNat

/-- `CFG0.DIR`: false is MSB first, true is LSB first (R32). -/
def Cfg.lsbFirst (c : Cfg) : Bool := c.cfg0.getLsbD 6

/-- `CFG0.STOP_EN` (R32). -/
def Cfg.stopEn (c : Cfg) : Bool := c.cfg0.getLsbD 7

/-- `CFG0.EOF_EN` (R32). -/
def Cfg.eofEn (c : Cfg) : Bool := c.cfg0.getLsbD 8

/-- `CFG0.STRATEGY` (R33). -/
def Cfg.strategy (c : Cfg) : Strategy := if c.cfg0.getLsbD 9 then .cq else .intr

/-- `CFG0[15:10]`, which must be 0 (R32). -/
def Cfg.reserved (c : Cfg) : BitVec 6 := c.cfg0.extractLsb' 10 6

/-- `CFG0.CHANNEL_ID` (R32). -/
def Cfg.channelId (c : Cfg) : Byte := c.cfg0.extractLsb' 16 8

/-- `CFG0.PIN` (R32). -/
def Cfg.pin (c : Cfg) : Byte := c.cfg0.extractLsb' 24 8

/-- `CFG1.IDLE_BITS` (R34). -/
def Cfg.idleBits (c : Cfg) : Nat := (c.cfg1.extractLsb' 0 16).toNat

/-- `CFG1.START_BITS` (R34). -/
def Cfg.startBits (c : Cfg) : Nat := (c.cfg1.extractLsb' 16 16).toNat

/-- `CFG2`, `SRC_HANDLE` (R35). -/
def Cfg.srcHandle (c : Cfg) : Word := c.cfg2

/-- `CFG3`, `TBL_HANDLE` (R35). -/
def Cfg.tblHandle (c : Cfg) : Word := c.cfg3

/-- S, the most codes one intensity value can take (43_encoder.md R200). -/
def Cfg.slotsPerValue (c : Cfg) : Nat := c.width + if c.stopEn || c.eofEn then 1 else 0

/-- A strategy the platform's transmitter supports (R33, R271 check 3). -/
def strategySupported (p : Params) : Strategy → Bool
  | .intr => p.intrSupported
  | .cq => p.cqSupported

/-! ### The translation table -/

/-- `TBL[s]` (R37). -/
def Table.get (t : Table) : BitSymbol → TblEntry
  | .zero => t.zero
  | .one => t.one
  | .start => t.start
  | .stop => t.stop
  | .ifg => t.ifg
  | .frameStart => t.frameStart
  | .eof => t.eof

/-- `TBL[s] <- e`. -/
def Table.set (t : Table) (b : BitSymbol) (e : TblEntry) : Table :=
  match b with
  | .zero => { t with zero := e }
  | .one => { t with one := e }
  | .start => { t with start := e }
  | .stop => { t with stop := e }
  | .ifg => { t with ifg := e }
  | .frameStart => { t with frameStart := e }
  | .eof => { t with eof := e }

/-- The tag as the info word of a record (R337). -/
def BitSymbol.tagWord (b : BitSymbol) : Word := b.tag.setWidth 32

/-- A read `tbl[s]`, by `XLAT.LKP` or by a rule (41_translation_table.md R158, R159: the same checks): before a table is
installed it faults `F_NOT_CONFIGURED`, on an entry that is not valid `F_UNTRANSLATED`. The refusal in HALTED is the command's
own (log 31). -/
def tblRead (b : BitSymbol) (s : State) : Res Word :=
  if s.chState = .reset ∨ s.tblOk = false then faulting .notConfigured (BitSymbol.tagWord b) s
  else if (s.tbl.get b).valid then .ok (s.tbl.get b).code
  else faulting .untranslated (BitSymbol.tagWord b) s

/-- `REQ(cfg)` in increasing tag order (R151). -/
def Cfg.required (c : Cfg) : List BitSymbol :=
  [.zero, .one] ++ (if c.stopEn then [.stop] else []) ++ (if 0 < c.idleBits then [.ifg] else []) ++
  (if 0 < c.startBits then [.frameStart] else []) ++ (if c.eofEn then [.eof] else [])

/-! ### Command operands and host objects -/

/-- `ARG[k]` of the command being executed, used unchanged (R115). -/
def argOperand (s : State) : Word := (portOf s s.seq.cur).arg

/-- The table list named by a handle; none when the handle is 0 or names no table list (R83). -/
def findTable (s : State) (h : Word) : Option (List Word) := if h = 0 then none else s.env.tables.lookup h

/-- The channel descriptor named by a handle (R83, R125). -/
def findDesc (s : State) (h : Word) : Option Descriptor := if h = 0 then none else s.env.descs.lookup h

/-- The data source named by a handle (R83, R305). -/
def findSource (s : State) (h : Word) : Option Source := if h = 0 then none else s.env.sources.lookup h

/-- Word i of a table list; free past the words the list holds (log 13). -/
def listWord (h : Word) (ws : List Word) (i : Nat) : Word := (ws[i]?).getD (Config.freeHostWord h i)

/-- Record j's tag byte: word 2j, bits [7:0]; the rest of the word is ignored (R124). -/
def recordTag (h : Word) (ws : List Word) (j : Nat) : BitVec 8 := (listWord h ws (2 * j)).extractLsb' 0 8

/-- Record j's PulseCode: word 2j+1 (R124). -/
def recordCode (h : Word) (ws : List Word) (j : Nat) : Word := listWord h ws (2 * j + 1)

/-! ### Intensity values -/

/-- The bits of a value in write order: MSB first is bit W-1 first, LSB first is bit 0 first (R202). -/
def valueBits (lsb : Bool) (w : Nat) (v : Word) : List Bool :=
  (List.range w).map fun j => v.getLsbD (if lsb then j else w - 1 - j)

/-- The symbol of a data bit (R202). -/
def bitSymbol (b : Bool) : BitSymbol := if b then .one else .zero

/-- The trailer after a value, m being the answer of `SRC.MORE` for it (R202's trailer table). -/
def Cfg.trailer (c : Cfg) (m : Bool) : Option BitSymbol :=
  if !m && c.eofEn then some .eof else if c.stopEn then some .stop else none

/-! ### PulseCodes at the transmitter boundary -/

/-- `DUR0` (R120). -/
def pulseDur0 (c : Word) : BitVec 15 := c.extractLsb' 0 15

/-- `LVL0` (R120). -/
def pulseLvl0 (c : Word) : Bool := c.getLsbD 15

/-- `DUR1` (R120). -/
def pulseDur1 (c : Word) : BitVec 15 := c.extractLsb' 16 15

/-- `LVL1` (R120). -/
def pulseLvl1 (c : Word) : Bool := c.getLsbD 31

/-- `code = {LVL1, DUR1, LVL0, DUR0}` (R120). Inside the pipeline no rule reads these fields (R121). -/
def pulseCode (lvl1 : Bool) (dur1 : BitVec 15) (lvl0 : Bool) (dur0 : BitVec 15) : Word :=
  BitVec.ofBool lvl1 ++ dur1 ++ BitVec.ofBool lvl0 ++ dur0

/-- The bytes of a code at the transmitter boundary, little-endian: byte 0 is `code[7:0]` (R84, R316; log 27). -/
def pulseBytes (c : Word) : List Byte :=
  [c.extractLsb' 0 8, c.extractLsb' 8 8, c.extractLsb' 16 8, c.extractLsb' 24 8]

end Sys2Proof.Machine
end

