-- ==== Sys2Proof/Machine/Flags.lean ====
section
/-! DEFINITION. Every flag computation (10_state.md R53): the pending and enable bits of the events, the notification, the end test of
a frame, the reported phase and the status snapshot (30_encoding.md R126). -/

namespace Sys2Proof.Machine

/-- The pending bits after a shift that left `rest` in `TXMEM`: set by it, never cleared by it (44_driver.md R246, R247). -/
def pendAfterShift (p : Params) (rest : List Word) (h : Hwtx) : Hwtx :=
  { h with
    thrPend := h.thrPend || decide (rest.length < p.watermark)
    donePend := h.donePend || rest.isEmpty }

/-- Arming at frame start: the pending bits are cleared before the enable bits are set (R228). -/
def armEvents (s : State) : State :=
  { s with hw := { s.hw with thrPend := false, donePend := false }, thrIe := true, doneIe := true }

/-- Both enable bits cleared (R229, R235, R251, R286). -/
def maskEvents (s : State) : State := { s with thrIe := false, doneIe := false }

/-- The part of R221 that every event needs. -/
def isrOpen (s : State) : Bool :=
  s.err.fault == 0 && s.chState == .ready && s.cfg.strategy == .intr

/-- `EV.TXDONE` is deliverable (R221). -/
def txdoneDeliverable (s : State) : Bool := isrOpen s && s.hw.donePend && s.doneIe

/-- `EV.THR` is deliverable (R221). -/
def thrDeliverable (s : State) : Bool := isrOpen s && s.hw.thrPend && s.thrIe

/-- The event the handler takes: `EV.TXDONE` when both are deliverable (R222, R224). -/
def eventTaken (s : State) : Option Event :=
  if txdoneDeliverable s then some .txdone else if thrDeliverable s then some .thr else none

/-- Give: a second give is lost (20_memory.md R96). -/
def giveNotify (s : State) : State := { s with notify := true }

/-- Take, and the clear at frame start (R96, R276). -/
def clearNotify (s : State) : State := { s with notify := false }

/-- "no data remains and the buffer is empty" (R225, R240). -/
def frameDrained (s : State) : Bool := s.ring.used == 0 && !s.hasData

/-- A frame's end in the control state (R229, R235, R245, R251, R286). -/
def toIdle (s : State) : State := { s with drvState := .idle, orchPhase := .idle }

/-- `CH_STATE`'s encoding (R40). -/
def ChState.code : ChState → BitVec 2
  | .reset => 0
  | .ready => 1
  | .halted => 2

/-- `ORCH_PHASE`'s encoding (R40). -/
def OrchPhase.code : OrchPhase → BitVec 2
  | .idle => 0
  | .framingEmit => 1
  | .streaming => 2

/-- `DRV_STATE`'s encoding (R40). -/
def DrvState.code : DrvState → BitVec 1
  | .idle => 0
  | .active => 1

/-- `STRATEGY`'s encoding, the "driver identity" (R33). -/
def Strategy.code : Strategy → BitVec 1
  | .intr => 0
  | .cq => 1

/-- The reported phase: 3 (Paused) when paused with no frame in flight, else `ORCH_PHASE` (45_orchestrator.md R283). -/
def reportedPhase (s : State) : BitVec 2 :=
  if s.paused && s.drvState == .idle then 3 else s.orchPhase.code

/-- `SNAP(0)` (R126, R284), from bit 31 down. -/
def snapFlags (s : State) : Word :=
  (0#8 ++ s.cfg.channelId ++ 0#2 ++ BitVec.ofBool s.notify ++ BitVec.ofBool s.hasData ++ s.err.lastErr ++
    BitVec.ofBool s.err.restartReq ++ s.chState.code ++ s.drvState.code ++ reportedPhase s ++ BitVec.ofBool s.paused ++
    s.cfg.strategy.code : BitVec (8 + 8 + 2 + 1 + 1 + 4 + 1 + 2 + 1 + 2 + 1 + 1))

/-- `SNAP(i)`, word i of the status snapshot (R126, R284). DESIGN CHOICE: of a `USED` that does not fit 32 bits, word 7
holds the low 32 bits (log 29). -/
def snapWord (i : BitVec 3) (s : State) : Word :=
  match i.toNat with
  | 0 => snapFlags s
  | 1 => s.cnt.entries
  | 2 => s.cnt.fills
  | 3 => s.cnt.overruns
  | 4 => s.cnt.timeouts
  | 5 => s.cnt.txErrs
  | 6 => s.err.fault.setWidth 32
  | _ => BitVec.ofNat 32 s.ring.used

end Sys2Proof.Machine
end

