-- ==== Sys2Proof/Machine/Ring.lean ====
section
/-! DEFINITION. The Ring Send Buffer (42_ring_buffer.md): `RING.WR`, `RING.RST`, `RING.AVF`, `RING.AVD`, `RING.PEEK`, `RING.ADV`. -/

namespace Sys2Proof.Machine

/-- `RING.WR(code)` (R170): on a full ring the overrun is counted and then faults (R334). Its info is the low
32 bits of `WIDX` (DESIGN CHOICE; log 29). -/
def ringWrite (code : Word) (s : State) : Res State :=
  if s.ring.used = s.params.ringCap then
    faulting .overrun (BitVec.ofNat 32 s.ring.widx) { s with cnt := { s.cnt with overruns := s.cnt.overruns + 1 } }
  else
    .ok { s with ring := { s.ring with
      slots := s.ring.slots.write s.ring.widx code
      widx := (s.ring.widx + 1) % s.params.ringCap
      used := s.ring.used + 1 } }

/-- `RING.RST()` (R172): only between frames; slot contents are not cleared. The fault's info is the low 32 bits of `USED`
(DESIGN CHOICE; log 29). -/
def ringReset (s : State) : Res State :=
  if s.drvState = .active then faulting .illegalReset (BitVec.ofNat 32 s.ring.used) s
  else .ok { s with ring := { s.ring with widx := 0, ridx := 0, used := 0 } }

/-- `RING.PEEK(k)` (R176): the k-th oldest staged code. -/
def ringPeek (k : Nat) (s : State) : Res Word :=
  if s.ring.used ≤ k then faulting .underflow (BitVec.ofNat 32 k) s
  else .ok (slotWord s (s.ring.ridx + k))

/-- `RING.ADV(n)` (R177): consume the n oldest staged codes. -/
def ringAdvance (n : Nat) (s : State) : Res State :=
  if s.ring.used < n then faulting .underflow (BitVec.ofNat 32 n) s
  else .ok { s with ring := { s.ring with
    ridx := (s.ring.ridx + n) % s.params.ringCap
    used := s.ring.used - n } }

/-- `C - USED` (R174). -/
def freeSlots (s : State) : Nat := s.params.ringCap - s.ring.used

/-- RING.WR (R170). Its operand is the code the invoking rule names (R117). -/
def execRingWr (s : State) : Host.Outcome State Fault Refusal := settle (ringWrite s.seq.opnd s)

/-- RING.RST (R172). -/
def execRingRst (s : State) : Host.Outcome State Fault Refusal := settle (ringReset s)

/-- RING.AVF (R174). DESIGN CHOICE: of a `C - USED` that does not fit 32 bits, `RES` holds the low 32 bits (log 29). -/
def execRingAvf (s : State) : Host.Outcome State Fault Refusal :=
  settle (whenReady 0x22 s (reply .ok .none (BitVec.ofNat 32 (freeSlots s)) s))

/-- RING.AVD (R175). DESIGN CHOICE: of a `USED` that does not fit 32 bits, `RES` holds the low 32 bits (log 29). -/
def execRingAvd (s : State) : Host.Outcome State Fault Refusal :=
  settle (whenReady 0x23 s (reply .ok .none (BitVec.ofNat 32 s.ring.used) s))

/-- RING.PEEK k (R176): the code is the answer to the invoking rule. -/
def execRingPeek (k : BitVec 16) (s : State) : Host.Outcome State Fault Refusal :=
  settle ((ringPeek k.toNat s).map fun c => answering [c] s)

/-- RING.ADV n (R177). -/
def execRingAdv (n : BitVec 16) (s : State) : Host.Outcome State Fault Refusal := settle (ringAdvance n.toNat s)

end Sys2Proof.Machine
end

