-- ==== Sys2Proof/Machine/Source.lean ====
section
/-! DEFINITION. The Data Source contract (46_external_contracts.md R300 to R305): `SRC.MORE`, `SRC.NEXT`, `SRC.FRAMESTART`. Calls go to
the source that `SRC_HANDLE` names (R305): a list source answers from its list (R304), any other answer is a draw of SRC (R17). -/

namespace Sys2Proof.Machine

/-- The source the calls go to (R305). -/
def currentSource (s : State) : Source := (findSource s s.cfg.srcHandle).getD .oracle

/-- The source named by a handle becomes `src`: a list source moves its cursor. -/
def replaceSource (h : Word) (src : Source) (l : List (Word × Source)) : List (Word × Source) :=
  l.map fun p => if p.1 = h then (p.1, src) else p

/-- The current source becomes `src`. -/
def setSource (src : Source) (s : State) : State :=
  { s with env := { s.env with sources := replaceSource s.cfg.srcHandle src s.env.sources } }

/-- The answer of `SRC.MORE` (R300, R304); it consumes nothing of the source's values. -/
def moreAnswer (s : State) : Bool × State :=
  match currentSource s with
  | .list _ rest => (!rest.isEmpty, s)
  | .oracle => sourceBit s

/-- The answer of `SRC.NEXT` (R301, R304): has a value, and the value, which is consumed. -/
def nextAnswer (s : State) : (Bool × Word) × State :=
  match currentSource s with
  | .list _ [] => ((false, 0), s)
  | .list all (v :: rest) => ((true, v), setSource (.list all rest) s)
  | .oracle => (((sourceBit s).1, (sourceWord (sourceBit s).2).1), (sourceWord (sourceBit s).2).2)

/-- The effect of `SRC.FRAMESTART` (R302, R304): a list source starts over. -/
def frameStartEffect (s : State) : State :=
  match currentSource s with
  | .list all _ => setSource (.list all all) s
  | .oracle => s

/-- `call SRC.MORE() -> m` (R300). -/
def srcMore (s : State) : Bool × State := moreAnswer (noteCall 0x01 [] s)

/-- `call SRC.NEXT() -> (hasValue, v)` (R301). -/
def srcNext (s : State) : (Bool × Word) × State := nextAnswer (noteCall 0x02 [] s)

/-- `call SRC.FRAMESTART()` (R302). -/
def srcFrameStart (s : State) : State := frameStartEffect (noteCall 0x03 [] s)

/-- One bit as an answer word. -/
def bitWord (b : Bool) : Word := (BitVec.ofBool b).setWidth 32

/-- SRC.MORE (R300): the answer goes to the caller. -/
def execSrcMore (s : State) : Host.Outcome State Fault Refusal :=
  .next (answering [bitWord (srcMore s).1] (srcMore s).2)

/-- SRC.NEXT (R301): the answer goes to the caller. -/
def execSrcNext (s : State) : Host.Outcome State Fault Refusal :=
  .next (answering [bitWord (srcNext s).1.1, (srcNext s).1.2] (srcNext s).2)

/-- SRC.FRAMESTART (R302): no answer. -/
def execSrcFramestart (s : State) : Host.Outcome State Fault Refusal := .next (srcFrameStart s)

end Sys2Proof.Machine
end

