-- ==== Sys2Proof/Machine/Encoder.lean ====
section
/-! DEFINITION. The Intensity Encoder (43_encoder.md): `EMIT_VALUE` and `ENC.FILL`. -/

namespace Sys2Proof.Machine

/-- `RING.WR(tbl[b])` (R159, R170, R202). DESIGN CHOICE: `tbl[b]` is read before `RING.WR` tests the ring, so on a full ring with
an untranslated symbol `F_UNTRANSLATED` is the fault and no overrun is counted; R201 and R339 list the two faults in opposite
orders (log 33). -/
def emitSymbol (b : BitSymbol) (s : State) : Res State := do
  let c ← tblRead b s
  ringWrite c s

/-- `RING.WR(tbl[b])` for each symbol in order. -/
def emitSymbols : List BitSymbol → State → Res State
  | [], s => .ok s
  | b :: bs, s => do
    let t ← emitSymbol b s
    emitSymbols bs t

/-- `EMIT_VALUE(v)` (R202): the W data bits, then the `SRC.MORE` call, then the trailer. -/
def emitValue (v : Word) (s : State) : Res State := do
  let t ← emitSymbols ((valueBits s.cfg.lsbFirst s.cfg.width v).map bitSymbol) s
  let m := srcMore t
  emitSymbols (t.cfg.trailer m.1).toList { m.2 with hasData := m.1 }

/-- The loop of R201, at most `fuel` passes. -/
def fillLoop : Nat → State → Res State
  | 0, s => .ok s
  | fuel + 1, s =>
    if s.cfg.slotsPerValue < freeSlots s ∧ s.hasData = true then
      let n := srcNext s
      if n.1.1 then do
        let t ← emitValue n.1.2 n.2
        fillLoop fuel t
      else .ok { n.2 with hasData := false }
    else .ok s

/-- `ENC.FILL()` (R201, R205). C passes are enough: every pass but the last writes W >= 1 codes into a ring with more than S
slots free (R206; log 17). -/
def encoderFill (s : State) : Res State :=
  fillLoop s.params.ringCap { s with cnt := { s.cnt with fills := s.cnt.fills + 1 } }

/-- ENC.FILL (R201). -/
def execEncFill (s : State) : Host.Outcome State Fault Refusal := settle (encoderFill s)

end Sys2Proof.Machine
end

