-- ==== Sys2Proof/Machine/Transmitter.lean ====
section
/-! DEFINITION. The transmitter hardware's shift (44_driver.md R246) and the Pulse Transmitter contract (46_external_contracts.md R310 to
R316): `TX.CONFIGURE`, `TX.TRANSMIT`, `TX.AWAIT`, `TX.DISABLE`, `TX.TEARDOWN`. -/

namespace Sys2Proof.Machine

/-- `HWTX.SHIFT` (R246): one code from the head of `TXMEM` to the wire. Its enabling is the agent's (R246, Agents.lean). -/
def hwtxShift (s : State) : State :=
  match s.hw.txmem with
  | [] => s
  | c :: rest => { s with hw := pendAfterShift s.params rest { s.hw with txmem := rest, wire := s.hw.wire ++ [c] } }

/-- `PUSH(c)` (R227). -/
def push (c : Word) (s : State) : Res State :=
  if s.hw.txmem.length = s.params.hwDepth then faulting .hwOverflow c s
  else .ok { s with hw := { s.hw with txmem := s.hw.txmem ++ [c] } }

/-- `call TX.CONFIGURE(P_TIMING_RESOLUTION, PIN, P_HW_DEPTH)` (R310): configured, empty, disabled, no event pending (log 21).
DESIGN CHOICE: of a `P_HW_DEPTH` that does not fit the argument's word, the low 32 bits are handed over (log 29). -/
def txConfigure (s : State) : State :=
  let t := noteCall 0x11 [s.params.timingResolution, s.cfg.pin.setWidth 32, BitVec.ofNat 32 s.params.hwDepth] s
  { t with hw := { t.hw with configured := true, txmem := [], txEn := false, thrPend := false, donePend := false } }

/-- `call TX.TRANSMIT(codes, P_TIMEOUT) -> ok` (R311): accepted, the codes queue and the transmitter is enabled; rejected, a
drawn prefix of them is on the wire already. DESIGN CHOICE: R82 has `TXMEM` appended to by `PUSH` only, against R311, R242 and R50;
the model follows these (log 34). -/
def txTransmit (codes : List Word) (s : State) : Bool × State :=
  let d := drawBit (noteCall 0x12 (codes ++ [s.params.timeout]) s)
  if d.1 then
    (true, { d.2 with hw := { d.2.hw with txmem := d.2.hw.txmem ++ codes, txEn := true } })
  else
    let p := drawWord d.2
    (false, { p.2 with hw := { p.2.hw with wire := p.2.hw.wire ++ codes.take (p.1.toNat % (codes.length + 1)) } })

/-- `call TX.AWAIT(P_TIMEOUT) -> ok` (R312, R243): success is possible only on an empty `TXMEM`, and is then a draw; while
codes are left, a step that is taken is the timeout (log 20). A failure empties `TXMEM`. -/
def txAwait (s : State) : Bool × State :=
  let t := noteCall 0x13 [s.params.timeout] s
  if t.hw.txmem.isEmpty then drawBit t
  else (false, { t with hw := { t.hw with txmem := [] } })

/-- `call TX.DISABLE()` (R313). -/
def txDisable (s : State) : State :=
  let t := noteCall 0x14 [] s
  { t with hw := { t.hw with txEn := false, txmem := [], thrPend := false, donePend := false } }

/-- `call TX.TEARDOWN()` (R314). -/
def txTeardown (s : State) : State :=
  let t := noteCall 0x15 [] s
  { t with hw := { t.hw with configured := false } }

/-- TX.CONFIGURE (R310). -/
def execTxConfigure (s : State) : Host.Outcome State Fault Refusal := .next (txConfigure s)

/-- TX.TRANSMIT (R311) of `SCRATCH[0..CQ_N-1]`: the answer goes to the caller. -/
def execTxTransmit (s : State) : Host.Outcome State Fault Refusal :=
  .next (answering [bitWord (txTransmit (scratchRun s s.cq.n) s).1] (txTransmit (scratchRun s s.cq.n) s).2)

/-- TX.AWAIT (R312): the answer goes to the caller. -/
def execTxAwait (s : State) : Host.Outcome State Fault Refusal :=
  .next (answering [bitWord (txAwait s).1] (txAwait s).2)

/-- TX.DISABLE (R313). -/
def execTxDisable (s : State) : Host.Outcome State Fault Refusal := .next (txDisable s)

/-- TX.TEARDOWN (R314). -/
def execTxTeardown (s : State) : Host.Outcome State Fault Refusal := .next (txTeardown s)

end Sys2Proof.Machine
end

