-- ==== Sys2Proof/Machine/Driver.lean ====
section
/-! DEFINITION. The Transmission Driver (44_driver.md): `DRV.SERVICE`, the events, `DRV.CQSTEP` and the frame pacing of `BG.WAIT`. -/

namespace Sys2Proof.Machine

/-! ### Interrupt-driven strategy -/

/-- `END_FRAME_INTR` (R229). -/
def endFrameIntr (s : State) : State := toIdle (maskEvents (giveNotify s))

/-- `PUSH(RING.PEEK(j))` for m codes from offset j on (R225, R227). -/
def pushChunk : Nat → Nat → State → Res State
  | 0, _, s => .ok s
  | m + 1, j, s => do
    let c ← ringPeek j s
    let t ← push c s
    pushChunk m (j + 1) t

/-- The INTR chunk size (R226). -/
def intrChunk (s : State) : Nat :=
  min (min s.params.maxChunk s.ring.used) (s.params.hwDepth - s.hw.txmem.length)

/-- n codes are counted as transferred (R238, R244). -/
def countEntries (n : Nat) (s : State) : State :=
  { s with cnt := { s.cnt with entries := s.cnt.entries + BitVec.ofNat 32 n } }

/-- `DRV.SERVICE()` (R225): drain one chunk, then refill, then the end test. -/
def driverService (s : State) : Res State := do
  let t ← pushChunk (intrChunk s) 0 s
  let u ← ringAdvance (intrChunk s) t
  let v ← encoderFill (countEntries (intrChunk s) u)
  if frameDrained v then .ok (endFrameIntr v) else .ok v

/-- `PRIME_INTR()` (R228). -/
def primeIntr (s : State) : Res State := do
  let t ← driverService s
  let u := { t with hw := { t.hw with txEn := true } }
  if u.drvState = .active then .ok (armEvents u) else .ok u

/-- DRV.SERVICE (R225). -/
def execDrvService (s : State) : Host.Outcome State Fault Refusal := settle (driverService s)

/-- EV.THR, the "threshold" event's handler (R231, R342, R343). -/
def execEvThr (s : State) : Host.Outcome State Fault Refusal :=
  settle ((driverService (eventEntry .thr s)).map eventReturn)

/-- EV.TXDONE, the "transmission complete" event's handler: an underrun ends the frame (R235, R336). DESIGN CHOICE: of
a `USED` that does not fit the info word, the low 32 bits stand there (log 29). -/
def execEvTxdone (s : State) : Host.Outcome State Fault Refusal :=
  let t := eventEntry .txdone s
  let u := recordError .txCompleteUnderrun (BitVec.ofNat 32 t.ring.used) t
  .next (eventReturn (toIdle (txDisable (maskEvents (giveNotify u)))))

/-! ### Completion-queue strategy -/

/-- `CQ_FINISH(rc, e)` (R245). -/
def cqFinish (rc : ResultCode) (e : ErrCode) (s : State) : State :=
  completePort s.cq.port rc e 0 (toIdle { s with cq := { s.cq with phase := .idle, n := 0 } })

/-- The scratch copy of m codes from offset j on (R241). -/
def copyChunk : Nat → Nat → State → Res State
  | 0, _, s => .ok s
  | m + 1, j, s => do
    let c ← ringPeek j s
    copyChunk m (j + 1) { s with cq := { s.cq with scratch := s.cq.scratch.write j c } }

/-- `ADVANCE_AND_FILL` (R244). -/
def advanceAndFill (s : State) : Res State := do
  let t ← ringAdvance s.cq.n s
  let u := countEntries s.cq.n t
  encoderFill { u with cq := { u.cq with n := 0 } }

/-- A refused chunk (R240, R332). -/
def transmitFailed (n : Nat) (s : State) : State :=
  cqFinish .aborted .transmitError
    (recordError .transmitError (BitVec.ofNat 32 n) { s with cnt := { s.cnt with txErrs := s.cnt.txErrs + 1 } })

/-- A timeout is counted and recorded (R240, R251, R332). DESIGN CHOICE: of a count that does not fit the info word, the low 32
bits stand there (log 29). -/
def noteTimeout (info : Nat) (s : State) : State :=
  recordError .timeoutError (BitVec.ofNat 32 info) { s with cnt := { s.cnt with timeouts := s.cnt.timeouts + 1 } }

/-- The `CQ_SEND` arm of R240. -/
def cqSend (s : State) : Res State :=
  if frameDrained s then .ok (cqFinish .ok .none s)
  else do
    let n := min s.params.maxChunk s.ring.used
    let t ← copyChunk n 0 s
    let u := { t with cq := { t.cq with n := n } }
    let r := txTransmit (scratchRun u n) u
    if r.1 then .ok { r.2 with cq := { r.2.cq with phase := .await } }
    else .ok (transmitFailed n r.2)

/-- The `CQ_AWAIT` arm of R240. -/
def cqAwait (s : State) : Res State :=
  let r := txAwait s
  if r.1 then do
    let t ← advanceAndFill r.2
    .ok { t with cq := { t.cq with phase := .send } }
  else .ok (cqFinish .aborted .timeoutError (noteTimeout r.2.cq.n r.2))

/-- `DRV.CQSTEP()` (R240). Its case split has no arm for `CQ_IDLE`: nothing happens there (log 18). -/
def cqStep (s : State) : Res State :=
  match s.cq.phase with
  | .idle => .ok s
  | .send => cqSend s
  | .await => cqAwait s

/-- DRV.CQSTEP (R240). -/
def execDrvCqstep (s : State) : Host.Outcome State Fault Refusal := settle (cqStep s)

/-! ### Frame pacing -/

/-- The first step of `BG.WAIT` on a READY channel (R251). -/
def bgWaitFirst (s : State) : Res State :=
  if s.cfg.strategy = .cq then reply .ok .none 0 s
  else if s.notify then reply .ok .none 0 (clearNotify s)
  else if s.drvState = .idle then reply .ok .none 0 s
  else .ok (modPort s.seq.cur (fun p => { p with bgw := true }) s)

/-- BG.WAIT (R251), its first step, taken by SEQ. -/
def execBgWait (s : State) : Host.Outcome State Fault Refusal := settle (whenReady 0x40 s (bgWaitFirst s))

/-- A waiting `BG.WAIT` on port k ends: `BGW[k] <- 0` and the command completes. -/
def endWait (k : Nat) (rc : ResultCode) (e : ErrCode) (s : State) : State :=
  completePort k rc e 0 (modPort k (fun p => { p with bgw := false }) s)

/-- The timeout abort of an interrupt-driven frame (R251 case (d), R332). -/
def abortFrameIntr (s : State) : State := toIdle (txDisable (maskEvents (noteTimeout s.ring.used s)))

/-- The PACER step of port k (R251): the first of the cases (a), (b), (c) that holds; a step taken when none holds is the
timeout draw (d) (log 4). -/
def pacerStep (k : Nat) (s : State) : State :=
  if s.chState = .halted then endWait k .rejHalted .none s
  else if s.notify then endWait k .ok .none (clearNotify s)
  else if s.drvState = .idle then endWait k .ok .none s
  else endWait k .aborted .timeoutError (abortFrameIntr s)

end Sys2Proof.Machine
end

