-- ==== Sys2Proof/Machine/Translation.lean ====
section
/-! DEFINITION. The Bit Translation Table (41_translation_table.md): `XLAT.CFG`, `XLAT.VAL`, `XLAT.LKP`. -/

namespace Sys2Proof.Machine

/-- The records of a list in order from record j, at most `fuel` of them (R150, R152, R124): the table after them, and the
info of the failure, if any. The records before a failure stay installed. -/
def installRecords (h : Word) (ws : List Word) : Nat → Nat → Table → Table × Option Word
  | 0, _, t => (t, some 0x00000001)
  | fuel + 1, j, t =>
    if recordTag h ws j = listEndTag then (t, none)
    else
      match symbolOfTag (recordTag h ws j) with
      | none => (t, some ((0x00000002 : Word) ||| ((recordTag h ws j).setWidth 32 <<< 8)))
      | some b => installRecords h ws fuel (j + 1) (t.set b { valid := true, code := recordCode h ws j })

/-- The first required symbol, in increasing tag order, with no valid entry (R150, R151). -/
def missingSymbol (c : Cfg) (t : Table) : Option BitSymbol := c.required.find? fun b => !(t.get b).valid

/-- `XLAT.CFG(h)` (R150): none is SUCCESS, some info is `FAIL(info)`. -/
def installTable (h : Word) (s : State) : Option Word × State :=
  match findTable s h with
  | none => (some 0x00000000, s)
  | some ws =>
    let r := installRecords h ws s.params.maxTableEntries 0 s.tbl
    match r.2 with
    | some info => (some info, { s with tbl := r.1 })
    | none =>
      match missingSymbol s.cfg r.1 with
      | some b => (some ((0x00000003 : Word) ||| (BitSymbol.tagWord b <<< 8)), { s with tbl := r.1 })
      | none => (none, { s with tbl := r.1, tblOk := true })

/-- The info word of a mismatch: `(j << 8) | tag` (R155, R335). DESIGN CHOICE: of a record index that does not fit the field,
the low 24 bits stand there (log 29). -/
def mismatchInfo (j : Nat) (tag : BitVec 8) : Word := (BitVec.ofNat 32 j <<< 8) ||| tag.setWidth 32

/-- The walk of R155 from record j on ("the lines from j <- 0 on"): whether it logged a mismatch, and the state. -/
def validateRecords (h : Word) (ws : List Word) : Nat → Nat → State → Bool × State
  | 0, _, s => (false, s)
  | fuel + 1, j, s =>
    if recordTag h ws j = listEndTag then (false, s)
    else
      match symbolOfTag (recordTag h ws j) with
      | none => (true, recordError .validationError (mismatchInfo j (recordTag h ws j)) s)
      | some b =>
        if (s.tbl.get b).valid && (s.tbl.get b).code == recordCode h ws j then validateRecords h ws fuel (j + 1) s
        else
          (true, (validateRecords h ws fuel (j + 1)
            (recordError .validationError (mismatchInfo j (recordTag h ws j)) s)).2)

/-- The self-check of `TBL` against the list named by h (R155): an absent list is itself a logged mismatch. -/
def validateTable (h : Word) (s : State) : Bool × State :=
  match findTable s h with
  | none => (true, recordError .validationError 0x000000FF s)
  | some ws => validateRecords h ws s.params.maxTableEntries 0 s

/-- The error code of a command that may have logged a mismatch (R156, R270). -/
def mismatchCode (bad : Bool) : ErrCode := if bad then .validationError else .none

/-- XLAT.CFG (R150), its operand the handle the invoking rule names (R117): the answer is 0 for SUCCESS, 1 and the info for
FAIL. -/
def execXlatCfg (s : State) : Host.Outcome State Fault Refusal :=
  .next (answering (match (installTable s.seq.opnd s).1 with | none => [0] | some info => [1, info])
    (installTable s.seq.opnd s).2)

/-- XLAT.VAL (R155, R156): `RES` is a draw. -/
def execXlatVal (s : State) : Host.Outcome State Fault Refusal :=
  settle (whenReady 0x11 s
    (let v := validateTable (argOperand s) s
     let d := drawWord v.2
     reply .ok (mismatchCode v.1) d.1 d.2))

/-- XLAT.LKP s (R158): HALTED is checked first, then the table is read as every rule reads it. Tag 7 is refused by decode;
past decode it faults like a word that spells no operation (R113; log 19). -/
def execXlatLkp (t : BitVec 3) (s : State) : Host.Outcome State Fault Refusal :=
  settle (
    if s.chState = .halted then reply .rejHalted .none 0 s
    else
      match symbolOfTag (t.setWidth 8) with
      | none => faulting .illegalCommand (encode (.xlatLkp t)).word s
      | some b => do
        let c ← tblRead b s
        reply .ok .none c s)

end Sys2Proof.Machine
end

