-- ==== Sys2Proof/Machine/Orchestrator.lean ====
section
/-! DEFINITION. The Frame Orchestrator and channel control (45_orchestrator.md): `CH.INIT`, `FRAME.START`, `PAUSE`, `STATUS`,
`CH.TEARDOWN`. -/

namespace Sys2Proof.Machine

/-! ### CH.INIT -/

/-- `CONFIG_FAIL(info)` (R270, R331). -/
def configFail (info : Word) (s : State) : State :=
  let t := recordError .configurationError info s
  completePort t.seq.cur .cfgError .configurationError info
    { t with chState := .halted, err := { t.err with restartReq := true } }

/-- `CONFIG_CHECKS` (R271): the info of the first check that fails. -/
def configCheck (s : State) : Option Word :=
  if s.cfg.width = 0 ∨ 32 < s.cfg.width then some 0x11
  else if s.cfg.reserved ≠ 0 then some 0x12
  else if strategySupported s.params s.cfg.strategy = false then some 0x13
  else if findSource s s.cfg.srcHandle = none then some 0x14
  else if s.params.ringCap ≤ s.cfg.slotsPerValue then some 0x15
  else if s.params.ringCap < s.cfg.idleBits + s.cfg.startBits then some 0x16
  else none

/-- `REGISTER(id)` (R361): adds (id, this channel) to the set. -/
def register (s : State) : State :=
  { s with registry :=
      if (s.cfg.channelId, s.params.channel) ∈ s.registry then s.registry
      else s.registry ++ [(s.cfg.channelId, s.params.channel)] }

/-- `DEREGISTER(id)` (R361). -/
def deregister (s : State) : State :=
  { s with registry := s.registry.filter (fun e => e ≠ (s.cfg.channelId, s.params.channel)) }

/-- The descriptor's words are latched, even if a check fails later (R270, R36). -/
def latchConfig (d : Descriptor) (s : State) : State :=
  { s with cfg := { cfg0 := d.word0, cfg1 := d.word1, cfg2 := d.word2, cfg3 := d.word3 } }

/-- The part of `CH.INIT` after the table is installed (R270): self-check, transmitter, registry, READY. -/
def finishInit (s : State) : State :=
  let v := validateTable s.cfg.tblHandle s
  completePort v.2.seq.cur .ok (mismatchCode v.1) 0 { register (txConfigure v.2) with chState := .ready }

/-- The part of `CH.INIT` on a latched configuration (R270). -/
def checkAndInstall (s : State) : State :=
  match configCheck s with
  | some info => configFail info s
  | none =>
    match installTable s.cfg.tblHandle s with
    | (some info, t) => configFail info t
    | (none, t) => finishInit t

/-- `CH.INIT` (R270, R272). -/
def channelInit (s : State) : Res State :=
  match s.chState with
  | .ready => faulting .reconfigureLive (argOperand s) s
  | .halted => reply .rejHalted .none 0 s
  | .reset =>
    match findDesc s (argOperand s) with
    | none => .ok (configFail 0x10 s)
    | some d => .ok (checkAndInstall (latchConfig d s))

/-- CH.INIT (R270). -/
def execChInit (s : State) : Host.Outcome State Fault Refusal := settle (channelInit s)

/-! ### FRAME.START -/

/-- The counters at frame start (R276). -/
def frameCounters (s : State) : State :=
  match s.params.counterPolicy with
  | .perFrame => { s with cnt := { entries := 0, fills := 0, overruns := 0, timeouts := 0, txErrs := 0 } }
  | .cumulative => s

/-- `FRAME_RESET()` (R276, R374). -/
def frameReset (s : State) : Res State := do
  let t ← ringReset s
  .ok (frameCounters (clearNotify t))

/-- `EMIT_FRAMING()` (R277). -/
def emitFraming (s : State) : Res State :=
  emitSymbols (List.replicate s.cfg.idleBits .ifg ++ List.replicate s.cfg.startBits .frameStart) s

/-- The part of `FRAME.START` common to both strategies, up to the hand-off (R274, R275). -/
def frameSetup (s : State) : Res State := do
  let t ← frameReset { s with orchPhase := .framingEmit }
  let m := srcMore (srcFrameStart t)
  let u ← emitFraming { m.2 with hasData := m.1 }
  let v ← encoderFill u
  .ok { v with drvState := .active, orchPhase := .streaming }

/-- An accepted `FRAME.START` (R274): INTR primes and answers OK, CQ leaves the port busy until `CQ_FINISH`. -/
def frameBegin (s : State) : Res State := do
  let t ← frameSetup s
  match t.cfg.strategy with
  | .intr => do
    let u ← primeIntr t
    reply .ok .none 0 u
  | .cq => .ok { t with cq := { t.cq with port := t.seq.cur, phase := .send } }

/-- FRAME.START (R274): refusals in the order HALTED, PAUSED, BUSY. -/
def execFrameStart (s : State) : Host.Outcome State Fault Refusal :=
  settle (whenReady 0x51 s
    (if s.paused then reply .rejPaused .none 0 s
     else if s.drvState = .active then reply .rejBusy .none 0 s
     else frameBegin s))

/-! ### PAUSE, STATUS, CH.TEARDOWN -/

/-- PAUSE p (R281): writes the pause flag only. -/
def execPause (p : Bool) (s : State) : Host.Outcome State Fault Refusal :=
  settle (whenReady 0x52 s (reply .ok .none 0 { s with paused := p }))

/-- STATUS i (R284): legal in every channel state. -/
def execStatus (i : BitVec 3) (s : State) : Host.Outcome State Fault Refusal :=
  settle (reply .ok .none (snapWord i s) s)

/-- A CQ `FRAME.START` blocked on `CQ_PORT` is ended with `REJ_HALTED` (R286). -/
def releaseCqPort (s : State) : State :=
  if s.cq.phase = .idle then s
  else
    let t := completePort s.cq.port .rejHalted .none 0 s
    { t with cq := { t.cq with phase := .idle, n := 0 } }

/-- `CH.TEARDOWN` on a READY channel (R286). -/
def teardown (s : State) : State :=
  let t := deregister (toIdle (releaseCqPort (txTeardown (txDisable (maskEvents s)))))
  { t with chState := .halted, err := { t.err with restartReq := true } }

/-- CH.TEARDOWN (R286). -/
def execChTeardown (s : State) : Host.Outcome State Fault Refusal :=
  settle (whenReady 0x54 s (reply .ok .none 0 (teardown s)))

end Sys2Proof.Machine
end

