-- ==== Sys2Proof/Machine/Dispatch.lean ====
section
/-! DEFINITION. One arm per instruction, each one direct call of its meaning. -/

namespace Sys2Proof.Machine

def exec (i : Instr) (s : State) : Host.Outcome State Fault Refusal :=
  match i with
  | .xlatCfg => Sys2Proof.Machine.execXlatCfg s
  | .xlatVal => Sys2Proof.Machine.execXlatVal s
  | .xlatLkp t => Sys2Proof.Machine.execXlatLkp t s
  | .ringWr => Sys2Proof.Machine.execRingWr s
  | .ringRst => Sys2Proof.Machine.execRingRst s
  | .ringAvf => Sys2Proof.Machine.execRingAvf s
  | .ringAvd => Sys2Proof.Machine.execRingAvd s
  | .ringPeek k => Sys2Proof.Machine.execRingPeek k s
  | .ringAdv n => Sys2Proof.Machine.execRingAdv n s
  | .encFill => Sys2Proof.Machine.execEncFill s
  | .bgWait => Sys2Proof.Machine.execBgWait s
  | .drvService => Sys2Proof.Machine.execDrvService s
  | .drvCqstep => Sys2Proof.Machine.execDrvCqstep s
  | .chInit => Sys2Proof.Machine.execChInit s
  | .frameStart => Sys2Proof.Machine.execFrameStart s
  | .pause p => Sys2Proof.Machine.execPause p s
  | .status n => Sys2Proof.Machine.execStatus n s
  | .chTeardown => Sys2Proof.Machine.execChTeardown s
  | .evThr => Sys2Proof.Machine.execEvThr s
  | .evTxdone => Sys2Proof.Machine.execEvTxdone s
  | .srcMore => Sys2Proof.Machine.execSrcMore s
  | .srcNext => Sys2Proof.Machine.execSrcNext s
  | .srcFramestart => Sys2Proof.Machine.execSrcFramestart s
  | .txConfigure => Sys2Proof.Machine.execTxConfigure s
  | .txTransmit => Sys2Proof.Machine.execTxTransmit s
  | .txAwait => Sys2Proof.Machine.execTxAwait s
  | .txDisable => Sys2Proof.Machine.execTxDisable s
  | .txTeardown => Sys2Proof.Machine.execTxTeardown s

end Sys2Proof.Machine
end

