-- ==== Sys2Proof/Machine/Agents.lean ====
section
/-! DEFINITION. The agents of a channel (00_scope.md R9): when each one may step, what its step is, how an instruction is fetched
from where the machine takes it, and which enabled agent steps next (20_memory.md R90). -/

namespace Sys2Proof.Machine

/-! ### Enabling -/

/-- No `FAULT` bit is set; a faulted channel's agents are all disabled (R333). -/
def notFaulted (s : State) : Bool := s.err.fault == 0

/-- The HOST may take its next action. An action that breaks a duty of R320 gets no step: a `CMD[k]` write while the port is
busy (R30; log 11), and a `CMD[k]` write of a command that takes `ARG[k]` with no `ARG[k]` write before it since reset (duty 4;
log 32). Nor does a `CMD[k]` write to a faulted channel (R333). `ARG` writes, register reads and a restart are always possible
(R30, R321). -/
def hostEnabled (s : State) : Bool :=
  match s.env.hostq with
  | [] => false
  | .write k (.cmd w) :: _ => notFaulted s && !(portOf s k).busy && (!wordTakesArg w || s.env.argSet.contains k)
  | _ :: _ => true

/-- SEQ may take the command of port k (R111). -/
def seqEnabled (k : Nat) (s : State) : Bool := notFaulted s && (portOf s k).cmd.isSome

/-- ISR (R221). -/
def isrEnabled (s : State) : Bool := (eventTaken s).isSome

/-- CQDRV (R240). In phase `CQ_AWAIT` the failure answer is allowed at any step (R243). -/
def cqdrvEnabled (s : State) : Bool := notFaulted s && s.cq.phase != .idle && s.chState == .ready

/-- PACER for port k (R251). -/
def pacerEnabled (k : Nat) (s : State) : Bool := notFaulted s && (portOf s k).bgw

/-- HWTX (R246). -/
def hwtxEnabled (s : State) : Bool := notFaulted s && s.hw.txEn && !s.hw.txmem.isEmpty

/-- A bounded wait is open and its condition does not hold (R393): the agent whose step, taken now, is the timeout. For a
waiting `BG.WAIT` this is R251's case (d), for the CQ await R243's failure. -/
def openWaits (s : State) : List Agent :=
  (if s.cq.phase = .await ∧ s.hw.txmem ≠ [] then [.cqdrv] else []) ++
    ((List.range s.ports.length).filter fun k =>
      (portOf s k).bgw && !s.notify && s.drvState == .active).map .pacer

/-- The oracles are asked on a READY channel only (R371, R333). -/
def oraclesAsked (s : State) : Bool := notFaulted s && s.chState == .ready

/-- SRC may step by itself: its next answer is not made up yet, and its source is not a list, whose answers are fixed
(R300 to R304; log 30). -/
def srcEnabled (s : State) : Bool := oraclesAsked s && s.env.srcDraws.isEmpty && currentSource s == .oracle

/-- ENV may step by itself: its next answer is not made up yet, or it may decide a timeout (R9; log 30). -/
def envEnabled (s : State) : Bool := oraclesAsked s && (s.env.draws.isEmpty || !(openWaits s).isEmpty)

/-- The rule-level latch holds an operation (log 6). -/
def ruleEnabled (s : State) : Bool := notFaulted s && s.seq.invoke.isSome

/-- The agent may step. -/
def enabled (a : Agent) (s : State) : Bool :=
  match a with
  | .host => hostEnabled s
  | .seq k => seqEnabled k s
  | .isr => isrEnabled s
  | .cqdrv => cqdrvEnabled s
  | .pacer k => pacerEnabled k s
  | .hwtx => hwtxEnabled s
  | .src => srcEnabled s
  | .env => envEnabled s
  | .rule => ruleEnabled s

/-- Every agent of the channel. -/
def allAgents (s : State) : List Agent :=
  [.host, .isr, .cqdrv, .hwtx, .src, .env, .rule] ++ (List.range s.ports.length).map .seq ++ (List.range s.ports.length).map .pacer

/-- The agents that may step now. -/
def enabledAgents (s : State) : List Agent := (allAgents s).filter fun a => enabled a s

/-! ### Scheduling -/

/-- Any enabled agent may step next (R90): the n-th entry of the list, n a free choice (log 4). -/
def freeAgent (as : List Agent) (n : Nat) : Option Agent :=
  match as with
  | [] => none
  | [a] => some a
  | a :: b :: rest => (a :: b :: rest)[Config.freePick n % (rest.length + 2)]?

/-- The agent that steps next: the one lined up, if it may step, else any that may. -/
def nextAgent (s : State) : Option Agent :=
  match s.env.sched with
  | a :: _ => if enabled a s then some a else freeAgent (enabledAgents s) s.env.picked
  | [] => freeAgent (enabledAgents s) s.env.picked

/-- A step was scheduled. -/
def advanceSchedule (s : State) : State :=
  { s with env := { s.env with sched := s.env.sched.tail, picked := s.env.picked + 1 } }

/-! ### The agents' steps -/

/-- What the HOST's latest read got (log 26). -/
def hostReads (v : Word) (s : State) : State := { s with env := { s.env with hostRead := v } }

/-- One HOST action, already taken off the list: a register write or read (R30), or the restart (R370). A write of `CMD[k]`
makes the port busy until the command completes (R30). -/
def hostAction (a : HostAct) (s : State) : Host.Outcome State Fault Refusal :=
  match a with
  | .restart => .next (State.resetWith s.params s.env)
  | .write k (.arg v) => if k < s.ports.length then .next (modPort k (fun p => { p with arg := v }) s) else .fault (.noSuchPort k)
  | .write k (.cmd w) => if k < s.ports.length then .next (modPort k (fun p => { p with cmd := some w, busy := true }) s) else .fault (.noSuchPort k)
  | .readArg k => if k < s.ports.length then .next (hostReads (portOf s k).arg s) else .fault (.noSuchPort k)
  | .readRes k => if k < s.ports.length then .next (hostReads (portOf s k).res s) else .fault (.noSuchPort k)
  | .readRstat k => if k < s.ports.length then .next (hostReads ((portOf s k).rstat.setWidth 32) s) else .fault (.noSuchPort k)
  | .readCmd k => if k < s.ports.length then .fault (.cmdNotReadable k) else .fault (.noSuchPort k)

/-- The ports whose `ARG` was written since reset, after a HOST action: an `ARG` write adds its port, a restart clears them with
the registers (R320, R370; log 32). -/
def argSetAfter (a : HostAct) (l : List Nat) : List Nat :=
  match a with
  | .write k (.arg _) => k :: l.filter fun j => j != k
  | .write _ (.cmd _) => l
  | .restart => []
  | .readArg _ => l
  | .readRes _ => l
  | .readRstat _ => l
  | .readCmd _ => l

/-- The HOST's step. -/
def hostStep (s : State) : Host.Outcome State Fault Refusal :=
  match s.env.hostq with
  | [] => .next s
  | a :: rest => hostAction a { s with env := { s.env with hostq := rest, argSet := argSetAfter a s.env.argSet } }

/-- SEQ takes the command of port k: `CMD[k]` is taken, and the port is the one that commands and replies refer to. -/
def takeCommand (k : Nat) (s : State) : State :=
  modPort k (fun p => { p with cmd := none, busy := true }) { s with seq := { s.seq with cur := k } }

/-- SEQ's step for port k (R111): decode and execution are one step; a word that spells no host command faults (R128). -/
def seqStep (k : Nat) (s : State) : Host.Outcome State Fault Refusal :=
  match (portOf s k).cmd with
  | none => .next s
  | some w =>
    match decodeHost w with
    | some i => exec i (takeCommand k s)
    | none => .next (raiseFault .illegalCommand w (takeCommand k s))

/-- ISR's step (R224): the event is delivered by its number (R130) and handled. -/
def isrStep (s : State) : Host.Outcome State Fault Refusal :=
  match eventTaken s with
  | none => .next s
  | some e =>
    match decode { fmt := .ev, word := e.number } with
    | some i => exec i s
    | none => .next s

/-- CQDRV's step (R240): it invokes `DRV.CQSTEP` directly (R117). -/
def cqdrvStep (s : State) : Host.Outcome State Fault Refusal := exec .drvCqstep s

/-- SRC's own step: it makes up the answer of its next call, which takes it inside the calling step (R16, R300, R301;
log 30). -/
def srcStep (s : State) : State :=
  { s with env := { s.env with
      srcDraws := s.env.srcDraws ++ [Config.freeDraw s.env.drawn], drawn := s.env.drawn + 1 } }

/-- ENV's own step: where a bounded wait can time out it decides that one does, and the agent that waits takes the timeout
as the very next step (R251, R243, R393); else it makes up its next answer (R311, R312; log 30). -/
def envStep (s : State) : State :=
  match (openWaits s)[(Config.freeDraw s.env.drawn).toNat % (openWaits s).length]? with
  | some a => { s with env := { s.env with sched := a :: s.env.sched, drawn := s.env.drawn + 1 } }
  | none =>
    { s with env := { s.env with draws := s.env.draws ++ [Config.freeDraw s.env.drawn], drawn := s.env.drawn + 1 } }

/-- The latch is emptied as its operation is taken (log 6). -/
def takeInvocation (s : State) : State := { s with seq := { s.seq with invoke := none, answer := [] } }

/-- A rule-level invocation (log 6): the operation is run by itself, outside any port. -/
def ruleStep (s : State) : Host.Outcome State Fault Refusal :=
  match s.seq.invoke with
  | none => .next s
  | some c =>
    match decode c with
    | some i => exec i (takeInvocation s)
    | none =>
      match c.fmt with
      | .cmd => .next (raiseFault .illegalCommand c.word (takeInvocation s))
      | .ev => .refused (.unlistedNumber c)
      | .xc => .refused (.unlistedNumber c)

/-- One atomic step of one agent (R16, R86). -/
def agentStep (a : Agent) (s : State) : Host.Outcome State Fault Refusal :=
  match a with
  | .host => hostStep s
  | .seq k => seqStep k s
  | .isr => isrStep s
  | .cqdrv => cqdrvStep s
  | .pacer k => .next (pacerStep k s)
  | .hwtx => .next (hwtxShift s)
  | .src => .next (srcStep s)
  | .env => .next (envStep s)
  | .rule => ruleStep s

/-- One step of the machine. A parameter set that breaks R12 is refused. With no agent enabled, a faulted channel is stuck
until reset (R333; log 9) and any other channel waits for the host, unchanged (R371; log 10). -/
def machineStep (s : State) : Host.Outcome State Fault Refusal :=
  if paramsOk s.params then
    match nextAgent s with
    | some a => agentStep a (advanceSchedule s)
    | none => if notFaulted s then .next s else .fault (.channelStuck s.err.fault)
  else .refused .badParameters

/-! ### Placing one instruction -/

/-- A host command word stands in `CMD[0]`, port 0 busy, SEQ lined up to take it (R111). -/
def placeCommand (w : Word) (s : State) : State :=
  modPort 0 (fun p => { p with cmd := some w, busy := true })
    { s with env := { s.env with sched := .seq 0 :: s.env.sched } }

/-- Any other encoded word stands in the rule-level latch, which is lined up to run (log 6). -/
def placeInvocation (c : Code) (s : State) : State :=
  { s with seq := { s.seq with invoke := some c }, env := { s.env with sched := .rule :: s.env.sched } }

/-- A table row's word stored where the next step fetches it (log 1): a host command, or a word that spells nothing, in port 0;
an internal operation, an event or a call in the rule-level latch. -/
def placeTableWord (nbits w : Nat) (s : State) : State :=
  match decodeTableWord nbits w with
  | some i => if i.hostIssued then placeCommand (encode i).word s else placeInvocation (encode i) s
  | none => placeCommand (BitVec.ofNat 32 w) s

end Sys2Proof.Machine
end

