-- ==== Sys2Proof/Machine/Step.lean ====
section
/-! DEFINITION. The step of the machine, and the placing of one instruction where the step fetches it. -/

namespace Sys2Proof.Machine

/-- One step of one enabled agent (R9, R16, R90). -/
def step (s : State) : Host.Outcome State Fault Refusal := machineStep s

/-- `s` with an instruction's bits stored where the next step fetches its instruction (log 1). -/
def State.withFetchWord (s : State) (nbits w : Nat) : State := placeTableWord nbits w s

end Sys2Proof.Machine
end

