-- ==== Sys2Proof/Safety.lean ====
section
/-! DEFINITION. The terms the statements use: the staged codes as a queue, what a completed command leaves, the invariants of
10_state.md R56 with what makes them hold at every step, and the faults no run reaches (60_exceptions.md R337). -/

namespace Sys2Proof.Machine

/-! ### The ring as a queue -/

/-- The staged codes, oldest first: the `USED` slots from `RIDX` onward (R178). -/
def ringCodes (s : State) : List Word := (List.range s.ring.used).map fun k => slotWord s (s.ring.ridx + k)

/-- The codes between the encoder and the observer under INTR, in the order they reach the wire: on it, in `TXMEM`, staged. -/
def intrStream (s : State) : List Word := s.hw.wire ++ s.hw.txmem ++ ringCodes s

/-- R56 items 1 and 2 and R41's index ranges: the ring property of R180. -/
structure RingInv (s : State) : Prop where
  used_le : s.ring.used ≤ s.params.ringCap
  widx_lt : s.ring.widx < s.params.ringCap
  ridx_lt : s.ring.ridx < s.params.ringCap
  congruent : (s.ring.widx + s.params.ringCap - s.ring.ridx) % s.params.ringCap = s.ring.used % s.params.ringCap

/-! ### What a command leaves -/

/-- The state with port k's command completed: `RSTAT[k]`, `RES[k]`, `BUSY[k] = 0`; nothing else changes. -/
def replied (k : Nat) (rstat : BitVec 8) (res : Word) (s : State) : State :=
  { s with ports := s.ports.modify k fun p => { p with rstat := rstat, res := res, busy := false } }

/-- The state a fault leaves (R333): one `FAULT` bit, `LAST_ERR` and one log record; nothing else changes. -/
def faulted (mask : BitVec 8) (code : BitVec 4) (info : Word) (s : State) : State :=
  { s with err := { s.err with
      lastErr := code
      fault := s.err.fault ||| mask
      log := s.err.log ++ [{ code := code, info := info }] } }

/-- The codes of an intensity value's data bits, in write order. -/
def valueCodes (s : State) (v : Word) : List Word :=
  (valueBits s.cfg.lsbFirst s.cfg.width v).map fun b => if b then s.tbl.one.code else s.tbl.zero.code

/-- The codes of a trailer, m being the answer of `SRC.MORE` for the value (R202's table). -/
def trailerCodes (s : State) (m : Bool) : List Word :=
  if m = false ∧ s.cfg.eofEn = true then [s.tbl.eof.code]
  else if s.cfg.stopEn = true then [s.tbl.stop.code]
  else []

/-- What the encoder writes for a list of values of a list source, whose list ends with them or goes on (R207). -/
def encodedValues (s : State) (moreAfter : Bool) : List Word → List Word
  | [] => []
  | [v] => valueCodes s v ++ trailerCodes s moreAfter
  | v :: w :: vs => valueCodes s v ++ trailerCodes s true ++ encodedValues s moreAfter (w :: vs)

/-- The framing codes of a frame (R277). -/
def framingCodes (s : State) : List Word :=
  List.replicate s.cfg.idleBits s.tbl.ifg.code ++ List.replicate s.cfg.startBits s.tbl.frameStart.code

/-! ### What a step finds and leaves -/

/-- One step was scheduled: the agent lined up, if any, is used up. -/
def scheduled (s : State) : State :=
  { s with env := { s.env with sched := s.env.sched.tail, picked := s.env.picked + 1 } }

/-- The state in which SEQ executes the command it took from port k (R111). -/
def commandTaken (k : Nat) (s : State) : State :=
  { scheduled s with
    ports := s.ports.modify k fun p => { p with cmd := none, busy := true }
    seq := { s.seq with cur := k } }

/-- The state in which a rule-level invocation runs (log 6). -/
def invocationTaken (s : State) : State := { scheduled s with seq := { s.seq with invoke := none, answer := [] } }

/-- The state in which one HOST action has been taken off the list, and its `ARG` write or use noted (log 32). -/
def actionTaken (s : State) : State :=
  { scheduled s with env := { (scheduled s).env with
      hostq := s.env.hostq.tail
      argSet := (s.env.hostq.head?.map fun a => argSetAfter a s.env.argSet).getD s.env.argSet } }

/-- Agent a is lined up for the next step of a machine with legal parameters (R12, R90). -/
def Lined (a : Agent) (s : State) : Prop := paramsOk s.params = true ∧ ∃ rest, s.env.sched = a :: rest

/-- A waiting `BG.WAIT` on port k completed with a status byte (R251). -/
def waitEnded (k : Nat) (rstat : BitVec 8) (s : State) : State :=
  { s with ports := s.ports.modify k fun p => { p with rstat := rstat, res := 0, busy := false, bgw := false } }

/-- The end of a frame in the control state. -/
def frameEnded (s : State) : State := { s with drvState := .idle, orchPhase := .idle }

/-- A recorded error that is no fault (R338). -/
def recorded (code : BitVec 4) (info : Word) (s : State) : State :=
  { s with err := { s.err with lastErr := code, log := s.err.log ++ [{ code := code, info := info }] } }

/-- An external call is noted (log 23). -/
def called (id : Byte) (args : List Word) (s : State) : State :=
  { s with env := { s.env with calls := s.env.calls ++ [{ id := id, args := args }] } }

/-- The transmitter after `TX.DISABLE` (R313). -/
def hwDisabled (h : Hwtx) : Hwtx := { h with txEn := false, txmem := [], thrPend := false, donePend := false }

/-- A failed `CH.INIT` (R331). -/
def configFailed (info : Word) (s : State) : State :=
  replied s.seq.cur 0x14 info
    { s with
      chState := .halted
      err := { s.err with
        lastErr := 1, restartReq := true, log := s.err.log ++ [{ code := 1, info := info }] } }

/-! ### Sequences of ring operations -/

/-- One operation of the ring's producer or consumer. -/
inductive RingOp where
  | put (c : Word)
  | take
deriving DecidableEq, Repr

/-- The codes that the producer's operations write, in order. -/
def RingOp.puts : List RingOp → List Word
  | [] => []
  | .put c :: ops => c :: RingOp.puts ops
  | .take :: ops => RingOp.puts ops

/-- A sequence of `RING.WR c`, and of `RING.PEEK 0` with `RING.ADV 1`, run as instructions: what the consumer read, in order,
and the state left; none if an operation did not respect the capacity or did not answer a next state. -/
def ringRun : List RingOp → State → Option (List Word × State)
  | [], s => some ([], s)
  | .put c :: ops, s =>
    if s.ring.used < s.params.ringCap then
      match exec .ringWr { s with seq := { s.seq with opnd := c } } with
      | .next t => ringRun ops t
      | .fault _ => none
      | .refused _ => none
    else none
  | .take :: ops, s =>
    if 0 < s.ring.used then
      match exec (.ringPeek 0) s with
      | .next t =>
        match exec (.ringAdv 1) t with
        | .next u => (ringRun ops u).map fun r => (t.seq.answer ++ r.1, r.2)
        | .fault _ => none
        | .refused _ => none
      | .fault _ => none
      | .refused _ => none
    else none

/-! ### Table lists (R124) -/

/-- How many records of a list stand before its end: the records 0, 1, ... whose tag is a symbol's, `max` at most. -/
def listedCount (h : Word) (ws : List Word) (max : Nat) : Nat :=
  ((List.range max).takeWhile fun j => decide (recordTag h ws j < 7#8)).length

/-- The last of the first n records that carries the symbol's tag (R152). -/
def lastRecord (h : Word) (ws : List Word) (n : Nat) (b : BitSymbol) : Option Nat :=
  ((List.range n).filter fun j => recordTag h ws j == b.tag).getLast?

/-- Record j is a symbol's, and the table holds its code for that symbol (R155). -/
def recordAgrees (t : Table) (h : Word) (ws : List Word) (j : Nat) : Bool :=
  match symbolOfTag (recordTag h ws j) with
  | some b => (t.get b).valid && (t.get b).code == recordCode h ws j
  | none => false

/-- The records a self-check logs, in order: those before the list's end that disagree with the table, and the record with a
malformed tag that ends the list (R155). -/
def mismatches (t : Table) (h : Word) (ws : List Word) (max : Nat) : List Nat :=
  (List.range (min (listedCount h ws max + 1) max)).filter fun j =>
    recordTag h ws j != listEndTag && !recordAgrees t h ws j

/-- The state after the mismatches of some records were logged (R155, R335). -/
def mismatchesLogged (h : Word) (ws : List Word) (js : List Nat) (s : State) : State :=
  { s with err := { s.err with
      lastErr := if js.isEmpty then s.err.lastErr else 5
      log := s.err.log ++ js.map fun j => { code := 5, info := BitVec.ofNat 32 (256 * j + (recordTag h ws j).toNat) } } }

/-! ### Invariants -/

/-- The table holds every required symbol (R151, R56 item 8). -/
def TableComplete (s : State) : Prop := ∀ b ∈ s.cfg.required, (s.tbl.get b).valid = true

/-- What `CH.INIT`'s checks 1, 5 and 6 and the table's install leave of a channel it has taken out of RESET (R271, R150). -/
structure Configured (s : State) : Prop where
  notReset : s.chState ≠ .reset
  tblOk : s.tblOk = true
  width_pos : 1 ≤ s.cfg.width
  width_le : s.cfg.width ≤ 32
  slots_lt : s.cfg.slotsPerValue < s.params.ringCap
  framing_le : s.cfg.idleBits + s.cfg.startBits ≤ s.params.ringCap

/-- R56's invariants of a channel whose `FAULT` is 0 (items 3 to 8), with what the rules keep beside them. -/
structure LiveInv (s : State) : Prop where
  /-- Item 3. -/
  streaming : s.drvState = .active ↔ s.orchPhase = .streaming
  /-- `FRAMING_EMIT` holds only inside a step (R275). -/
  notFraming : s.orchPhase ≠ .framingEmit
  /-- Item 4. -/
  activeReady : s.drvState = .active → s.chState = .ready ∧ s.tblOk = true
  /-- Item 5. -/
  enables : s.thrIe = true ∨ s.doneIe = true → s.cfg.strategy = .intr ∧ s.drvState = .active
  /-- Item 6. -/
  cqActive : s.cq.phase ≠ .idle → s.cfg.strategy = .cq ∧ s.drvState = .active
  /-- Item 7. -/
  txmemBound : s.hw.txmem.length ≤ s.params.hwDepth
  /-- Item 8. -/
  tableComplete : s.tblOk = true → TableComplete s
  /-- A READY channel passed the checks of `CH.INIT`. -/
  configured : s.chState = .ready → Configured s
  /-- An unconfigured channel has no table (R38). -/
  unconfigured : s.chState = .reset → s.tblOk = false
  /-- Under CQ, `TXMEM` is empty but while a chunk is awaited (R242). -/
  cqTxmem : s.chState = .ready → s.cfg.strategy = .cq → s.cq.phase ≠ .await → s.hw.txmem = []
  /-- A CQ frame in flight is somewhere in its loop (R240). -/
  cqLoop : s.drvState = .active → s.cfg.strategy = .cq → s.cq.phase ≠ .idle
  /-- The chunk awaited is staged still, and no longer than `P_MAX_CHUNK` (R241, R252). -/
  cqChunk : s.cq.phase = .await → 1 ≤ s.cq.n ∧ s.cq.n ≤ s.ring.used ∧ s.cq.n ≤ s.params.maxChunk
  /-- An empty ring of a frame in flight means no data is left (R233). -/
  drained : s.drvState = .active → s.ring.used = 0 → s.hasData = false
  /-- An INTR frame in flight can go on (R232). -/
  intrLoop : s.drvState = .active → s.cfg.strategy = .intr →
    s.hw.txEn = true ∧ s.thrIe = true ∧ s.doneIe = true ∧ 0 < s.ring.used ∧ (s.hw.txmem ≠ [] ∨ s.hw.thrPend = true)
  /-- A waiting `BG.WAIT` keeps its port busy, and only an INTR channel has one (R57). -/
  waiting : ∀ p ∈ s.ports, p.bgw = true → p.busy = true ∧ s.cfg.strategy = .intr ∧ s.chState ≠ .reset
  /-- A command not yet taken keeps its port busy (R30). -/
  pending : ∀ p ∈ s.ports, p.cmd.isSome = true → p.busy = true ∧ p.bgw = false
  /-- The port of a CQ frame in flight stays busy, with nothing written to it since (R245, R274). -/
  cqPort : s.cq.phase ≠ .idle → ∃ p, s.ports[s.cq.port]? = some p ∧ p.busy = true ∧ p.cmd = none

/-- The invariant of the machine: legal parameters (R12), no rule-level invocation, the ring property (R180), the canonical form
of the two word memories, and R56 while `FAULT` is 0. -/
structure Inv (s : State) : Prop where
  params : paramsOk s.params = true
  noInvocation : s.seq.invoke = none
  portCount : s.ports.length = s.params.hostPorts
  ring : RingInv s
  slotsWf : s.ring.slots.wf = true
  scratchWf : s.cq.scratch.wf = true
  live : s.err.fault = 0 → LiveInv s

/-- The `FAULT` bits that only a broken internal rule could set: `F_OVERRUN`, `F_UNDERFLOW`, `F_ILLEGAL_RESET`, `F_HW_OVERFLOW`
(R337). -/
def internalFaults : BitVec 8 := 0x87

/-- A safe state: no such fault was raised. -/
def Safe (s : State) : Prop := s.err.fault &&& internalFaults = 0

end Sys2Proof.Machine
end

