-- ==== Sys2Proof/Certificates/Slice0/Obligations.lean ====
section
/-! DEFINITION. The statements for the provers. The state t of a conclusion `exec i s = .next t` is the whole next state: what
the statement does not name in it is as in s. -/

open Sys2Proof Sys2Proof.Machine

/-! ### Encoding -/

/-- The expansions and the other encodings that R133 lists. -/
def Obligations.PseudoInstructionsExpand : Prop :=
  Pseudo.resume.expand = [.cmd 0x00000052#32] ∧ Pseudo.pauseOn.expand = [.cmd 0x00000152#32] ∧
  (∀ h, (Pseudo.xlatValAt h).expand = [.arg h, .cmd 0x00000011#32]) ∧
  (∀ h, (Pseudo.chInitAt h).expand = [.arg h, .cmd 0x00000050#32]) ∧
  Pseudo.tick.expand = [.cmd 0x00000040#32, .cmd 0x00000051#32] ∧
  Pseudo.statusAll.expand = [.cmd 0x00000053#32, .cmd 0x00010053#32, .cmd 0x00020053#32, .cmd 0x00030053#32,
    .cmd 0x00040053#32, .cmd 0x00050053#32, .cmd 0x00060053#32, .cmd 0x00070053#32] ∧
  (encode (.xlatLkp 1)).word = 0x00000112#32 ∧ (encode (.xlatLkp 6)).word = 0x00000612#32 ∧
  (encode (.status 4)).word = 0x00040053#32 ∧ (encode .ringAvf).word = 0x00000022#32 ∧
  (encode .ringAvd).word = 0x00000023#32 ∧ (encode .chTeardown).word = 0x00000054#32

/-- A few words of every format and family, written out from R112, R130 and R131, decode to what they stand for. -/
def Obligations.WordsDecode : Prop :=
  decode ⟨.cmd, 0x00000010#32⟩ = some .xlatCfg ∧ decode ⟨.cmd, 0x00000512#32⟩ = some (.xlatLkp 5) ∧
  decode ⟨.cmd, 0x00000020#32⟩ = some .ringWr ∧ decode ⟨.cmd, 0xFFFE0024#32⟩ = some (.ringPeek 0xFFFE) ∧
  decode ⟨.cmd, 0x80010025#32⟩ = some (.ringAdv 0x8001) ∧ decode ⟨.cmd, 0x00000030#32⟩ = some .encFill ∧
  decode ⟨.cmd, 0x00000042#32⟩ = some .drvCqstep ∧ decode ⟨.cmd, 0x00000152#32⟩ = some (.pause true) ∧
  decode ⟨.cmd, 0x00070053#32⟩ = some (.status 7) ∧ decode ⟨.cmd, 0x00080053#32⟩ = none ∧
  decode ⟨.cmd, 0x00000712#32⟩ = none ∧ decode ⟨.cmd, 0x00000252#32⟩ = none ∧ decode ⟨.cmd, 0x00010051#32⟩ = none ∧
  decode ⟨.cmd, 0#32⟩ = none ∧ decode ⟨.ev, 0x02#32⟩ = some .evTxdone ∧ decode ⟨.ev, 0x03#32⟩ = none ∧
  decode ⟨.xc, 0x02#32⟩ = some .srcNext ∧ decode ⟨.xc, 0x12#32⟩ = some .txTransmit ∧ decode ⟨.xc, 0x04#32⟩ = none

/-- Every well-formed instruction is read back from its encoding, with every operand (R112 to R114, R130, R131). -/
def Obligations.DecodeReadsEncode : Prop :=
  ∀ i : Instr, i.wf = true → decode (encode i) = some i

/-- A word that decodes is the encoding of the well-formed instruction it decodes to, so no two words mean the same (R116, R127). -/
def Obligations.EncodeGivesDecodedWord : Prop :=
  ∀ (c : Code) (i : Instr), decode c = some i → i.wf = true ∧ encode i = c

/-- Which words a host may write, and as what they decode; SEQ faults `F_ILLEGAL_COMMAND` with the word as info on every other
(R128, R111). That CMD[k] is held until SEQ takes it is log 16, the line-up of agents log 4, the latch that names the port log 22,
that the faulting step answers a next state log 9. -/
def Obligations.HostWordsDecodeOrFault : Prop :=
  (∀ (w : Word) (i : Instr), decodeHost w = some i ↔
    match i with
    | .xlatVal => w.toNat = 0x11
    | .xlatLkp s => s.toNat ≤ 6 ∧ w.toNat = 0x12 + 0x100 * s.toNat
    | .ringAvf => w.toNat = 0x22
    | .ringAvd => w.toNat = 0x23
    | .bgWait => w.toNat = 0x40
    | .chInit => w.toNat = 0x50
    | .frameStart => w.toNat = 0x51
    | .pause p => w.toNat = 0x52 + 0x100 * p.toNat
    | .status n => w.toNat = 0x53 + 0x10000 * n.toNat
    | .chTeardown => w.toNat = 0x54
    | _ => False) ∧
  (∀ (s : State) (k : Nat) (w : Word), Lined (.seq k) s → s.err.fault = 0 → (portOf s k).cmd = some w → decodeHost w = none →
    step s = .next (faulted 0x10 9 w (commandTaken k s)))

/-! ### The step -/

/-- SEQ's step on a command word that decodes is that instruction, executed on the state in which the word has been taken, the
port is busy and the schedule has moved on (R111). That CMD[k] is held until taken is log 16, the line-up of agents log 4. -/
def Obligations.StepRunsHostCommand : Prop :=
  ∀ (s : State) (k : Nat) (w : Word) (i : Instr), Lined (.seq k) s → s.err.fault = 0 → (portOf s k).cmd = some w →
    decodeHost w = some i → step s = exec i (commandTaken k s)

/-- ISR's step takes `EV.TXDONE` when it is deliverable, else `EV.THR`; CQDRV's step is `DRV.CQSTEP` (R224, R222, R240). -/
def Obligations.StepRunsEventsAndLoop : Prop :=
  (∀ s : State, Lined .isr s → s.err.fault = 0 → s.chState = .ready → s.cfg.strategy = .intr →
    (s.hw.donePend = true → s.doneIe = true → step s = exec .evTxdone (scheduled s)) ∧
    (¬ (s.hw.donePend = true ∧ s.doneIe = true) → s.hw.thrPend = true → s.thrIe = true →
      step s = exec .evThr (scheduled s))) ∧
  (∀ s : State, Lined .cqdrv s → s.err.fault = 0 → s.chState = .ready → s.cq.phase ≠ .idle →
    step s = exec .drvCqstep (scheduled s))

/-- A rule-level invocation runs the operation its word decodes to. The latch is the model's own (log 6). -/
def Obligations.StepRunsInvocation : Prop :=
  ∀ (s : State) (c : Code) (i : Instr), Lined .rule s → s.err.fault = 0 → s.seq.invoke = some c → decode c = some i →
    step s = exec i (invocationTaken s)

/-- The HOST's register accesses (R30, R111, R320): `ARG` is read and written, `CMD` is written and makes an idle port busy, `RES`
and `RSTAT` are read as they stand. A `CMD` write that breaks a duty gets no step: one to a busy port (log 11), and one of
`XLAT.VAL` or `CH.INIT` with no `ARG` write before it; the model's own list says which `ARG` was written (log 32).
What a read got is in the model's own latch (log 26). -/
def Obligations.HostRegisterAccess : Prop :=
  ∀ (s : State) (k : Nat) (p : Port) (as : List HostAct), Lined .host s → s.ports[k]? = some p →
    (∀ v, s.env.hostq = .write k (.arg v) :: as →
      k ∈ (actionTaken s).env.argSet ∧ step s = .next { actionTaken s with ports := s.ports.set k { p with arg := v } }) ∧
    (∀ w, s.env.hostq = .write k (.cmd w) :: as →
      (actionTaken s).env.argSet = s.env.argSet ∧
      (s.err.fault = 0 → p.busy = false → (w = 0x11 ∨ w = 0x50 → k ∈ s.env.argSet) →
        step s = .next { actionTaken s with ports := s.ports.set k { p with cmd := some w, busy := true } }) ∧
      (p.busy = true ∨ ((w = 0x11 ∨ w = 0x50) ∧ k ∉ s.env.argSet) → enabled .host s = false)) ∧
    (s.env.hostq = .readArg k :: as →
      step s = .next { actionTaken s with env := { (actionTaken s).env with hostRead := p.arg } }) ∧
    (s.env.hostq = .readRes k :: as →
      step s = .next { actionTaken s with env := { (actionTaken s).env with hostRead := p.res } }) ∧
    (s.env.hostq = .readRstat k :: as →
      step s = .next { actionTaken s with env := { (actionTaken s).env with hostRead := p.rstat.setWidth 32 } })

/-- The transmitter's shift (R246): one code from the head of `TXMEM` to the end of `WIRE`, and the two pending bits. -/
def Obligations.HwtxShifts : Prop :=
  ∀ (s : State) (c : Word) (rest : List Word), Lined .hwtx s → s.err.fault = 0 → s.hw.txEn = true → s.hw.txmem = c :: rest →
    step s = .next { scheduled s with hw := { s.hw with
      txmem := rest
      wire := s.hw.wire ++ [c]
      thrPend := if rest.length < s.params.watermark then true else s.hw.thrPend
      donePend := if rest = [] then true else s.hw.donePend } }

/-! ### Reset and faults -/

/-- The state after reset, item by item (R55), and the registry (R361), under every parameter set and launch environment, which
are arguments (R322, R370); `State.reset` is this state for one of them (log 2, log 1). -/
def Obligations.ResetState : Prop :=
  (∃ (p : Params) (e : Env), State.reset = State.resetWith p e) ∧
  ∀ (p : Params) (e : Env),
  let s := State.resetWith p e
  s.params = p ∧ s.env = e ∧ s.ports.length = p.hostPorts ∧ s.registry = [] ∧
  (∀ p ∈ s.ports, p.arg = 0 ∧ p.res = 0 ∧ p.rstat = 0 ∧ p.busy = false ∧ p.bgw = false) ∧
  s.cfg = { cfg0 := 0, cfg1 := 0, cfg2 := 0, cfg3 := 0 } ∧ (∀ b, (s.tbl.get b).valid = false) ∧ s.tblOk = false ∧
  s.chState = .reset ∧ s.orchPhase = .idle ∧ s.drvState = .idle ∧ s.ring.widx = 0 ∧ s.ring.ridx = 0 ∧ s.ring.used = 0 ∧
  s.hasData = false ∧ s.paused = false ∧ s.cnt = { entries := 0, fills := 0, overruns := 0, timeouts := 0, txErrs := 0 } ∧
  s.err.restartReq = false ∧ s.err.lastErr = 0 ∧ s.err.fault = 0 ∧ s.notify = false ∧ s.thrIe = false ∧ s.doneIe = false ∧
  s.hw.txmem = [] ∧ s.hw.txEn = false ∧ s.hw.thrPend = false ∧ s.hw.donePend = false ∧ s.hw.configured = false ∧
  s.hw.wire = [] ∧ s.err.log = [] ∧ s.cq.n = 0 ∧ s.cq.port = 0 ∧ s.cq.phase = .idle

/-- After reset, whatever the parameters and the environment, no agent but the HOST may step (R371); with nothing for the HOST to
do the machine stays as it is (that it stays rather than stops is log 10). -/
def Obligations.AfterResetOnlyHostSteps : Prop :=
  (∀ (p : Params) (e : Env) (a : Agent), enabled a (State.resetWith p e) = true → a = .host) ∧
  (∀ (p : Params) (e : Env), paramsOk p = true → e.hostq = [] →
    step (State.resetWith p e) = .next (State.resetWith p e))

/-- A restart of the owning process takes every item to its reset value, faulted or halted as the channel may be (R370). That the restart
is an action of the HOST, and keeps the environment and the parameters, is log 12. -/
def Obligations.RestartResets : Prop :=
  ∀ (s : State) (as : List HostAct), Lined .host s → s.env.hostq = .restart :: as →
    step s = .next (State.resetWith s.params (actionTaken s).env)

/-- What each fault kind writes (R333, R337): its `FAULT` bit, its code and one log record, and nothing else. A faulted channel
takes no further step but the HOST's (R333): whatever steps, other than a restart, changes the environment and a port's `ARG` at
most, and with nothing left for the HOST to do the machine is stuck (that it stops there rather than waits is log 9). -/
def Obligations.FaultStopsChannel : Prop :=
  (∀ (i : Word) (s : State),
    raiseFault .overrun i s = faulted 0x01 4 i s ∧ raiseFault .underflow i s = faulted 0x02 6 i s ∧
    raiseFault .illegalReset i s = faulted 0x04 7 i s ∧ raiseFault .notConfigured i s = faulted 0x08 8 i s ∧
    raiseFault .illegalCommand i s = faulted 0x10 9 i s ∧ raiseFault .reconfigureLive i s = faulted 0x20 10 i s ∧
    raiseFault .untranslated i s = faulted 0x40 11 i s ∧ raiseFault .hwOverflow i s = faulted 0x80 12 i s) ∧
  (∀ s t : State, s.err.fault ≠ 0 → step s = .next t → (∀ as, s.env.hostq ≠ .restart :: as) →
    t = { s with ports := t.ports, env := t.env } ∧
    ∀ k, portOf t k = { portOf s k with arg := (portOf t k).arg }) ∧
  (∀ s : State, s.err.fault ≠ 0 → paramsOk s.params = true → s.env.hostq = [] → step s = .fault (.channelStuck s.err.fault))

/-! ### Channel states -/

/-- In HALTED every host command but `STATUS` does nothing and answers `REJ_HALTED`; `STATUS` is served; and only a failed
`CH.INIT` and `CH.TEARDOWN` halt a channel (R287). -/
def Obligations.HaltedRefuses : Prop :=
  (∀ (i : Instr) (s : State), s.chState = .halted → i.hostIssued = true → (∀ n, i ≠ .status n) →
    exec i s = .next (replied s.seq.cur 0x05 0 s)) ∧
  (∀ (n : BitVec 3) (s : State), s.chState = .halted → exec (.status n) s = .next (replied s.seq.cur 0x00 (snapWord n s) s)) ∧
  (∀ (i : Instr) (s t : State), exec i s = .next t → t.chState = .halted →
    s.chState = .halted ∨ (i = .chInit ∧ t.err.lastErr = 1) ∨ i = .chTeardown)

/-- Which commands are legal before `CH.INIT` (R373): every other one faults `F_NOT_CONFIGURED`. -/
def Obligations.ResetRefuses : Prop :=
  ∀ s : State, s.chState = .reset →
    (∃ t, exec .chInit s = .next t ∧ t.err.fault = s.err.fault ∧ t.chState ≠ .reset) ∧
    (∀ n, exec (.status n) s = .next (replied s.seq.cur 0x00 (snapWord n s) s)) ∧ (snapWord 0 s).extractLsb' 5 2 = 0 ∧
    exec .xlatVal s = .next (faulted 0x08 8 0x11 s) ∧
    (∀ b : BitVec 3, b ≠ 7 → exec (.xlatLkp b) s = .next (faulted 0x08 8 (b.setWidth 32) s)) ∧
    exec .ringAvf s = .next (faulted 0x08 8 0x22 s) ∧ exec .ringAvd s = .next (faulted 0x08 8 0x23 s) ∧
    exec .bgWait s = .next (faulted 0x08 8 0x40 s) ∧ exec .frameStart s = .next (faulted 0x08 8 0x51 s) ∧
    (∀ p, exec (.pause p) s = .next (faulted 0x08 8 0x52 s)) ∧ exec .chTeardown s = .next (faulted 0x08 8 0x54 s)

/-! ### Translation table -/

/-- The required symbol set (R151). -/
def Obligations.RequiredSymbols : Prop :=
  ∀ (c : Cfg) (b : BitSymbol), b ∈ c.required ↔
    match b with
    | .zero => True
    | .one => True
    | .start => False
    | .stop => c.stopEn = true
    | .ifg => 0 < c.idleBits
    | .frameStart => 0 < c.startBits
    | .eof => c.eofEn = true

/-- `XLAT.CFG h` (R150, R152): the listed records are installed, the last record of a symbol winning; the answer is 0 for SUCCESS,
1 and the info for FAIL; `TBL_OK` is set on success only. The answer latch is the model's (log 6). -/
def Obligations.XlatCfgInstalls : Prop :=
  (∀ s : State, findTable s s.seq.opnd = none →
    exec .xlatCfg s = .next { s with seq := { s.seq with answer := [1, 0x00000000] } }) ∧
  (∀ (s : State) (ws : List Word), findTable s s.seq.opnd = some ws →
    ∃ t : State, exec .xlatCfg s = .next t ∧
      t = { s with tbl := t.tbl, tblOk := t.tblOk, seq := { s.seq with answer := t.seq.answer } } ∧
      (∀ b, t.tbl.get b =
        match lastRecord s.seq.opnd ws (listedCount s.seq.opnd ws s.params.maxTableEntries) b with
        | some j => { valid := true, code := recordCode s.seq.opnd ws j }
        | none => s.tbl.get b) ∧
      (let n := listedCount s.seq.opnd ws s.params.maxTableEntries
       if n = s.params.maxTableEntries then t.seq.answer = [1, 0x00000001] ∧ t.tblOk = s.tblOk
       else if (recordTag s.seq.opnd ws n).toNat ≠ 7 then
         t.seq.answer = [1, BitVec.ofNat 32 (2 + 0x100 * (recordTag s.seq.opnd ws n).toNat)] ∧ t.tblOk = s.tblOk
       else
         (t.seq.answer = [0] ∧ t.tblOk = true ∧ ∀ b ∈ s.cfg.required, (t.tbl.get b).valid = true) ∨
         (t.tblOk = s.tblOk ∧ ∃ b ∈ s.cfg.required, (t.tbl.get b).valid = false ∧
           t.seq.answer = [1, BitVec.ofNat 32 (3 + 0x100 * b.tag.toNat)] ∧
           ∀ c ∈ s.cfg.required, c.tag < b.tag → (t.tbl.get c).valid = true)))

/-- `XLAT.VAL h` (R155, R156): one log record for each record that disagrees with the table, `RSTAT` 0x50 if there is one, and a
draw in `RES` (its form is log 3); nothing but `LOG`, `LAST_ERR` and the port is written. That the info word keeps the low 24
bits of a record index that does not fit is log 29. -/
def Obligations.XlatValLogs : Prop :=
  ∀ s : State, s.chState = .ready →
    (findTable s (portOf s s.seq.cur).arg = none →
      exec .xlatVal s = .next (replied s.seq.cur 0x50 (drawWord s).1 (recorded 5 0x000000FF (drawWord s).2))) ∧
    (∀ ws, findTable s (portOf s s.seq.cur).arg = some ws →
      let js := mismatches s.tbl (portOf s s.seq.cur).arg ws s.params.maxTableEntries
      exec .xlatVal s = .next (replied s.seq.cur (if js.isEmpty then 0x00 else 0x50) (drawWord s).1
        (mismatchesLogged (portOf s s.seq.cur).arg ws js (drawWord s).2)))

/-- Right after a successful install of a list, a self-check of the same list would log exactly the records whose code differs
from that of the last record of their tag (R157, R152). The latches for operand and answer are the model's (log 6). -/
def Obligations.SelfCheckLogsOverridden : Prop :=
  ∀ (s t : State) (ws : List Word), exec .xlatCfg s = .next t → t.seq.answer = [0] → findTable s s.seq.opnd = some ws →
    let h := s.seq.opnd
    let n := listedCount h ws s.params.maxTableEntries
    ∀ j, j ∈ mismatches t.tbl h ws s.params.maxTableEntries ↔
      j < n ∧ ∃ j', j < j' ∧ j' < n ∧ recordTag h ws j' = recordTag h ws j ∧ recordCode h ws j' ≠ recordCode h ws j ∧
        ∀ i, j' < i → i < n → recordTag h ws i ≠ recordTag h ws j

/-- `XLAT.LKP s` (R158), its four outcomes in the order of the checks. -/
def Obligations.XlatLkpReads : Prop :=
  ∀ (b : BitSymbol) (k : BitVec 3) (s : State), k.toNat = b.tag.toNat →
    exec (.xlatLkp k) s =
      if s.chState = .halted then .next (replied s.seq.cur 0x05 0 s)
      else if s.chState = .reset ∨ s.tblOk = false then .next (faulted 0x08 8 (k.setWidth 32) s)
      else if (s.tbl.get b).valid = false then .next (faulted 0x40 11 (k.setWidth 32) s)
      else .next (replied s.seq.cur 0x00 (s.tbl.get b).code s)

/-! ### Ring -/

/-- `RING.AVF` and `RING.AVD` (R174, R175). That `RES` holds the low 32 bits of a count that does not fit is the model's choice
(log 29). -/
def Obligations.RingCountsReported : Prop :=
  ∀ s : State,
    (s.chState = .reset → exec .ringAvf s = .next (faulted 0x08 8 0x22 s) ∧ exec .ringAvd s = .next (faulted 0x08 8 0x23 s)) ∧
    (s.chState = .halted → exec .ringAvf s = .next (replied s.seq.cur 0x05 0 s) ∧
      exec .ringAvd s = .next (replied s.seq.cur 0x05 0 s)) ∧
    (s.chState = .ready →
      exec .ringAvf s = .next (replied s.seq.cur 0x00 (BitVec.ofNat 32 (s.params.ringCap - s.ring.used)) s) ∧
      exec .ringAvd s = .next (replied s.seq.cur 0x00 (BitVec.ofNat 32 s.ring.used) s))

/-- `RING.WR code` (R170), its operand in the model's latch (log 6): the code goes to `SLOT[WIDX]`, every other slot reads as
before; on a full ring the overrun is counted and faults (the low 32 bits of an info that does not fit: log 29). -/
def Obligations.RingWrWrites : Prop :=
  ∀ s : State,
    (s.ring.used = s.params.ringCap → exec .ringWr s = .next (faulted 0x01 4 (BitVec.ofNat 32 s.ring.widx)
      { s with cnt := { s.cnt with overruns := s.cnt.overruns + 1 } })) ∧
    (s.ring.used ≠ s.params.ringCap → ∃ t, exec .ringWr s = .next t ∧ t = { s with ring := t.ring } ∧
      t.ring.widx = (s.ring.widx + 1) % s.params.ringCap ∧ t.ring.used = s.ring.used + 1 ∧ t.ring.ridx = s.ring.ridx ∧
      (s.ring.widx < s.params.ringCap → slotWord t s.ring.widx = s.seq.opnd) ∧
      ∀ i, i % s.params.ringCap ≠ s.ring.widx → slotWord t i = slotWord s i)

/-- `RING.RST` (R172): the indices and the count are zeroed and no slot changes; mid-transmission it faults (the low 32 bits
of an info that does not fit: log 29). -/
def Obligations.RingRstEmpties : Prop :=
  ∀ s : State,
    (s.drvState = .active → exec .ringRst s = .next (faulted 0x04 7 (BitVec.ofNat 32 s.ring.used) s)) ∧
    (s.drvState = .idle → ∃ t, exec .ringRst s = .next t ∧ t = { s with ring := t.ring } ∧
      t.ring.widx = 0 ∧ t.ring.ridx = 0 ∧ t.ring.used = 0 ∧ ∀ i, slotWord t i = slotWord s i)

/-- `RING.PEEK k` (R176): the k-th oldest staged code, nothing consumed; at or past `USED` it faults. The answer latch is the
model's (log 6). -/
def Obligations.RingPeekReads : Prop :=
  ∀ (s : State) (k : BitVec 16),
    (s.ring.used ≤ k.toNat → exec (.ringPeek k) s = .next (faulted 0x02 6 (k.setWidth 32) s)) ∧
    (k.toNat < s.ring.used → ∃ c, (ringCodes s)[k.toNat]? = some c ∧ c = slotWord s (s.ring.ridx + k.toNat) ∧
      exec (.ringPeek k) s = .next { s with seq := { s.seq with answer := [c] } })

/-- `RING.ADV n` (R177): the n oldest staged codes are consumed, no slot changes; past `USED` it faults. -/
def Obligations.RingAdvConsumes : Prop :=
  ∀ (s : State) (n : BitVec 16),
    (s.ring.used < n.toNat → exec (.ringAdv n) s = .next (faulted 0x02 6 (n.setWidth 32) s)) ∧
    (n.toNat ≤ s.ring.used → ∃ t, exec (.ringAdv n) s = .next t ∧ t = { s with ring := t.ring } ∧
      t.ring.ridx = (s.ring.ridx + n.toNat) % s.params.ringCap ∧ t.ring.used = s.ring.used - n.toNat ∧
      t.ring.widx = s.ring.widx ∧ ringCodes t = (ringCodes s).drop n.toNat ∧ ∀ i, slotWord t i = slotWord s i)

/-- The ring is first-in first-out across every wrap-around (R179): in any sequence of operations within the capacity, what the
consumer read and what is still staged are what was staged and what the producer wrote, in order. Operations run by themselves,
their operands and answers in the model's latches (log 6). -/
def Obligations.RingIsFifo : Prop :=
  ∀ (s t : State) (ops : List RingOp) (out : List Word), RingInv s → ringRun ops s = some (out, t) →
    out ++ ringCodes t = ringCodes s ++ RingOp.puts ops

/-! ### Encoder -/

/-- `ENC.FILL` on a configured channel with the ring property (R201, R203 to R207): it completes without a fault, counts one
fill, appends whole values with their trailers in the slots from `WIDX` on, changes no other slot, and goes on while there is
room and data. -/
def Obligations.EncFillCompletes : Prop :=
  ∀ s : State, RingInv s → Configured s → TableComplete s →
    ∃ (t : State) (vs : List (Word × Bool)), exec .encFill s = .next t ∧
      t = { s with
        ring := t.ring, hasData := t.hasData, env := t.env, cnt := { s.cnt with fills := s.cnt.fills + 1 } } ∧
      ringCodes t = ringCodes s ++ vs.flatMap (fun v => valueCodes s v.1 ++ trailerCodes s v.2) ∧
      RingInv t ∧ t.ring.ridx = s.ring.ridx ∧ s.ring.used ≤ t.ring.used ∧
      (∀ i, (∀ j, j < t.ring.used - s.ring.used → i % s.params.ringCap ≠ (s.ring.widx + j) % s.params.ringCap) →
        slotWord t i = slotWord s i) ∧
      (t.hasData = true → t.params.ringCap - t.ring.used ≤ s.cfg.slotsPerValue ∧ 1 ≤ t.ring.used) ∧
      (s.hasData = false → t = { s with cnt := { s.cnt with fills := s.cnt.fills + 1 } })

/-- `ENC.FILL` under a list source (R202, R208, R304): it writes the codes of the next k values, in order, the trailer of the
list's last value being `EOF` where that is enabled; it stops for want of room or of values. -/
def Obligations.EncFillWritesListValues : Prop :=
  ∀ (s : State) (all vs : List Word), RingInv s → Configured s → TableComplete s →
    findSource s s.cfg.srcHandle = some (.list all vs) → s.hasData = !vs.isEmpty →
    ∃ (t : State) (k : Nat), exec .encFill s = .next t ∧ k ≤ vs.length ∧
      ringCodes t = ringCodes s ++ encodedValues s (decide (k < vs.length)) (vs.take k) ∧
      findSource t t.cfg.srcHandle = some (.list all (vs.drop k)) ∧ t.hasData = decide (k < vs.length) ∧
      (k = vs.length ∨ s.params.ringCap - t.ring.used ≤ s.cfg.slotsPerValue) ∧
      (vs ≠ [] → s.cfg.slotsPerValue < s.params.ringCap - s.ring.used → 0 < k)

/-- The W data codes of a value that `ENC.FILL` wrote decode to its low W bits in the declared order, if the codes of `ONE` and
`ZERO` differ (R210, R160). -/
def Obligations.EncodedValueDecodes : Prop :=
  ∀ (s : State) (all vs : List Word) (v : Word), RingInv s → Configured s → TableComplete s →
    findSource s s.cfg.srcHandle = some (.list all (v :: vs)) → s.hasData = true →
    s.cfg.slotsPerValue < s.params.ringCap - s.ring.used → s.tbl.one.code ≠ s.tbl.zero.code →
    ∃ t : State, exec .encFill s = .next t ∧
      ∀ j, j < s.cfg.width →
        let i := if s.cfg.lsbFirst then j else s.cfg.width - 1 - j
        ((ringCodes t)[s.ring.used + j]? = some s.tbl.one.code ↔ v.getLsbD i = true) ∧
        ((ringCodes t)[s.ring.used + j]? = some s.tbl.zero.code ↔ v.getLsbD i = false)

/-! ### Driver, interrupt-driven -/

/-- `DRV.SERVICE` (R225, R226, R229): n = min(P_MAX_CHUNK, USED, free space) codes move to `TXMEM` in ring order and are counted,
`RIDX` advances over them, then `ENC.FILL` runs on that state, and an empty ring with no data left ends the frame. -/
def Obligations.DrvServiceMovesChunk : Prop :=
  ∀ s : State, RingInv s → Configured s → TableComplete s → s.hw.txmem.length ≤ s.params.hwDepth →
    let n := min (min s.params.maxChunk s.ring.used) (s.params.hwDepth - s.hw.txmem.length)
    ∃ u v : State,
      u = { s with
        hw := { s.hw with txmem := s.hw.txmem ++ (ringCodes s).take n }
        ring := u.ring
        cnt := { s.cnt with entries := s.cnt.entries + BitVec.ofNat 32 n } } ∧
      ringCodes u = (ringCodes s).drop n ∧ u.ring.ridx = (s.ring.ridx + n) % s.params.ringCap ∧
      u.ring.widx = s.ring.widx ∧ u.ring.used = s.ring.used - n ∧ RingInv u ∧
      (∀ i, slotWord u i = slotWord s i) ∧
      exec .encFill u = .next v ∧
      exec .drvService s = .next
        (if v.ring.used = 0 ∧ v.hasData = false then
          { v with notify := true, thrIe := false, doneIe := false, drvState := .idle, orchPhase := .idle }
        else v)

/-- The `EV.THR` handler (R231, R342, R343): it clears its pending bit and runs `DRV.SERVICE`; it saves and restores nothing. -/
def Obligations.EvThrServices : Prop :=
  ∀ s : State, RingInv s → Configured s → TableComplete s → s.hw.txmem.length ≤ s.params.hwDepth →
    ∃ t : State, exec .drvService { s with hw := { s.hw with thrPend := false } } = .next t ∧ exec .evThr s = .next t ∧
      t.err = s.err ∧ t.hw.wire = s.hw.wire ∧ t.hw.thrPend = false ∧ t.hw.txmem.length ≤ t.params.hwDepth

/-- The `EV.TXDONE` handler (R235, R336): an underrun is logged, the notification given, the events masked, the transmitter
disabled and the frame ended. The trace of calls is the model's (log 23), as are the low 32 bits of a `USED` that does not fit
(log 29). -/
def Obligations.EvTxdoneEndsFrame : Prop :=
  ∀ s : State, exec .evTxdone s = .next
    (frameEnded (recorded 13 (BitVec.ofNat 32 s.ring.used) (called 0x14 []
      { s with notify := true, thrIe := false, doneIe := false, hw := hwDisabled s.hw })))

/-- On a channel whose invariant holds, the interrupt path loses, reorders and changes no code (R179, R227, R255): a shift moves
the head of `TXMEM` to the wire, a handler step moves codes from the ring to `TXMEM`, and what the encoder writes goes behind
them. -/
def Obligations.InterruptPathKeepsOrder : Prop :=
  ∀ s : State, Inv s → s.err.fault = 0 → s.drvState = .active → s.cfg.strategy = .intr →
    (intrStream (hwtxShift s) = intrStream s) ∧
    (∃ (t : State) (vs : List (Word × Bool)), exec .evThr s = .next t ∧ t.hw.wire = s.hw.wire ∧ t.err = s.err ∧
      intrStream t = intrStream s ++ vs.flatMap (fun v => valueCodes s v.1 ++ trailerCodes s v.2))

/-! ### Driver, completion-queue -/

/-- The `CQ_SEND` step (R240 to R242, R245): a drained frame completes its `FRAME.START` with OK; else a chunk of
min(P_MAX_CHUNK, USED) codes is copied and handed over, none consumed, and either queued to be awaited, or rejected with some
prefix of it on the wire, which aborts the frame with TransmitError. That the queue is `TXMEM`, by R311 and against R82, is log 34. -/
def Obligations.CqSendHandsOver : Prop :=
  ∀ s : State, s.cq.phase = .send →
    (s.ring.used = 0 → s.hasData = false →
      exec .drvCqstep s = .next (replied s.cq.port 0x00 0 (frameEnded { s with cq := { s.cq with phase := .idle, n := 0 } }))) ∧
    (¬ (s.ring.used = 0 ∧ s.hasData = false) →
      let n := min s.params.maxChunk s.ring.used
      let chunk := (ringCodes s).take n
      ∃ t : State, exec .drvCqstep s = .next t ∧
        (∀ j, j < n → (some (scratchWord t j) = chunk[j]?)) ∧ (∀ j, n ≤ j → scratchWord t j = scratchWord s j) ∧
        (t = { s with
            cq := { s.cq with scratch := t.cq.scratch, n := n, phase := .await }
            hw := { s.hw with txmem := s.hw.txmem ++ chunk, txEn := true }
            env := t.env } ∨
          ∃ p, p ≤ n ∧ t = replied s.cq.port 0x23 0 (frameEnded (recorded 2 (BitVec.ofNat 32 n) { s with
            cq := { s.cq with scratch := t.cq.scratch, n := 0, phase := .idle }
            hw := { s.hw with wire := s.hw.wire ++ chunk.take p }
            cnt := { s.cnt with txErrs := s.cnt.txErrs + 1 }
            env := t.env }))))

/-- The `CQ_AWAIT` step (R240, R243, R244, R253): on a confirmed chunk, possible only with `TXMEM` empty, the chunk is consumed and
counted and `ENC.FILL` runs; else the frame is aborted with TimeoutError and `TXMEM` is emptied. Which of the two is a draw, and
with codes left the step is the timeout (log 20). -/
def Obligations.CqAwaitConfirmsOrTimesOut : Prop :=
  ∀ s : State, RingInv s → Configured s → TableComplete s → s.cq.phase = .await → s.cq.n ≤ s.ring.used →
    ∃ t : State, exec .drvCqstep s = .next t ∧
      ((s.hw.txmem = [] ∧ ∃ u v : State,
          u = { s with
            ring := u.ring
            cnt := { s.cnt with entries := s.cnt.entries + BitVec.ofNat 32 s.cq.n }
            cq := { s.cq with n := 0 }
            env := u.env } ∧
          ringCodes u = (ringCodes s).drop s.cq.n ∧ u.ring.ridx = (s.ring.ridx + s.cq.n) % s.params.ringCap ∧
          u.ring.widx = s.ring.widx ∧ u.ring.used = s.ring.used - s.cq.n ∧ RingInv u ∧
          u.env.sources = s.env.sources ∧ u.env.srcDraws = s.env.srcDraws ∧
          (∀ i, slotWord u i = slotWord s i) ∧
          exec .encFill u = .next v ∧ t = { v with cq := { v.cq with phase := .send } }) ∨
        t = replied s.cq.port 0x33 0 (frameEnded (recorded 3 (BitVec.ofNat 32 s.cq.n) { s with
          cq := { s.cq with n := 0, phase := .idle }
          hw := { s.hw with txmem := [] }
          cnt := { s.cnt with timeouts := s.cnt.timeouts + 1 }
          env := t.env })))

/-! ### Frame pacing -/

/-- `BG.WAIT`'s first step (R251). -/
def Obligations.BgWaitStarts : Prop :=
  ∀ s : State,
    exec .bgWait s =
      if s.chState = .reset then .next (faulted 0x08 8 0x40 s)
      else if s.chState = .halted then .next (replied s.seq.cur 0x05 0 s)
      else if s.cfg.strategy = .cq then .next (replied s.seq.cur 0x00 0 s)
      else if s.notify = true then .next (replied s.seq.cur 0x00 0 { s with notify := false })
      else if s.drvState = .idle then .next (replied s.seq.cur 0x00 0 s)
      else .next { s with ports := s.ports.modify s.seq.cur fun p => { p with bgw := true } }

/-- `BG.WAIT`'s later steps, taken by PACER (R251, cases (a) to (d)). That a step is the timeout is log 4, the low 32 bits of
a `USED` that does not fit log 29. -/
def Obligations.PacerEndsWait : Prop :=
  ∀ (s : State) (k : Nat), Lined (.pacer k) s → s.err.fault = 0 → (portOf s k).bgw = true →
    step s = .next
      (if s.chState = .halted then waitEnded k 0x05 (scheduled s)
      else if s.notify = true then waitEnded k 0x00 { scheduled s with notify := false }
      else if s.drvState = .idle then waitEnded k 0x00 (scheduled s)
      else waitEnded k 0x33 (frameEnded (called 0x14 [] (recorded 3 (BitVec.ofNat 32 s.ring.used) { scheduled s with
        cnt := { s.cnt with timeouts := s.cnt.timeouts + 1 }
        thrIe := false, doneIe := false, hw := hwDisabled s.hw }))))

/-! ### External calls -/

/-- The data-source calls (R300 to R302): each completes, changes nothing of the channel but the environment and the answer
latch (log 6), and `SRC.MORE` consumes nothing. -/
def Obligations.SourceCallsComplete : Prop :=
  ∀ s : State,
    (∃ (t : State) (m : Bool), exec .srcMore s = .next t ∧ t = { s with env := t.env, seq := t.seq } ∧
      t.seq = { s.seq with answer := [if m then 1 else 0] } ∧ t.env.sources = s.env.sources) ∧
    (∃ (t : State) (m : Bool) (v : Word), exec .srcNext s = .next t ∧ t = { s with env := t.env, seq := t.seq } ∧
      t.seq = { s.seq with answer := [if m then 1 else 0, v] }) ∧
    (∃ t : State, exec .srcFramestart s = .next t ∧ t = { s with env := t.env })

/-- A list source (R304): `SRC.MORE` answers whether a value is left, `SRC.NEXT` answers and consumes the next value or (0, 0) at
the end, `SRC.FRAMESTART` starts the list over. The answer latch is the model's (log 6). -/
def Obligations.ListSourceAnswers : Prop :=
  ∀ (s : State) (all rest : List Word), findSource s s.cfg.srcHandle = some (.list all rest) →
    (∃ t : State, exec .srcMore s = .next t ∧ t.seq.answer = [if rest = [] then 0 else 1] ∧
      findSource t t.cfg.srcHandle = some (.list all rest)) ∧
    (∃ t : State, exec .srcNext s = .next t ∧
      t.seq.answer = (match rest with | [] => [0, 0] | v :: _ => [1, v]) ∧
      findSource t t.cfg.srcHandle = some (.list all rest.tail)) ∧
    (∃ t : State, exec .srcFramestart s = .next t ∧ findSource t t.cfg.srcHandle = some (.list all all))

/-- `TX.TRANSMIT` (R311) of `SCRATCH[0..CQ_N-1]`: accepted, the codes queue and the transmitter is enabled; rejected, some prefix
of them is on the wire and `TXMEM` is as it was. That the call by itself takes this run, and its answer latch, are log 6; that
the codes queue in `TXMEM`, by R311 and against R82, is log 34. -/
def Obligations.TxTransmitAcceptsOrRejects : Prop :=
  ∀ s : State, ∃ t : State, exec .txTransmit s = .next t ∧
    t = { s with hw := t.hw, env := t.env, seq := { s.seq with answer := t.seq.answer } } ∧
    ((t.seq.answer = [1] ∧ t.hw = { s.hw with txmem := s.hw.txmem ++ scratchRun s s.cq.n, txEn := true }) ∨
      (t.seq.answer = [0] ∧ ∃ p, p ≤ s.cq.n ∧
        t.hw = { s.hw with wire := s.hw.wire ++ (scratchRun s s.cq.n).take p }))

/-- `TX.AWAIT` (R312): success only with `TXMEM` empty and then without effect; failure empties `TXMEM`. That the call by
itself answers failure rather than waits while codes are left is log 20, the answer latch log 6. -/
def Obligations.TxAwaitSucceedsOnlyDrained : Prop :=
  ∀ s : State, ∃ t : State, exec .txAwait s = .next t ∧
    t = { s with hw := t.hw, env := t.env, seq := { s.seq with answer := t.seq.answer } } ∧
    ((t.seq.answer = [1] ∧ s.hw.txmem = [] ∧ t.hw = s.hw) ∨ (t.seq.answer = [0] ∧ t.hw = { s.hw with txmem := [] }))

/-- `TX.CONFIGURE`, `TX.DISABLE` and `TX.TEARDOWN` (R310, R313, R314). That `TX.CONFIGURE` writes the four items R310 states of the
transmitter is log 21; the trace of calls is log 23, the low 32 bits of a `P_HW_DEPTH` that does not fit log 29. -/
def Obligations.TxControlCalls : Prop :=
  ∀ s : State,
    exec .txConfigure s = .next (called 0x11
      [s.params.timingResolution, s.cfg.pin.setWidth 32, BitVec.ofNat 32 s.params.hwDepth]
      { s with hw := { hwDisabled s.hw with configured := true } }) ∧
    exec .txDisable s = .next (called 0x14 [] { s with hw := hwDisabled s.hw }) ∧
    exec .txTeardown s = .next (called 0x15 [] { s with hw := { s.hw with configured := false } })

/-! ### Channel control -/

/-- `CH.INIT`'s refusals and its checks in their order (R270 to R272): the first failing check's info ends it in HALTED, with the
descriptor's words latched. -/
def Obligations.ChInitChecks : Prop :=
  ∀ s : State,
    (s.chState = .ready → exec .chInit s = .next (faulted 0x20 10 (portOf s s.seq.cur).arg s)) ∧
    (s.chState = .halted → exec .chInit s = .next (replied s.seq.cur 0x05 0 s)) ∧
    (s.chState = .reset → findDesc s (portOf s s.seq.cur).arg = none → exec .chInit s = .next (configFailed 0x10 s)) ∧
    (∀ d, s.chState = .reset → findDesc s (portOf s s.seq.cur).arg = some d →
      let u : State := { s with cfg := { cfg0 := d.word0, cfg1 := d.word1, cfg2 := d.word2, cfg3 := d.word3 } }
      let w := d.word0.toNat % 64
      let slots := w + if d.word0.toNat / 128 % 4 ≠ 0 then 1 else 0
      (w = 0 ∨ 32 < w → exec .chInit s = .next (configFailed 0x11 u)) ∧
      (1 ≤ w → w ≤ 32 →
        (d.word0.toNat / 1024 % 64 ≠ 0 → exec .chInit s = .next (configFailed 0x12 u)) ∧
        (d.word0.toNat / 1024 % 64 = 0 →
          (¬ (if d.word0.toNat / 512 % 2 = 0 then s.params.intrSupported = true else s.params.cqSupported = true) →
            exec .chInit s = .next (configFailed 0x13 u)) ∧
          ((if d.word0.toNat / 512 % 2 = 0 then s.params.intrSupported = true else s.params.cqSupported = true) →
            (findSource s d.word2 = none → exec .chInit s = .next (configFailed 0x14 u)) ∧
            (findSource s d.word2 ≠ none →
              (s.params.ringCap ≤ slots → exec .chInit s = .next (configFailed 0x15 u)) ∧
              (slots < s.params.ringCap → s.params.ringCap < d.word1.toNat % 65536 + d.word1.toNat / 65536 →
                exec .chInit s = .next (configFailed 0x16 u)))))))

/-- `CH.INIT` past its checks (R270): it does what `XLAT.CFG` of `TBL_HANDLE` does to the table; a failed install ends in HALTED
with its info; an install of a list that ends in time and has every required symbol succeeds, and then the list is checked
against the table, the transmitter configured, the channel registered and READY. The latches and the trace of calls are the
model's (log 6, log 23), as are the low bits of a record index or a `P_HW_DEPTH` that does not fit (log 29). -/
def Obligations.ChInitConfigures : Prop :=
  ∀ (s u : State) (d : Descriptor), s.chState = .reset → findDesc s (portOf s s.seq.cur).arg = some d →
    u = { s with cfg := { cfg0 := d.word0, cfg1 := d.word1, cfg2 := d.word2, cfg3 := d.word3 } } →
    configCheck u = none →
    ∃ v : State, exec .xlatCfg { u with seq := { u.seq with opnd := d.word3 } } = .next v ∧
      (∀ info, v.seq.answer = [1, info] → exec .chInit s = .next (configFailed info { u with tbl := v.tbl })) ∧
      (∀ ws, findTable s d.word3 = some ws →
        let n := listedCount d.word3 ws s.params.maxTableEntries
        let js := mismatches v.tbl d.word3 ws s.params.maxTableEntries
        n < s.params.maxTableEntries → recordTag d.word3 ws n = 7 →
        (∀ b ∈ u.cfg.required, (s.tbl.get b).valid = true ∨ ∃ j, j < n ∧ recordTag d.word3 ws j = b.tag) →
        v.seq.answer = [0] ∧
        exec .chInit s = .next (replied s.seq.cur (if js.isEmpty then 0x00 else 0x50) 0
          (called 0x11 [s.params.timingResolution, (d.word0.extractLsb' 24 8).setWidth 32, BitVec.ofNat 32 s.params.hwDepth]
            (mismatchesLogged d.word3 ws js { u with
              tbl := v.tbl, tblOk := true, chState := .ready
              hw := { hwDisabled s.hw with configured := true }
              registry := if (d.word0.extractLsb' 16 8, s.params.channel) ∈ s.registry then s.registry
                else s.registry ++ [(d.word0.extractLsb' 16 8, s.params.channel)] }))))

/-- The refusals of `FRAME.START`, in their order (R274, R385). -/
def Obligations.FrameStartRefusals : Prop :=
  ∀ s : State,
    (s.chState = .reset → exec .frameStart s = .next (faulted 0x08 8 0x51 s)) ∧
    (s.chState = .halted → exec .frameStart s = .next (replied s.seq.cur 0x05 0 s)) ∧
    (s.chState = .ready → s.paused = true → exec .frameStart s = .next (replied s.seq.cur 0x01 0 s)) ∧
    (s.chState = .ready → s.paused = false → s.drvState = .active → exec .frameStart s = .next (replied s.seq.cur 0x02 0 s))

/-- An accepted INTR `FRAME.START` (R274, R276 to R278, R228): it completes with OK and no fault. The set-up leaves u, its ring
holding from slot 0 on the framing codes and then whole values; the prime moves the chunk n of R226 to `TXMEM`, counts it and
fills again; each fill goes on while there is room and data (R206). The frame either ended inside the prime, with the
notification given, or is in flight with its events armed and `TXMEM` non-empty (R228). The slots past those written are
unchanged. -/
def Obligations.FrameStartIntr : Prop :=
  ∀ s : State, paramsOk s.params = true → s.ring.slots.wf = true → s.chState = .ready → Configured s → TableComplete s →
    s.paused = false → s.drvState = .idle → s.cfg.strategy = .intr → s.hw.txmem.length ≤ s.params.hwDepth →
    ∃ (u t : State) (vs ws : List (Word × Bool)) (c : Counters),
      c = (if s.params.counterPolicy = .perFrame then
        { entries := 0, fills := 0, overruns := 0, timeouts := 0, txErrs := 0 } else s.cnt) ∧
      RingInv u ∧ u.params = s.params ∧ u.ring.ridx = 0 ∧
      ringCodes u = framingCodes s ++ vs.flatMap (fun v => valueCodes s v.1 ++ trailerCodes s v.2) ∧
      (u.hasData = true → s.params.ringCap - u.ring.used ≤ s.cfg.slotsPerValue) ∧
      (u.hasData = false → t.hasData = false ∧ ws = []) ∧
      let n := min (min s.params.maxChunk u.ring.used) (s.params.hwDepth - s.hw.txmem.length)
      exec .frameStart s = .next t ∧
      t = { s with
        ports := s.ports.modify s.seq.cur fun p => { p with rstat := 0x00, res := 0, busy := false }
        orchPhase := t.orchPhase, drvState := t.drvState, ring := t.ring, hasData := t.hasData
        cnt := { c with entries := c.entries + BitVec.ofNat 32 n, fills := c.fills + 2 }
        notify := t.notify, thrIe := t.thrIe, doneIe := t.doneIe
        hw := { s.hw with
          txmem := s.hw.txmem ++ (ringCodes u).take n, txEn := true
          thrPend := t.hw.thrPend, donePend := t.hw.donePend }
        env := t.env } ∧
      RingInv t ∧ t.hw.txmem.length ≤ s.params.hwDepth ∧ t.ring.ridx = n % s.params.ringCap ∧
      ringCodes t = (ringCodes u).drop n ++ ws.flatMap (fun v => valueCodes s v.1 ++ trailerCodes s v.2) ∧
      (t.hasData = true → s.params.ringCap - t.ring.used ≤ s.cfg.slotsPerValue) ∧
      (∀ i, u.ring.used + (ws.flatMap fun v => valueCodes s v.1 ++ trailerCodes s v.2).length ≤ i % s.params.ringCap →
        slotWord t i = slotWord s i) ∧
      ((t.ring.used = 0 ∧ t.hasData = false ∧ t.drvState = .idle ∧ t.orchPhase = .idle ∧ t.notify = true ∧
          t.thrIe = false ∧ t.doneIe = false ∧ t.hw.thrPend = s.hw.thrPend ∧ t.hw.donePend = s.hw.donePend) ∨
        (0 < t.ring.used ∧ t.drvState = .active ∧ t.orchPhase = .streaming ∧ t.notify = false ∧ t.hw.txmem ≠ [] ∧
          t.thrIe = true ∧ t.doneIe = true ∧ t.hw.thrPend = false ∧ t.hw.donePend = false))

/-- An accepted CQ `FRAME.START` (R274, R276 to R278): no fault, the port stays busy and is `CQ_PORT`, the loop starts at
`CQ_SEND`, and the ring holds, from slot 0 on, the framing codes and then whole values, data being left only if no further
value fits (R206); no slot past them changes; the counters start over under PER_FRAME. -/
def Obligations.FrameStartCq : Prop :=
  ∀ s : State, s.ring.slots.wf = true → s.chState = .ready → Configured s → TableComplete s →
    s.paused = false → s.drvState = .idle → s.cfg.strategy = .cq →
    ∃ (t : State) (vs : List (Word × Bool)) (c : Counters), exec .frameStart s = .next t ∧
      c = (if s.params.counterPolicy = .perFrame then
        { entries := 0, fills := 0, overruns := 0, timeouts := 0, txErrs := 0 } else s.cnt) ∧
      t = { s with
        orchPhase := .streaming, drvState := .active, notify := false
        cq := { s.cq with port := s.seq.cur, phase := .send }
        cnt := { c with fills := c.fills + 1 }
        ring := t.ring, hasData := t.hasData, env := t.env } ∧
      RingInv t ∧ t.ring.ridx = 0 ∧
      ringCodes t = framingCodes s ++ vs.flatMap (fun v => valueCodes s v.1 ++ trailerCodes s v.2) ∧
      (t.hasData = true → s.params.ringCap - t.ring.used ≤ s.cfg.slotsPerValue) ∧
      (∀ i, t.ring.used ≤ i % s.params.ringCap → slotWord t i = slotWord s i) ∧
      (t.ring.used = 0 → t.hasData = false)

/-- A CQ frame of a list source (R277 to R279, R304): the ring holds the framing, then the codes of the list's first k values,
all of them or as many as fit (R206); with an empty list, the framing alone. -/
def Obligations.FrameOfListSource : Prop :=
  ∀ (s : State) (all rest : List Word), s.ring.slots.wf = true → s.chState = .ready → Configured s → TableComplete s →
    s.paused = false → s.drvState = .idle → s.cfg.strategy = .cq → findSource s s.cfg.srcHandle = some (.list all rest) →
    ∃ (t : State) (k : Nat), exec .frameStart s = .next t ∧ k ≤ all.length ∧
      ringCodes t = framingCodes s ++ encodedValues s (decide (k < all.length)) (all.take k) ∧
      findSource t t.cfg.srcHandle = some (.list all (all.drop k)) ∧ t.hasData = decide (k < all.length) ∧
      (k = all.length ∨ s.params.ringCap - t.ring.used ≤ s.cfg.slotsPerValue) ∧
      (all = [] → ringCodes t = framingCodes s)

/-- `PAUSE p` (R281): writes `PAUSED` and the port only. -/
def Obligations.PauseWritesFlag : Prop :=
  ∀ (p : Bool) (s : State),
    exec (.pause p) s =
      match s.chState with
      | .reset => .next (faulted 0x08 8 0x52 s)
      | .halted => .next (replied s.seq.cur 0x05 0 s)
      | .ready => .next (replied s.seq.cur 0x00 0 { s with paused := p })

/-- `STATUS i` (R284, R126): one snapshot word, in every channel state; the fields of word 0 bit by bit. That word 7
holds the low 32 bits of a `USED` that does not fit is the model's choice (log 29). -/
def Obligations.StatusReadsSnapshot : Prop :=
  ∀ (i : BitVec 3) (s : State), ∃ w : Word, exec (.status i) s = .next (replied s.seq.cur 0x00 w s) ∧
    (i = 0 →
      w.getLsbD 0 = decide (s.cfg.strategy = .cq) ∧ w.getLsbD 1 = s.paused ∧
      (w.extractLsb' 2 2).toNat = (if s.paused = true ∧ s.drvState = .idle then 3 else
        match s.orchPhase with | .idle => 0 | .framingEmit => 1 | .streaming => 2) ∧
      w.getLsbD 4 = decide (s.drvState = .active) ∧
      (w.extractLsb' 5 2).toNat = (match s.chState with | .reset => 0 | .ready => 1 | .halted => 2) ∧
      w.getLsbD 7 = s.err.restartReq ∧ w.extractLsb' 8 4 = s.err.lastErr ∧ w.getLsbD 12 = s.hasData ∧
      w.getLsbD 13 = s.notify ∧ w.extractLsb' 14 2 = 0 ∧ w.extractLsb' 16 8 = s.cfg.cfg0.extractLsb' 16 8 ∧
      w.extractLsb' 24 8 = 0) ∧
    (i = 1 → w = s.cnt.entries) ∧ (i = 2 → w = s.cnt.fills) ∧ (i = 3 → w = s.cnt.overruns) ∧
    (i = 4 → w = s.cnt.timeouts) ∧ (i = 5 → w = s.cnt.txErrs) ∧ (i = 6 → w = s.err.fault.setWidth 32) ∧
    (i = 7 → w = BitVec.ofNat 32 s.ring.used)

/-- `CH.TEARDOWN` on a READY channel (R286): the transmitter is disabled and torn down, a blocked CQ `FRAME.START` is ended with
`REJ_HALTED`, the frame is cut off, the channel deregistered and HALTED, a restart requested. The trace of calls is the
model's (log 23). -/
def Obligations.ChTeardownHalts : Prop :=
  ∀ s : State, s.chState = .ready →
    exec .chTeardown s = .next (replied s.seq.cur 0x00 0 (called 0x15 [] (called 0x14 [] (frameEnded { s with
      ports := if s.cq.phase = .idle then s.ports
        else s.ports.modify s.cq.port fun p => { p with rstat := 0x05, res := 0, busy := false }
      cq := if s.cq.phase = .idle then s.cq else { s.cq with phase := .idle, n := 0 }
      thrIe := false, doneIe := false
      hw := { hwDisabled s.hw with configured := false }
      registry := s.registry.filter fun e => e ≠ (s.cfg.channelId, s.params.channel)
      chState := .halted
      err := { s.err with restartReq := true } }))))

/-! ### The whole machine -/

/-- Who writes what (R36, R37, R43, R45, R361), over all instructions and all states. -/
def Obligations.OnlyTheseWrite : Prop :=
  ∀ (i : Instr) (s t : State), exec i s = .next t →
    t.params = s.params ∧
    (t.paused ≠ s.paused → ∃ p, i = .pause p) ∧
    (t.cfg ≠ s.cfg → i = .chInit ∧ s.chState = .reset) ∧
    (t.tbl ≠ s.tbl ∨ t.tblOk ≠ s.tblOk → i = .xlatCfg ∨ (i = .chInit ∧ s.chState = .reset)) ∧
    (t.chState ≠ s.chState ∨ t.err.restartReq ≠ s.err.restartReq ∨ t.registry ≠ s.registry →
      (i = .chInit ∧ s.chState = .reset) ∨ (i = .chTeardown ∧ s.chState = .ready))

/-- The wire trace, the log and the sticky faults only grow (R47, R50, R52), over all steps but a restart. -/
def Obligations.TracesOnlyGrow : Prop :=
  ∀ s t : State, step s = .next t → (∀ as, s.env.hostq ≠ .restart :: as) →
    s.hw.wire <+: t.hw.wire ∧ s.err.log <+: t.err.log ∧ s.err.fault &&& t.err.fault = s.err.fault

/-- The invariant holds at reset. -/
def Obligations.InvAtReset : Prop := Inv State.reset ∧ Safe State.reset

/-- Every step keeps the ring property (R56 items 1 and 2, R180), in every state that has it, faults included. -/
def Obligations.StepKeepsRing : Prop :=
  ∀ s t : State, RingInv s → step s = .next t → RingInv t

/-- Every step keeps the invariant: R56, with what makes it inductive. -/
def Obligations.StepKeepsInvariant : Prop :=
  ∀ s t : State, Inv s → step s = .next t → Inv t

/-- `F_OVERRUN`, `F_UNDERFLOW`, `F_ILLEGAL_RESET` and `F_HW_OVERFLOW` are unreachable (R337, R204): no step of a channel whose
invariant holds raises one. -/
def Obligations.InternalFaultsUnreachable : Prop :=
  ∀ s t : State, Inv s → Safe s → step s = .next t → Safe t

/-- No frame in flight is without an agent that may step (R232): under INTR the transmitter or the handler, under CQ the loop. -/
def Obligations.ActiveFrameCanStep : Prop :=
  ∀ s : State, Inv s → s.err.fault = 0 → s.drvState = .active →
    (s.cfg.strategy = .intr → enabled .hwtx s = true ∨ enabled .isr s = true) ∧
    (s.cfg.strategy = .cq → enabled .cqdrv s = true)

/-- The fields and the boundary bytes of a PulseCode (R120, R84): a code is its four fields, and its bytes in little-endian order. -/
def Obligations.PulseCodeFields : Prop :=
  ∀ c : Word,
    pulseCode (pulseLvl1 c) (pulseDur1 c) (pulseLvl0 c) (pulseDur0 c) = c ∧
    (∀ l1 d1 l0 d0, pulseDur0 (pulseCode l1 d1 l0 d0) = d0 ∧ pulseLvl0 (pulseCode l1 d1 l0 d0) = l0 ∧
      pulseDur1 (pulseCode l1 d1 l0 d0) = d1 ∧ pulseLvl1 (pulseCode l1 d1 l0 d0) = l1) ∧
    (pulseBytes c).length = 4 ∧
    ∀ k, k < 4 → (pulseBytes c)[k]? = some (BitVec.ofNat 8 (c.toNat / 256 ^ k))
end

