-- ==== Sys2Proof/Laws/Decode.lean ====
section
/-! SUPPORT. Which command words decode to what, for the host commands that take their operand from `ARG`. -/

namespace Sys2Proof

/-- A command word is its three fields (R110, R132). -/
theorem commandWord_fields (w : Word) : commandWord (fieldImm w) (fieldSub w) (fieldOpc w) = w := by
  apply BitVec.eq_of_toNat_eq
  have := w.isLt
  simp only [commandWord, fieldImm, fieldSub, fieldOpc, BitVec.toNat_append, BitVec.extractLsb'_toNat, Nat.shiftRight_eq_div_pow]
  rw [← Nat.shiftLeft_add_eq_or_of_lt (by omega), ← Nat.shiftLeft_add_eq_or_of_lt (by omega)]
  simp only [Nat.shiftLeft_eq]
  omega

/-- A conditional answers by its first arm, under its condition, or by its second. -/
theorem ite_eq_some_cases {α : Type} {c : Prop} [Decidable c] {x y : Option α} {i : α} (h : (if c then x else y) = some i) :
    (c ∧ x = some i) ∨ y = some i := by
  by_cases hc : c
  · rw [if_pos hc] at h; exact .inl ⟨hc, h⟩
  · rw [if_neg hc] at h; exact .inr h

/-- An operation with no operand fields decodes with both fields 0 (R113, R114). -/
theorem plainCommand_some {s : BitVec 8} {m : BitVec 16} {i j : Instr} (h : plainCommand s m j = some i) :
    j = i ∧ s = 0 ∧ m = 0 := by
  unfold plainCommand at h
  by_cases hc : s = 0 ∧ m = 0
  · rw [if_pos hc] at h; exact ⟨Option.some.inj h, hc⟩
  · rw [if_neg hc] at h; cases h

/-- The words of the two host commands that take `ARG` (R112). -/
theorem decodeCmd_takesArg {w : Word} {i : Instr} (hd : decodeCmd w = some i) :
    (i = .xlatVal → fieldOpc w = 0x11#8 ∧ fieldSub w = 0 ∧ fieldImm w = 0) ∧
    (i = .chInit → fieldOpc w = 0x50#8 ∧ fieldSub w = 0 ∧ fieldImm w = 0) := by
  unfold decodeCmd at hd
  dsimp only at hd
  rcases ite_eq_some_cases hd with ⟨h, hx⟩ | hd
  · obtain ⟨rfl, -⟩ := plainCommand_some hx; exact ⟨nofun, nofun⟩
  rcases ite_eq_some_cases hd with ⟨h, hx⟩ | hd
  · obtain ⟨rfl, h2⟩ := plainCommand_some hx; exact ⟨fun _ => ⟨h, h2⟩, nofun⟩
  rcases ite_eq_some_cases hd with ⟨h, hx⟩ | hd
  · rcases ite_eq_some_cases hx with ⟨-, hx⟩ | hx
    · cases hx; exact ⟨nofun, nofun⟩
    · cases hx
  iterate 4
    rcases ite_eq_some_cases hd with ⟨h, hx⟩ | hd
    · obtain ⟨rfl, -⟩ := plainCommand_some hx; exact ⟨nofun, nofun⟩
  iterate 2
    rcases ite_eq_some_cases hd with ⟨h, hx⟩ | hd
    · rcases ite_eq_some_cases hx with ⟨-, hx⟩ | hx
      · cases hx; exact ⟨nofun, nofun⟩
      · cases hx
  iterate 4
    rcases ite_eq_some_cases hd with ⟨h, hx⟩ | hd
    · obtain ⟨rfl, -⟩ := plainCommand_some hx; exact ⟨nofun, nofun⟩
  rcases ite_eq_some_cases hd with ⟨h, hx⟩ | hd
  · obtain ⟨rfl, h2⟩ := plainCommand_some hx; exact ⟨nofun, fun _ => ⟨h, h2⟩⟩
  rcases ite_eq_some_cases hd with ⟨h, hx⟩ | hd
  · obtain ⟨rfl, -⟩ := plainCommand_some hx; exact ⟨nofun, nofun⟩
  iterate 2
    rcases ite_eq_some_cases hd with ⟨h, hx⟩ | hd
    · rcases ite_eq_some_cases hx with ⟨-, hx⟩ | hx
      · cases hx; exact ⟨nofun, nofun⟩
      · cases hx
  rcases ite_eq_some_cases hd with ⟨h, hx⟩ | hd
  · obtain ⟨rfl, -⟩ := plainCommand_some hx; exact ⟨nofun, nofun⟩
  cases hd

/-- The host commands that take `ARG` are `XLAT.VAL` and `CH.INIT` (R115, R320). -/
theorem wordTakesArg_iff (w : Word) : wordTakesArg w = true ↔ w = 0x11#32 ∨ w = 0x50#32 := by
  constructor
  · intro h
    have hw := commandWord_fields w
    have key : fieldSub w = 0 ∧ fieldImm w = 0 ∧ (fieldOpc w = 0x11#8 ∨ fieldOpc w = 0x50#8) := by
      unfold wordTakesArg decodeHost at h
      cases hd : decodeCmd w with
      | none => rw [hd] at h; simp at h
      | some i =>
        rw [hd] at h
        have hi : i = .xlatVal ∨ i = .chInit := by
          cases i <;> first | exact .inl rfl | exact .inr rfl | (simp [Instr.takesArg, Instr.hostIssued] at h)
        have good := decodeCmd_takesArg hd
        rcases hi with rfl | rfl
        · exact ⟨(good.1 rfl).2.1, (good.1 rfl).2.2, .inl (good.1 rfl).1⟩
        · exact ⟨(good.2 rfl).2.1, (good.2 rfl).2.2, .inr (good.2 rfl).1⟩
    obtain ⟨h1, h2, h3⟩ := key
    rw [h1, h2] at hw
    rcases h3 with h3 | h3 <;> rw [h3] at hw
    · left; rw [← hw]; rfl
    · right; rw [← hw]; rfl
  · rintro (rfl | rfl) <;> decide

end Sys2Proof
end

