-- ==== Sys2Proof/Laws/State.lean ====
section
/-! SUPPORT. One lemma per field per update of the state: what each named update leaves of every field it does not write, and
the value of each field it does write. -/

namespace Sys2Proof.Machine

variable (s : State)

/-- Two states with equal fields are equal. -/
theorem State.eq_of_fields {s t : State} (params : s.params = t.params) (ports : s.ports = t.ports) (cfg : s.cfg = t.cfg) (tbl : s.tbl = t.tbl) (tblOk : s.tblOk = t.tblOk) (chState : s.chState = t.chState) (orchPhase : s.orchPhase = t.orchPhase) (drvState : s.drvState = t.drvState) (ring : s.ring = t.ring) (hasData : s.hasData = t.hasData) (paused : s.paused = t.paused) (cnt : s.cnt = t.cnt) (err : s.err = t.err) (notify : s.notify = t.notify) (thrIe : s.thrIe = t.thrIe) (doneIe : s.doneIe = t.doneIe) (hw : s.hw = t.hw) (cq : s.cq = t.cq) (registry : s.registry = t.registry) (env : s.env = t.env) (seq : s.seq = t.seq) :
    s = t := by
  obtain ⟨⟩ := s; obtain ⟨⟩ := t
  simp only at *
  subst_vars; rfl

/-! ### recordError -/

@[simp] theorem recordError_params (e : ErrCode) (i : Word) : (recordError e i s).params = s.params := rfl
@[simp] theorem recordError_ports (e : ErrCode) (i : Word) : (recordError e i s).ports = s.ports := rfl
@[simp] theorem recordError_cfg (e : ErrCode) (i : Word) : (recordError e i s).cfg = s.cfg := rfl
@[simp] theorem recordError_tbl (e : ErrCode) (i : Word) : (recordError e i s).tbl = s.tbl := rfl
@[simp] theorem recordError_tblOk (e : ErrCode) (i : Word) : (recordError e i s).tblOk = s.tblOk := rfl
@[simp] theorem recordError_chState (e : ErrCode) (i : Word) : (recordError e i s).chState = s.chState := rfl
@[simp] theorem recordError_orchPhase (e : ErrCode) (i : Word) : (recordError e i s).orchPhase = s.orchPhase := rfl
@[simp] theorem recordError_drvState (e : ErrCode) (i : Word) : (recordError e i s).drvState = s.drvState := rfl
@[simp] theorem recordError_ring (e : ErrCode) (i : Word) : (recordError e i s).ring = s.ring := rfl
@[simp] theorem recordError_hasData (e : ErrCode) (i : Word) : (recordError e i s).hasData = s.hasData := rfl
@[simp] theorem recordError_paused (e : ErrCode) (i : Word) : (recordError e i s).paused = s.paused := rfl
@[simp] theorem recordError_cnt (e : ErrCode) (i : Word) : (recordError e i s).cnt = s.cnt := rfl
@[simp] theorem recordError_err (e : ErrCode) (i : Word) : (recordError e i s).err = { s.err with lastErr := e.code, log := s.err.log ++ [{ code := e.code, info := i }] } := rfl
@[simp] theorem recordError_notify (e : ErrCode) (i : Word) : (recordError e i s).notify = s.notify := rfl
@[simp] theorem recordError_thrIe (e : ErrCode) (i : Word) : (recordError e i s).thrIe = s.thrIe := rfl
@[simp] theorem recordError_doneIe (e : ErrCode) (i : Word) : (recordError e i s).doneIe = s.doneIe := rfl
@[simp] theorem recordError_hw (e : ErrCode) (i : Word) : (recordError e i s).hw = s.hw := rfl
@[simp] theorem recordError_cq (e : ErrCode) (i : Word) : (recordError e i s).cq = s.cq := rfl
@[simp] theorem recordError_registry (e : ErrCode) (i : Word) : (recordError e i s).registry = s.registry := rfl
@[simp] theorem recordError_env (e : ErrCode) (i : Word) : (recordError e i s).env = s.env := rfl
@[simp] theorem recordError_seq (e : ErrCode) (i : Word) : (recordError e i s).seq = s.seq := rfl

/-! ### raiseFault -/

@[simp] theorem raiseFault_params (k : FaultKind) (i : Word) : (raiseFault k i s).params = s.params := rfl
@[simp] theorem raiseFault_ports (k : FaultKind) (i : Word) : (raiseFault k i s).ports = s.ports := rfl
@[simp] theorem raiseFault_cfg (k : FaultKind) (i : Word) : (raiseFault k i s).cfg = s.cfg := rfl
@[simp] theorem raiseFault_tbl (k : FaultKind) (i : Word) : (raiseFault k i s).tbl = s.tbl := rfl
@[simp] theorem raiseFault_tblOk (k : FaultKind) (i : Word) : (raiseFault k i s).tblOk = s.tblOk := rfl
@[simp] theorem raiseFault_chState (k : FaultKind) (i : Word) : (raiseFault k i s).chState = s.chState := rfl
@[simp] theorem raiseFault_orchPhase (k : FaultKind) (i : Word) : (raiseFault k i s).orchPhase = s.orchPhase := rfl
@[simp] theorem raiseFault_drvState (k : FaultKind) (i : Word) : (raiseFault k i s).drvState = s.drvState := rfl
@[simp] theorem raiseFault_ring (k : FaultKind) (i : Word) : (raiseFault k i s).ring = s.ring := rfl
@[simp] theorem raiseFault_hasData (k : FaultKind) (i : Word) : (raiseFault k i s).hasData = s.hasData := rfl
@[simp] theorem raiseFault_paused (k : FaultKind) (i : Word) : (raiseFault k i s).paused = s.paused := rfl
@[simp] theorem raiseFault_cnt (k : FaultKind) (i : Word) : (raiseFault k i s).cnt = s.cnt := rfl
@[simp] theorem raiseFault_err (k : FaultKind) (i : Word) : (raiseFault k i s).err = { s.err with lastErr := k.err.code, fault := s.err.fault ||| k.mask, log := s.err.log ++ [{ code := k.err.code, info := i }] } := rfl
@[simp] theorem raiseFault_notify (k : FaultKind) (i : Word) : (raiseFault k i s).notify = s.notify := rfl
@[simp] theorem raiseFault_thrIe (k : FaultKind) (i : Word) : (raiseFault k i s).thrIe = s.thrIe := rfl
@[simp] theorem raiseFault_doneIe (k : FaultKind) (i : Word) : (raiseFault k i s).doneIe = s.doneIe := rfl
@[simp] theorem raiseFault_hw (k : FaultKind) (i : Word) : (raiseFault k i s).hw = s.hw := rfl
@[simp] theorem raiseFault_cq (k : FaultKind) (i : Word) : (raiseFault k i s).cq = s.cq := rfl
@[simp] theorem raiseFault_registry (k : FaultKind) (i : Word) : (raiseFault k i s).registry = s.registry := rfl
@[simp] theorem raiseFault_env (k : FaultKind) (i : Word) : (raiseFault k i s).env = s.env := rfl
@[simp] theorem raiseFault_seq (k : FaultKind) (i : Word) : (raiseFault k i s).seq = s.seq := rfl

/-! ### modPort -/

@[simp] theorem modPort_params (k : Nat) (f : Port → Port) : (modPort k f s).params = s.params := rfl
@[simp] theorem modPort_ports (k : Nat) (f : Port → Port) : (modPort k f s).ports = s.ports.modify k f := rfl
@[simp] theorem modPort_cfg (k : Nat) (f : Port → Port) : (modPort k f s).cfg = s.cfg := rfl
@[simp] theorem modPort_tbl (k : Nat) (f : Port → Port) : (modPort k f s).tbl = s.tbl := rfl
@[simp] theorem modPort_tblOk (k : Nat) (f : Port → Port) : (modPort k f s).tblOk = s.tblOk := rfl
@[simp] theorem modPort_chState (k : Nat) (f : Port → Port) : (modPort k f s).chState = s.chState := rfl
@[simp] theorem modPort_orchPhase (k : Nat) (f : Port → Port) : (modPort k f s).orchPhase = s.orchPhase := rfl
@[simp] theorem modPort_drvState (k : Nat) (f : Port → Port) : (modPort k f s).drvState = s.drvState := rfl
@[simp] theorem modPort_ring (k : Nat) (f : Port → Port) : (modPort k f s).ring = s.ring := rfl
@[simp] theorem modPort_hasData (k : Nat) (f : Port → Port) : (modPort k f s).hasData = s.hasData := rfl
@[simp] theorem modPort_paused (k : Nat) (f : Port → Port) : (modPort k f s).paused = s.paused := rfl
@[simp] theorem modPort_cnt (k : Nat) (f : Port → Port) : (modPort k f s).cnt = s.cnt := rfl
@[simp] theorem modPort_err (k : Nat) (f : Port → Port) : (modPort k f s).err = s.err := rfl
@[simp] theorem modPort_notify (k : Nat) (f : Port → Port) : (modPort k f s).notify = s.notify := rfl
@[simp] theorem modPort_thrIe (k : Nat) (f : Port → Port) : (modPort k f s).thrIe = s.thrIe := rfl
@[simp] theorem modPort_doneIe (k : Nat) (f : Port → Port) : (modPort k f s).doneIe = s.doneIe := rfl
@[simp] theorem modPort_hw (k : Nat) (f : Port → Port) : (modPort k f s).hw = s.hw := rfl
@[simp] theorem modPort_cq (k : Nat) (f : Port → Port) : (modPort k f s).cq = s.cq := rfl
@[simp] theorem modPort_registry (k : Nat) (f : Port → Port) : (modPort k f s).registry = s.registry := rfl
@[simp] theorem modPort_env (k : Nat) (f : Port → Port) : (modPort k f s).env = s.env := rfl
@[simp] theorem modPort_seq (k : Nat) (f : Port → Port) : (modPort k f s).seq = s.seq := rfl

/-! ### completePort -/

@[simp] theorem completePort_params (k : Nat) (rc : ResultCode) (e : ErrCode) (r : Word) : (completePort k rc e r s).params = s.params := rfl
@[simp] theorem completePort_ports (k : Nat) (rc : ResultCode) (e : ErrCode) (r : Word) : (completePort k rc e r s).ports = s.ports.modify k fun p => { p with rstat := rstatByte rc e, res := r, busy := false } := rfl
@[simp] theorem completePort_cfg (k : Nat) (rc : ResultCode) (e : ErrCode) (r : Word) : (completePort k rc e r s).cfg = s.cfg := rfl
@[simp] theorem completePort_tbl (k : Nat) (rc : ResultCode) (e : ErrCode) (r : Word) : (completePort k rc e r s).tbl = s.tbl := rfl
@[simp] theorem completePort_tblOk (k : Nat) (rc : ResultCode) (e : ErrCode) (r : Word) : (completePort k rc e r s).tblOk = s.tblOk := rfl
@[simp] theorem completePort_chState (k : Nat) (rc : ResultCode) (e : ErrCode) (r : Word) : (completePort k rc e r s).chState = s.chState := rfl
@[simp] theorem completePort_orchPhase (k : Nat) (rc : ResultCode) (e : ErrCode) (r : Word) : (completePort k rc e r s).orchPhase = s.orchPhase := rfl
@[simp] theorem completePort_drvState (k : Nat) (rc : ResultCode) (e : ErrCode) (r : Word) : (completePort k rc e r s).drvState = s.drvState := rfl
@[simp] theorem completePort_ring (k : Nat) (rc : ResultCode) (e : ErrCode) (r : Word) : (completePort k rc e r s).ring = s.ring := rfl
@[simp] theorem completePort_hasData (k : Nat) (rc : ResultCode) (e : ErrCode) (r : Word) : (completePort k rc e r s).hasData = s.hasData := rfl
@[simp] theorem completePort_paused (k : Nat) (rc : ResultCode) (e : ErrCode) (r : Word) : (completePort k rc e r s).paused = s.paused := rfl
@[simp] theorem completePort_cnt (k : Nat) (rc : ResultCode) (e : ErrCode) (r : Word) : (completePort k rc e r s).cnt = s.cnt := rfl
@[simp] theorem completePort_err (k : Nat) (rc : ResultCode) (e : ErrCode) (r : Word) : (completePort k rc e r s).err = s.err := rfl
@[simp] theorem completePort_notify (k : Nat) (rc : ResultCode) (e : ErrCode) (r : Word) : (completePort k rc e r s).notify = s.notify := rfl
@[simp] theorem completePort_thrIe (k : Nat) (rc : ResultCode) (e : ErrCode) (r : Word) : (completePort k rc e r s).thrIe = s.thrIe := rfl
@[simp] theorem completePort_doneIe (k : Nat) (rc : ResultCode) (e : ErrCode) (r : Word) : (completePort k rc e r s).doneIe = s.doneIe := rfl
@[simp] theorem completePort_hw (k : Nat) (rc : ResultCode) (e : ErrCode) (r : Word) : (completePort k rc e r s).hw = s.hw := rfl
@[simp] theorem completePort_cq (k : Nat) (rc : ResultCode) (e : ErrCode) (r : Word) : (completePort k rc e r s).cq = s.cq := rfl
@[simp] theorem completePort_registry (k : Nat) (rc : ResultCode) (e : ErrCode) (r : Word) : (completePort k rc e r s).registry = s.registry := rfl
@[simp] theorem completePort_env (k : Nat) (rc : ResultCode) (e : ErrCode) (r : Word) : (completePort k rc e r s).env = s.env := rfl
@[simp] theorem completePort_seq (k : Nat) (rc : ResultCode) (e : ErrCode) (r : Word) : (completePort k rc e r s).seq = s.seq := rfl

/-! ### answering -/

@[simp] theorem answering_params (ws : List Word) : (answering ws s).params = s.params := rfl
@[simp] theorem answering_ports (ws : List Word) : (answering ws s).ports = s.ports := rfl
@[simp] theorem answering_cfg (ws : List Word) : (answering ws s).cfg = s.cfg := rfl
@[simp] theorem answering_tbl (ws : List Word) : (answering ws s).tbl = s.tbl := rfl
@[simp] theorem answering_tblOk (ws : List Word) : (answering ws s).tblOk = s.tblOk := rfl
@[simp] theorem answering_chState (ws : List Word) : (answering ws s).chState = s.chState := rfl
@[simp] theorem answering_orchPhase (ws : List Word) : (answering ws s).orchPhase = s.orchPhase := rfl
@[simp] theorem answering_drvState (ws : List Word) : (answering ws s).drvState = s.drvState := rfl
@[simp] theorem answering_ring (ws : List Word) : (answering ws s).ring = s.ring := rfl
@[simp] theorem answering_hasData (ws : List Word) : (answering ws s).hasData = s.hasData := rfl
@[simp] theorem answering_paused (ws : List Word) : (answering ws s).paused = s.paused := rfl
@[simp] theorem answering_cnt (ws : List Word) : (answering ws s).cnt = s.cnt := rfl
@[simp] theorem answering_err (ws : List Word) : (answering ws s).err = s.err := rfl
@[simp] theorem answering_notify (ws : List Word) : (answering ws s).notify = s.notify := rfl
@[simp] theorem answering_thrIe (ws : List Word) : (answering ws s).thrIe = s.thrIe := rfl
@[simp] theorem answering_doneIe (ws : List Word) : (answering ws s).doneIe = s.doneIe := rfl
@[simp] theorem answering_hw (ws : List Word) : (answering ws s).hw = s.hw := rfl
@[simp] theorem answering_cq (ws : List Word) : (answering ws s).cq = s.cq := rfl
@[simp] theorem answering_registry (ws : List Word) : (answering ws s).registry = s.registry := rfl
@[simp] theorem answering_env (ws : List Word) : (answering ws s).env = s.env := rfl
@[simp] theorem answering_seq (ws : List Word) : (answering ws s).seq = { s.seq with answer := ws } := rfl

/-! ### noteCall -/

@[simp] theorem noteCall_params (id : Byte) (ws : List Word) : (noteCall id ws s).params = s.params := rfl
@[simp] theorem noteCall_ports (id : Byte) (ws : List Word) : (noteCall id ws s).ports = s.ports := rfl
@[simp] theorem noteCall_cfg (id : Byte) (ws : List Word) : (noteCall id ws s).cfg = s.cfg := rfl
@[simp] theorem noteCall_tbl (id : Byte) (ws : List Word) : (noteCall id ws s).tbl = s.tbl := rfl
@[simp] theorem noteCall_tblOk (id : Byte) (ws : List Word) : (noteCall id ws s).tblOk = s.tblOk := rfl
@[simp] theorem noteCall_chState (id : Byte) (ws : List Word) : (noteCall id ws s).chState = s.chState := rfl
@[simp] theorem noteCall_orchPhase (id : Byte) (ws : List Word) : (noteCall id ws s).orchPhase = s.orchPhase := rfl
@[simp] theorem noteCall_drvState (id : Byte) (ws : List Word) : (noteCall id ws s).drvState = s.drvState := rfl
@[simp] theorem noteCall_ring (id : Byte) (ws : List Word) : (noteCall id ws s).ring = s.ring := rfl
@[simp] theorem noteCall_hasData (id : Byte) (ws : List Word) : (noteCall id ws s).hasData = s.hasData := rfl
@[simp] theorem noteCall_paused (id : Byte) (ws : List Word) : (noteCall id ws s).paused = s.paused := rfl
@[simp] theorem noteCall_cnt (id : Byte) (ws : List Word) : (noteCall id ws s).cnt = s.cnt := rfl
@[simp] theorem noteCall_err (id : Byte) (ws : List Word) : (noteCall id ws s).err = s.err := rfl
@[simp] theorem noteCall_notify (id : Byte) (ws : List Word) : (noteCall id ws s).notify = s.notify := rfl
@[simp] theorem noteCall_thrIe (id : Byte) (ws : List Word) : (noteCall id ws s).thrIe = s.thrIe := rfl
@[simp] theorem noteCall_doneIe (id : Byte) (ws : List Word) : (noteCall id ws s).doneIe = s.doneIe := rfl
@[simp] theorem noteCall_hw (id : Byte) (ws : List Word) : (noteCall id ws s).hw = s.hw := rfl
@[simp] theorem noteCall_cq (id : Byte) (ws : List Word) : (noteCall id ws s).cq = s.cq := rfl
@[simp] theorem noteCall_registry (id : Byte) (ws : List Word) : (noteCall id ws s).registry = s.registry := rfl
@[simp] theorem noteCall_env (id : Byte) (ws : List Word) : (noteCall id ws s).env = { s.env with calls := s.env.calls ++ [{ id := id, args := ws }] } := rfl
@[simp] theorem noteCall_seq (id : Byte) (ws : List Word) : (noteCall id ws s).seq = s.seq := rfl

/-! ### setSource -/

@[simp] theorem setSource_params (src : Source) : (setSource src s).params = s.params := rfl
@[simp] theorem setSource_ports (src : Source) : (setSource src s).ports = s.ports := rfl
@[simp] theorem setSource_cfg (src : Source) : (setSource src s).cfg = s.cfg := rfl
@[simp] theorem setSource_tbl (src : Source) : (setSource src s).tbl = s.tbl := rfl
@[simp] theorem setSource_tblOk (src : Source) : (setSource src s).tblOk = s.tblOk := rfl
@[simp] theorem setSource_chState (src : Source) : (setSource src s).chState = s.chState := rfl
@[simp] theorem setSource_orchPhase (src : Source) : (setSource src s).orchPhase = s.orchPhase := rfl
@[simp] theorem setSource_drvState (src : Source) : (setSource src s).drvState = s.drvState := rfl
@[simp] theorem setSource_ring (src : Source) : (setSource src s).ring = s.ring := rfl
@[simp] theorem setSource_hasData (src : Source) : (setSource src s).hasData = s.hasData := rfl
@[simp] theorem setSource_paused (src : Source) : (setSource src s).paused = s.paused := rfl
@[simp] theorem setSource_cnt (src : Source) : (setSource src s).cnt = s.cnt := rfl
@[simp] theorem setSource_err (src : Source) : (setSource src s).err = s.err := rfl
@[simp] theorem setSource_notify (src : Source) : (setSource src s).notify = s.notify := rfl
@[simp] theorem setSource_thrIe (src : Source) : (setSource src s).thrIe = s.thrIe := rfl
@[simp] theorem setSource_doneIe (src : Source) : (setSource src s).doneIe = s.doneIe := rfl
@[simp] theorem setSource_hw (src : Source) : (setSource src s).hw = s.hw := rfl
@[simp] theorem setSource_cq (src : Source) : (setSource src s).cq = s.cq := rfl
@[simp] theorem setSource_registry (src : Source) : (setSource src s).registry = s.registry := rfl
@[simp] theorem setSource_env (src : Source) : (setSource src s).env = { s.env with sources := replaceSource s.cfg.srcHandle src s.env.sources } := rfl
@[simp] theorem setSource_seq (src : Source) : (setSource src s).seq = s.seq := rfl

/-! ### armEvents -/

@[simp] theorem armEvents_params : (armEvents s).params = s.params := rfl
@[simp] theorem armEvents_ports : (armEvents s).ports = s.ports := rfl
@[simp] theorem armEvents_cfg : (armEvents s).cfg = s.cfg := rfl
@[simp] theorem armEvents_tbl : (armEvents s).tbl = s.tbl := rfl
@[simp] theorem armEvents_tblOk : (armEvents s).tblOk = s.tblOk := rfl
@[simp] theorem armEvents_chState : (armEvents s).chState = s.chState := rfl
@[simp] theorem armEvents_orchPhase : (armEvents s).orchPhase = s.orchPhase := rfl
@[simp] theorem armEvents_drvState : (armEvents s).drvState = s.drvState := rfl
@[simp] theorem armEvents_ring : (armEvents s).ring = s.ring := rfl
@[simp] theorem armEvents_hasData : (armEvents s).hasData = s.hasData := rfl
@[simp] theorem armEvents_paused : (armEvents s).paused = s.paused := rfl
@[simp] theorem armEvents_cnt : (armEvents s).cnt = s.cnt := rfl
@[simp] theorem armEvents_err : (armEvents s).err = s.err := rfl
@[simp] theorem armEvents_notify : (armEvents s).notify = s.notify := rfl
@[simp] theorem armEvents_thrIe : (armEvents s).thrIe = true := rfl
@[simp] theorem armEvents_doneIe : (armEvents s).doneIe = true := rfl
@[simp] theorem armEvents_hw : (armEvents s).hw = { s.hw with thrPend := false, donePend := false } := rfl
@[simp] theorem armEvents_cq : (armEvents s).cq = s.cq := rfl
@[simp] theorem armEvents_registry : (armEvents s).registry = s.registry := rfl
@[simp] theorem armEvents_env : (armEvents s).env = s.env := rfl
@[simp] theorem armEvents_seq : (armEvents s).seq = s.seq := rfl

/-! ### maskEvents -/

@[simp] theorem maskEvents_params : (maskEvents s).params = s.params := rfl
@[simp] theorem maskEvents_ports : (maskEvents s).ports = s.ports := rfl
@[simp] theorem maskEvents_cfg : (maskEvents s).cfg = s.cfg := rfl
@[simp] theorem maskEvents_tbl : (maskEvents s).tbl = s.tbl := rfl
@[simp] theorem maskEvents_tblOk : (maskEvents s).tblOk = s.tblOk := rfl
@[simp] theorem maskEvents_chState : (maskEvents s).chState = s.chState := rfl
@[simp] theorem maskEvents_orchPhase : (maskEvents s).orchPhase = s.orchPhase := rfl
@[simp] theorem maskEvents_drvState : (maskEvents s).drvState = s.drvState := rfl
@[simp] theorem maskEvents_ring : (maskEvents s).ring = s.ring := rfl
@[simp] theorem maskEvents_hasData : (maskEvents s).hasData = s.hasData := rfl
@[simp] theorem maskEvents_paused : (maskEvents s).paused = s.paused := rfl
@[simp] theorem maskEvents_cnt : (maskEvents s).cnt = s.cnt := rfl
@[simp] theorem maskEvents_err : (maskEvents s).err = s.err := rfl
@[simp] theorem maskEvents_notify : (maskEvents s).notify = s.notify := rfl
@[simp] theorem maskEvents_thrIe : (maskEvents s).thrIe = false := rfl
@[simp] theorem maskEvents_doneIe : (maskEvents s).doneIe = false := rfl
@[simp] theorem maskEvents_hw : (maskEvents s).hw = s.hw := rfl
@[simp] theorem maskEvents_cq : (maskEvents s).cq = s.cq := rfl
@[simp] theorem maskEvents_registry : (maskEvents s).registry = s.registry := rfl
@[simp] theorem maskEvents_env : (maskEvents s).env = s.env := rfl
@[simp] theorem maskEvents_seq : (maskEvents s).seq = s.seq := rfl

/-! ### giveNotify -/

@[simp] theorem giveNotify_params : (giveNotify s).params = s.params := rfl
@[simp] theorem giveNotify_ports : (giveNotify s).ports = s.ports := rfl
@[simp] theorem giveNotify_cfg : (giveNotify s).cfg = s.cfg := rfl
@[simp] theorem giveNotify_tbl : (giveNotify s).tbl = s.tbl := rfl
@[simp] theorem giveNotify_tblOk : (giveNotify s).tblOk = s.tblOk := rfl
@[simp] theorem giveNotify_chState : (giveNotify s).chState = s.chState := rfl
@[simp] theorem giveNotify_orchPhase : (giveNotify s).orchPhase = s.orchPhase := rfl
@[simp] theorem giveNotify_drvState : (giveNotify s).drvState = s.drvState := rfl
@[simp] theorem giveNotify_ring : (giveNotify s).ring = s.ring := rfl
@[simp] theorem giveNotify_hasData : (giveNotify s).hasData = s.hasData := rfl
@[simp] theorem giveNotify_paused : (giveNotify s).paused = s.paused := rfl
@[simp] theorem giveNotify_cnt : (giveNotify s).cnt = s.cnt := rfl
@[simp] theorem giveNotify_err : (giveNotify s).err = s.err := rfl
@[simp] theorem giveNotify_notify : (giveNotify s).notify = true := rfl
@[simp] theorem giveNotify_thrIe : (giveNotify s).thrIe = s.thrIe := rfl
@[simp] theorem giveNotify_doneIe : (giveNotify s).doneIe = s.doneIe := rfl
@[simp] theorem giveNotify_hw : (giveNotify s).hw = s.hw := rfl
@[simp] theorem giveNotify_cq : (giveNotify s).cq = s.cq := rfl
@[simp] theorem giveNotify_registry : (giveNotify s).registry = s.registry := rfl
@[simp] theorem giveNotify_env : (giveNotify s).env = s.env := rfl
@[simp] theorem giveNotify_seq : (giveNotify s).seq = s.seq := rfl

/-! ### clearNotify -/

@[simp] theorem clearNotify_params : (clearNotify s).params = s.params := rfl
@[simp] theorem clearNotify_ports : (clearNotify s).ports = s.ports := rfl
@[simp] theorem clearNotify_cfg : (clearNotify s).cfg = s.cfg := rfl
@[simp] theorem clearNotify_tbl : (clearNotify s).tbl = s.tbl := rfl
@[simp] theorem clearNotify_tblOk : (clearNotify s).tblOk = s.tblOk := rfl
@[simp] theorem clearNotify_chState : (clearNotify s).chState = s.chState := rfl
@[simp] theorem clearNotify_orchPhase : (clearNotify s).orchPhase = s.orchPhase := rfl
@[simp] theorem clearNotify_drvState : (clearNotify s).drvState = s.drvState := rfl
@[simp] theorem clearNotify_ring : (clearNotify s).ring = s.ring := rfl
@[simp] theorem clearNotify_hasData : (clearNotify s).hasData = s.hasData := rfl
@[simp] theorem clearNotify_paused : (clearNotify s).paused = s.paused := rfl
@[simp] theorem clearNotify_cnt : (clearNotify s).cnt = s.cnt := rfl
@[simp] theorem clearNotify_err : (clearNotify s).err = s.err := rfl
@[simp] theorem clearNotify_notify : (clearNotify s).notify = false := rfl
@[simp] theorem clearNotify_thrIe : (clearNotify s).thrIe = s.thrIe := rfl
@[simp] theorem clearNotify_doneIe : (clearNotify s).doneIe = s.doneIe := rfl
@[simp] theorem clearNotify_hw : (clearNotify s).hw = s.hw := rfl
@[simp] theorem clearNotify_cq : (clearNotify s).cq = s.cq := rfl
@[simp] theorem clearNotify_registry : (clearNotify s).registry = s.registry := rfl
@[simp] theorem clearNotify_env : (clearNotify s).env = s.env := rfl
@[simp] theorem clearNotify_seq : (clearNotify s).seq = s.seq := rfl

/-! ### toIdle -/

@[simp] theorem toIdle_params : (toIdle s).params = s.params := rfl
@[simp] theorem toIdle_ports : (toIdle s).ports = s.ports := rfl
@[simp] theorem toIdle_cfg : (toIdle s).cfg = s.cfg := rfl
@[simp] theorem toIdle_tbl : (toIdle s).tbl = s.tbl := rfl
@[simp] theorem toIdle_tblOk : (toIdle s).tblOk = s.tblOk := rfl
@[simp] theorem toIdle_chState : (toIdle s).chState = s.chState := rfl
@[simp] theorem toIdle_orchPhase : (toIdle s).orchPhase = .idle := rfl
@[simp] theorem toIdle_drvState : (toIdle s).drvState = .idle := rfl
@[simp] theorem toIdle_ring : (toIdle s).ring = s.ring := rfl
@[simp] theorem toIdle_hasData : (toIdle s).hasData = s.hasData := rfl
@[simp] theorem toIdle_paused : (toIdle s).paused = s.paused := rfl
@[simp] theorem toIdle_cnt : (toIdle s).cnt = s.cnt := rfl
@[simp] theorem toIdle_err : (toIdle s).err = s.err := rfl
@[simp] theorem toIdle_notify : (toIdle s).notify = s.notify := rfl
@[simp] theorem toIdle_thrIe : (toIdle s).thrIe = s.thrIe := rfl
@[simp] theorem toIdle_doneIe : (toIdle s).doneIe = s.doneIe := rfl
@[simp] theorem toIdle_hw : (toIdle s).hw = s.hw := rfl
@[simp] theorem toIdle_cq : (toIdle s).cq = s.cq := rfl
@[simp] theorem toIdle_registry : (toIdle s).registry = s.registry := rfl
@[simp] theorem toIdle_env : (toIdle s).env = s.env := rfl
@[simp] theorem toIdle_seq : (toIdle s).seq = s.seq := rfl

/-! ### countEntries -/

@[simp] theorem countEntries_params (n : Nat) : (countEntries n s).params = s.params := rfl
@[simp] theorem countEntries_ports (n : Nat) : (countEntries n s).ports = s.ports := rfl
@[simp] theorem countEntries_cfg (n : Nat) : (countEntries n s).cfg = s.cfg := rfl
@[simp] theorem countEntries_tbl (n : Nat) : (countEntries n s).tbl = s.tbl := rfl
@[simp] theorem countEntries_tblOk (n : Nat) : (countEntries n s).tblOk = s.tblOk := rfl
@[simp] theorem countEntries_chState (n : Nat) : (countEntries n s).chState = s.chState := rfl
@[simp] theorem countEntries_orchPhase (n : Nat) : (countEntries n s).orchPhase = s.orchPhase := rfl
@[simp] theorem countEntries_drvState (n : Nat) : (countEntries n s).drvState = s.drvState := rfl
@[simp] theorem countEntries_ring (n : Nat) : (countEntries n s).ring = s.ring := rfl
@[simp] theorem countEntries_hasData (n : Nat) : (countEntries n s).hasData = s.hasData := rfl
@[simp] theorem countEntries_paused (n : Nat) : (countEntries n s).paused = s.paused := rfl
@[simp] theorem countEntries_cnt (n : Nat) : (countEntries n s).cnt = { s.cnt with entries := s.cnt.entries + BitVec.ofNat 32 n } := rfl
@[simp] theorem countEntries_err (n : Nat) : (countEntries n s).err = s.err := rfl
@[simp] theorem countEntries_notify (n : Nat) : (countEntries n s).notify = s.notify := rfl
@[simp] theorem countEntries_thrIe (n : Nat) : (countEntries n s).thrIe = s.thrIe := rfl
@[simp] theorem countEntries_doneIe (n : Nat) : (countEntries n s).doneIe = s.doneIe := rfl
@[simp] theorem countEntries_hw (n : Nat) : (countEntries n s).hw = s.hw := rfl
@[simp] theorem countEntries_cq (n : Nat) : (countEntries n s).cq = s.cq := rfl
@[simp] theorem countEntries_registry (n : Nat) : (countEntries n s).registry = s.registry := rfl
@[simp] theorem countEntries_env (n : Nat) : (countEntries n s).env = s.env := rfl
@[simp] theorem countEntries_seq (n : Nat) : (countEntries n s).seq = s.seq := rfl

/-! ### noteTimeout -/

@[simp] theorem noteTimeout_params (n : Nat) : (noteTimeout n s).params = s.params := rfl
@[simp] theorem noteTimeout_ports (n : Nat) : (noteTimeout n s).ports = s.ports := rfl
@[simp] theorem noteTimeout_cfg (n : Nat) : (noteTimeout n s).cfg = s.cfg := rfl
@[simp] theorem noteTimeout_tbl (n : Nat) : (noteTimeout n s).tbl = s.tbl := rfl
@[simp] theorem noteTimeout_tblOk (n : Nat) : (noteTimeout n s).tblOk = s.tblOk := rfl
@[simp] theorem noteTimeout_chState (n : Nat) : (noteTimeout n s).chState = s.chState := rfl
@[simp] theorem noteTimeout_orchPhase (n : Nat) : (noteTimeout n s).orchPhase = s.orchPhase := rfl
@[simp] theorem noteTimeout_drvState (n : Nat) : (noteTimeout n s).drvState = s.drvState := rfl
@[simp] theorem noteTimeout_ring (n : Nat) : (noteTimeout n s).ring = s.ring := rfl
@[simp] theorem noteTimeout_hasData (n : Nat) : (noteTimeout n s).hasData = s.hasData := rfl
@[simp] theorem noteTimeout_paused (n : Nat) : (noteTimeout n s).paused = s.paused := rfl
@[simp] theorem noteTimeout_cnt (n : Nat) : (noteTimeout n s).cnt = { s.cnt with timeouts := s.cnt.timeouts + 1 } := rfl
@[simp] theorem noteTimeout_err (n : Nat) : (noteTimeout n s).err = (recordError .timeoutError (BitVec.ofNat 32 n) s).err := rfl
@[simp] theorem noteTimeout_notify (n : Nat) : (noteTimeout n s).notify = s.notify := rfl
@[simp] theorem noteTimeout_thrIe (n : Nat) : (noteTimeout n s).thrIe = s.thrIe := rfl
@[simp] theorem noteTimeout_doneIe (n : Nat) : (noteTimeout n s).doneIe = s.doneIe := rfl
@[simp] theorem noteTimeout_hw (n : Nat) : (noteTimeout n s).hw = s.hw := rfl
@[simp] theorem noteTimeout_cq (n : Nat) : (noteTimeout n s).cq = s.cq := rfl
@[simp] theorem noteTimeout_registry (n : Nat) : (noteTimeout n s).registry = s.registry := rfl
@[simp] theorem noteTimeout_env (n : Nat) : (noteTimeout n s).env = s.env := rfl
@[simp] theorem noteTimeout_seq (n : Nat) : (noteTimeout n s).seq = s.seq := rfl

/-! ### endFrameIntr -/

@[simp] theorem endFrameIntr_params : (endFrameIntr s).params = s.params := by simp [endFrameIntr]
@[simp] theorem endFrameIntr_ports : (endFrameIntr s).ports = s.ports := by simp [endFrameIntr]
@[simp] theorem endFrameIntr_cfg : (endFrameIntr s).cfg = s.cfg := by simp [endFrameIntr]
@[simp] theorem endFrameIntr_tbl : (endFrameIntr s).tbl = s.tbl := by simp [endFrameIntr]
@[simp] theorem endFrameIntr_tblOk : (endFrameIntr s).tblOk = s.tblOk := by simp [endFrameIntr]
@[simp] theorem endFrameIntr_chState : (endFrameIntr s).chState = s.chState := by simp [endFrameIntr]
@[simp] theorem endFrameIntr_orchPhase : (endFrameIntr s).orchPhase = .idle := by simp [endFrameIntr]
@[simp] theorem endFrameIntr_drvState : (endFrameIntr s).drvState = .idle := by simp [endFrameIntr]
@[simp] theorem endFrameIntr_ring : (endFrameIntr s).ring = s.ring := by simp [endFrameIntr]
@[simp] theorem endFrameIntr_hasData : (endFrameIntr s).hasData = s.hasData := by simp [endFrameIntr]
@[simp] theorem endFrameIntr_paused : (endFrameIntr s).paused = s.paused := by simp [endFrameIntr]
@[simp] theorem endFrameIntr_cnt : (endFrameIntr s).cnt = s.cnt := by simp [endFrameIntr]
@[simp] theorem endFrameIntr_err : (endFrameIntr s).err = s.err := by simp [endFrameIntr]
@[simp] theorem endFrameIntr_notify : (endFrameIntr s).notify = true := by simp [endFrameIntr]
@[simp] theorem endFrameIntr_thrIe : (endFrameIntr s).thrIe = false := by simp [endFrameIntr]
@[simp] theorem endFrameIntr_doneIe : (endFrameIntr s).doneIe = false := by simp [endFrameIntr]
@[simp] theorem endFrameIntr_hw : (endFrameIntr s).hw = s.hw := by simp [endFrameIntr]
@[simp] theorem endFrameIntr_cq : (endFrameIntr s).cq = s.cq := by simp [endFrameIntr]
@[simp] theorem endFrameIntr_registry : (endFrameIntr s).registry = s.registry := by simp [endFrameIntr]
@[simp] theorem endFrameIntr_env : (endFrameIntr s).env = s.env := by simp [endFrameIntr]
@[simp] theorem endFrameIntr_seq : (endFrameIntr s).seq = s.seq := by simp [endFrameIntr]

/-! ### txConfigure -/

@[simp] theorem txConfigure_params : (txConfigure s).params = s.params := rfl
@[simp] theorem txConfigure_ports : (txConfigure s).ports = s.ports := rfl
@[simp] theorem txConfigure_cfg : (txConfigure s).cfg = s.cfg := rfl
@[simp] theorem txConfigure_tbl : (txConfigure s).tbl = s.tbl := rfl
@[simp] theorem txConfigure_tblOk : (txConfigure s).tblOk = s.tblOk := rfl
@[simp] theorem txConfigure_chState : (txConfigure s).chState = s.chState := rfl
@[simp] theorem txConfigure_orchPhase : (txConfigure s).orchPhase = s.orchPhase := rfl
@[simp] theorem txConfigure_drvState : (txConfigure s).drvState = s.drvState := rfl
@[simp] theorem txConfigure_ring : (txConfigure s).ring = s.ring := rfl
@[simp] theorem txConfigure_hasData : (txConfigure s).hasData = s.hasData := rfl
@[simp] theorem txConfigure_paused : (txConfigure s).paused = s.paused := rfl
@[simp] theorem txConfigure_cnt : (txConfigure s).cnt = s.cnt := rfl
@[simp] theorem txConfigure_err : (txConfigure s).err = s.err := rfl
@[simp] theorem txConfigure_notify : (txConfigure s).notify = s.notify := rfl
@[simp] theorem txConfigure_thrIe : (txConfigure s).thrIe = s.thrIe := rfl
@[simp] theorem txConfigure_doneIe : (txConfigure s).doneIe = s.doneIe := rfl
@[simp] theorem txConfigure_hw : (txConfigure s).hw = { s.hw with configured := true, txmem := [], txEn := false, thrPend := false, donePend := false } := rfl
@[simp] theorem txConfigure_cq : (txConfigure s).cq = s.cq := rfl
@[simp] theorem txConfigure_registry : (txConfigure s).registry = s.registry := rfl
@[simp] theorem txConfigure_seq : (txConfigure s).seq = s.seq := rfl

/-! ### txDisable -/

@[simp] theorem txDisable_params : (txDisable s).params = s.params := rfl
@[simp] theorem txDisable_ports : (txDisable s).ports = s.ports := rfl
@[simp] theorem txDisable_cfg : (txDisable s).cfg = s.cfg := rfl
@[simp] theorem txDisable_tbl : (txDisable s).tbl = s.tbl := rfl
@[simp] theorem txDisable_tblOk : (txDisable s).tblOk = s.tblOk := rfl
@[simp] theorem txDisable_chState : (txDisable s).chState = s.chState := rfl
@[simp] theorem txDisable_orchPhase : (txDisable s).orchPhase = s.orchPhase := rfl
@[simp] theorem txDisable_drvState : (txDisable s).drvState = s.drvState := rfl
@[simp] theorem txDisable_ring : (txDisable s).ring = s.ring := rfl
@[simp] theorem txDisable_hasData : (txDisable s).hasData = s.hasData := rfl
@[simp] theorem txDisable_paused : (txDisable s).paused = s.paused := rfl
@[simp] theorem txDisable_cnt : (txDisable s).cnt = s.cnt := rfl
@[simp] theorem txDisable_err : (txDisable s).err = s.err := rfl
@[simp] theorem txDisable_notify : (txDisable s).notify = s.notify := rfl
@[simp] theorem txDisable_thrIe : (txDisable s).thrIe = s.thrIe := rfl
@[simp] theorem txDisable_doneIe : (txDisable s).doneIe = s.doneIe := rfl
@[simp] theorem txDisable_hw : (txDisable s).hw = { s.hw with txEn := false, txmem := [], thrPend := false, donePend := false } := rfl
@[simp] theorem txDisable_cq : (txDisable s).cq = s.cq := rfl
@[simp] theorem txDisable_registry : (txDisable s).registry = s.registry := rfl
@[simp] theorem txDisable_seq : (txDisable s).seq = s.seq := rfl

/-! ### txTeardown -/

@[simp] theorem txTeardown_params : (txTeardown s).params = s.params := rfl
@[simp] theorem txTeardown_ports : (txTeardown s).ports = s.ports := rfl
@[simp] theorem txTeardown_cfg : (txTeardown s).cfg = s.cfg := rfl
@[simp] theorem txTeardown_tbl : (txTeardown s).tbl = s.tbl := rfl
@[simp] theorem txTeardown_tblOk : (txTeardown s).tblOk = s.tblOk := rfl
@[simp] theorem txTeardown_chState : (txTeardown s).chState = s.chState := rfl
@[simp] theorem txTeardown_orchPhase : (txTeardown s).orchPhase = s.orchPhase := rfl
@[simp] theorem txTeardown_drvState : (txTeardown s).drvState = s.drvState := rfl
@[simp] theorem txTeardown_ring : (txTeardown s).ring = s.ring := rfl
@[simp] theorem txTeardown_hasData : (txTeardown s).hasData = s.hasData := rfl
@[simp] theorem txTeardown_paused : (txTeardown s).paused = s.paused := rfl
@[simp] theorem txTeardown_cnt : (txTeardown s).cnt = s.cnt := rfl
@[simp] theorem txTeardown_err : (txTeardown s).err = s.err := rfl
@[simp] theorem txTeardown_notify : (txTeardown s).notify = s.notify := rfl
@[simp] theorem txTeardown_thrIe : (txTeardown s).thrIe = s.thrIe := rfl
@[simp] theorem txTeardown_doneIe : (txTeardown s).doneIe = s.doneIe := rfl
@[simp] theorem txTeardown_hw : (txTeardown s).hw = { s.hw with configured := false } := rfl
@[simp] theorem txTeardown_cq : (txTeardown s).cq = s.cq := rfl
@[simp] theorem txTeardown_registry : (txTeardown s).registry = s.registry := rfl
@[simp] theorem txTeardown_seq : (txTeardown s).seq = s.seq := rfl

/-! ### abortFrameIntr -/

@[simp] theorem abortFrameIntr_params : (abortFrameIntr s).params = s.params := by simp [abortFrameIntr]
@[simp] theorem abortFrameIntr_ports : (abortFrameIntr s).ports = s.ports := by simp [abortFrameIntr]
@[simp] theorem abortFrameIntr_cfg : (abortFrameIntr s).cfg = s.cfg := by simp [abortFrameIntr]
@[simp] theorem abortFrameIntr_tbl : (abortFrameIntr s).tbl = s.tbl := by simp [abortFrameIntr]
@[simp] theorem abortFrameIntr_tblOk : (abortFrameIntr s).tblOk = s.tblOk := by simp [abortFrameIntr]
@[simp] theorem abortFrameIntr_chState : (abortFrameIntr s).chState = s.chState := by simp [abortFrameIntr]
@[simp] theorem abortFrameIntr_orchPhase : (abortFrameIntr s).orchPhase = .idle := by simp [abortFrameIntr]
@[simp] theorem abortFrameIntr_drvState : (abortFrameIntr s).drvState = .idle := by simp [abortFrameIntr]
@[simp] theorem abortFrameIntr_ring : (abortFrameIntr s).ring = s.ring := by simp [abortFrameIntr]
@[simp] theorem abortFrameIntr_hasData : (abortFrameIntr s).hasData = s.hasData := by simp [abortFrameIntr]
@[simp] theorem abortFrameIntr_paused : (abortFrameIntr s).paused = s.paused := by simp [abortFrameIntr]
@[simp] theorem abortFrameIntr_cnt : (abortFrameIntr s).cnt = { s.cnt with timeouts := s.cnt.timeouts + 1 } := by simp [abortFrameIntr]
@[simp] theorem abortFrameIntr_err : (abortFrameIntr s).err = (recordError .timeoutError (BitVec.ofNat 32 s.ring.used) s).err := by simp [abortFrameIntr]
@[simp] theorem abortFrameIntr_notify : (abortFrameIntr s).notify = s.notify := by simp [abortFrameIntr]
@[simp] theorem abortFrameIntr_thrIe : (abortFrameIntr s).thrIe = false := by simp [abortFrameIntr]
@[simp] theorem abortFrameIntr_doneIe : (abortFrameIntr s).doneIe = false := by simp [abortFrameIntr]
@[simp] theorem abortFrameIntr_hw : (abortFrameIntr s).hw = { s.hw with txEn := false, txmem := [], thrPend := false, donePend := false } := by simp [abortFrameIntr]
@[simp] theorem abortFrameIntr_cq : (abortFrameIntr s).cq = s.cq := by simp [abortFrameIntr]
@[simp] theorem abortFrameIntr_registry : (abortFrameIntr s).registry = s.registry := by simp [abortFrameIntr]
@[simp] theorem abortFrameIntr_seq : (abortFrameIntr s).seq = s.seq := by simp [abortFrameIntr]

/-! ### cqFinish -/

@[simp] theorem cqFinish_params (rc : ResultCode) (e : ErrCode) : (cqFinish rc e s).params = s.params := by simp [cqFinish]
@[simp] theorem cqFinish_ports (rc : ResultCode) (e : ErrCode) : (cqFinish rc e s).ports = s.ports.modify s.cq.port fun p => { p with rstat := rstatByte rc e, res := 0, busy := false } := by simp [cqFinish]
@[simp] theorem cqFinish_cfg (rc : ResultCode) (e : ErrCode) : (cqFinish rc e s).cfg = s.cfg := by simp [cqFinish]
@[simp] theorem cqFinish_tbl (rc : ResultCode) (e : ErrCode) : (cqFinish rc e s).tbl = s.tbl := by simp [cqFinish]
@[simp] theorem cqFinish_tblOk (rc : ResultCode) (e : ErrCode) : (cqFinish rc e s).tblOk = s.tblOk := by simp [cqFinish]
@[simp] theorem cqFinish_chState (rc : ResultCode) (e : ErrCode) : (cqFinish rc e s).chState = s.chState := by simp [cqFinish]
@[simp] theorem cqFinish_orchPhase (rc : ResultCode) (e : ErrCode) : (cqFinish rc e s).orchPhase = .idle := by simp [cqFinish]
@[simp] theorem cqFinish_drvState (rc : ResultCode) (e : ErrCode) : (cqFinish rc e s).drvState = .idle := by simp [cqFinish]
@[simp] theorem cqFinish_ring (rc : ResultCode) (e : ErrCode) : (cqFinish rc e s).ring = s.ring := by simp [cqFinish]
@[simp] theorem cqFinish_hasData (rc : ResultCode) (e : ErrCode) : (cqFinish rc e s).hasData = s.hasData := by simp [cqFinish]
@[simp] theorem cqFinish_paused (rc : ResultCode) (e : ErrCode) : (cqFinish rc e s).paused = s.paused := by simp [cqFinish]
@[simp] theorem cqFinish_cnt (rc : ResultCode) (e : ErrCode) : (cqFinish rc e s).cnt = s.cnt := by simp [cqFinish]
@[simp] theorem cqFinish_err (rc : ResultCode) (e : ErrCode) : (cqFinish rc e s).err = s.err := by simp [cqFinish]
@[simp] theorem cqFinish_notify (rc : ResultCode) (e : ErrCode) : (cqFinish rc e s).notify = s.notify := by simp [cqFinish]
@[simp] theorem cqFinish_thrIe (rc : ResultCode) (e : ErrCode) : (cqFinish rc e s).thrIe = s.thrIe := by simp [cqFinish]
@[simp] theorem cqFinish_doneIe (rc : ResultCode) (e : ErrCode) : (cqFinish rc e s).doneIe = s.doneIe := by simp [cqFinish]
@[simp] theorem cqFinish_hw (rc : ResultCode) (e : ErrCode) : (cqFinish rc e s).hw = s.hw := by simp [cqFinish]
@[simp] theorem cqFinish_cq (rc : ResultCode) (e : ErrCode) : (cqFinish rc e s).cq = { s.cq with phase := .idle, n := 0 } := by simp [cqFinish]
@[simp] theorem cqFinish_registry (rc : ResultCode) (e : ErrCode) : (cqFinish rc e s).registry = s.registry := by simp [cqFinish]
@[simp] theorem cqFinish_env (rc : ResultCode) (e : ErrCode) : (cqFinish rc e s).env = s.env := by simp [cqFinish]
@[simp] theorem cqFinish_seq (rc : ResultCode) (e : ErrCode) : (cqFinish rc e s).seq = s.seq := by simp [cqFinish]

/-! ### endWait -/

@[simp] theorem endWait_params (k : Nat) (rc : ResultCode) (e : ErrCode) : (endWait k rc e s).params = s.params := by simp [endWait]
@[simp] theorem endWait_cfg (k : Nat) (rc : ResultCode) (e : ErrCode) : (endWait k rc e s).cfg = s.cfg := by simp [endWait]
@[simp] theorem endWait_tbl (k : Nat) (rc : ResultCode) (e : ErrCode) : (endWait k rc e s).tbl = s.tbl := by simp [endWait]
@[simp] theorem endWait_tblOk (k : Nat) (rc : ResultCode) (e : ErrCode) : (endWait k rc e s).tblOk = s.tblOk := by simp [endWait]
@[simp] theorem endWait_chState (k : Nat) (rc : ResultCode) (e : ErrCode) : (endWait k rc e s).chState = s.chState := by simp [endWait]
@[simp] theorem endWait_orchPhase (k : Nat) (rc : ResultCode) (e : ErrCode) : (endWait k rc e s).orchPhase = s.orchPhase := by simp [endWait]
@[simp] theorem endWait_drvState (k : Nat) (rc : ResultCode) (e : ErrCode) : (endWait k rc e s).drvState = s.drvState := by simp [endWait]
@[simp] theorem endWait_ring (k : Nat) (rc : ResultCode) (e : ErrCode) : (endWait k rc e s).ring = s.ring := by simp [endWait]
@[simp] theorem endWait_hasData (k : Nat) (rc : ResultCode) (e : ErrCode) : (endWait k rc e s).hasData = s.hasData := by simp [endWait]
@[simp] theorem endWait_paused (k : Nat) (rc : ResultCode) (e : ErrCode) : (endWait k rc e s).paused = s.paused := by simp [endWait]
@[simp] theorem endWait_cnt (k : Nat) (rc : ResultCode) (e : ErrCode) : (endWait k rc e s).cnt = s.cnt := by simp [endWait]
@[simp] theorem endWait_err (k : Nat) (rc : ResultCode) (e : ErrCode) : (endWait k rc e s).err = s.err := by simp [endWait]
@[simp] theorem endWait_notify (k : Nat) (rc : ResultCode) (e : ErrCode) : (endWait k rc e s).notify = s.notify := by simp [endWait]
@[simp] theorem endWait_thrIe (k : Nat) (rc : ResultCode) (e : ErrCode) : (endWait k rc e s).thrIe = s.thrIe := by simp [endWait]
@[simp] theorem endWait_doneIe (k : Nat) (rc : ResultCode) (e : ErrCode) : (endWait k rc e s).doneIe = s.doneIe := by simp [endWait]
@[simp] theorem endWait_hw (k : Nat) (rc : ResultCode) (e : ErrCode) : (endWait k rc e s).hw = s.hw := by simp [endWait]
@[simp] theorem endWait_cq (k : Nat) (rc : ResultCode) (e : ErrCode) : (endWait k rc e s).cq = s.cq := by simp [endWait]
@[simp] theorem endWait_registry (k : Nat) (rc : ResultCode) (e : ErrCode) : (endWait k rc e s).registry = s.registry := by simp [endWait]
@[simp] theorem endWait_env (k : Nat) (rc : ResultCode) (e : ErrCode) : (endWait k rc e s).env = s.env := by simp [endWait]
@[simp] theorem endWait_seq (k : Nat) (rc : ResultCode) (e : ErrCode) : (endWait k rc e s).seq = s.seq := by simp [endWait]

/-! ### latchConfig -/

@[simp] theorem latchConfig_params (d : Descriptor) : (latchConfig d s).params = s.params := rfl
@[simp] theorem latchConfig_ports (d : Descriptor) : (latchConfig d s).ports = s.ports := rfl
@[simp] theorem latchConfig_cfg (d : Descriptor) : (latchConfig d s).cfg = { cfg0 := d.word0, cfg1 := d.word1, cfg2 := d.word2, cfg3 := d.word3 } := rfl
@[simp] theorem latchConfig_tbl (d : Descriptor) : (latchConfig d s).tbl = s.tbl := rfl
@[simp] theorem latchConfig_tblOk (d : Descriptor) : (latchConfig d s).tblOk = s.tblOk := rfl
@[simp] theorem latchConfig_chState (d : Descriptor) : (latchConfig d s).chState = s.chState := rfl
@[simp] theorem latchConfig_orchPhase (d : Descriptor) : (latchConfig d s).orchPhase = s.orchPhase := rfl
@[simp] theorem latchConfig_drvState (d : Descriptor) : (latchConfig d s).drvState = s.drvState := rfl
@[simp] theorem latchConfig_ring (d : Descriptor) : (latchConfig d s).ring = s.ring := rfl
@[simp] theorem latchConfig_hasData (d : Descriptor) : (latchConfig d s).hasData = s.hasData := rfl
@[simp] theorem latchConfig_paused (d : Descriptor) : (latchConfig d s).paused = s.paused := rfl
@[simp] theorem latchConfig_cnt (d : Descriptor) : (latchConfig d s).cnt = s.cnt := rfl
@[simp] theorem latchConfig_err (d : Descriptor) : (latchConfig d s).err = s.err := rfl
@[simp] theorem latchConfig_notify (d : Descriptor) : (latchConfig d s).notify = s.notify := rfl
@[simp] theorem latchConfig_thrIe (d : Descriptor) : (latchConfig d s).thrIe = s.thrIe := rfl
@[simp] theorem latchConfig_doneIe (d : Descriptor) : (latchConfig d s).doneIe = s.doneIe := rfl
@[simp] theorem latchConfig_hw (d : Descriptor) : (latchConfig d s).hw = s.hw := rfl
@[simp] theorem latchConfig_cq (d : Descriptor) : (latchConfig d s).cq = s.cq := rfl
@[simp] theorem latchConfig_registry (d : Descriptor) : (latchConfig d s).registry = s.registry := rfl
@[simp] theorem latchConfig_env (d : Descriptor) : (latchConfig d s).env = s.env := rfl
@[simp] theorem latchConfig_seq (d : Descriptor) : (latchConfig d s).seq = s.seq := rfl

/-! ### deregister -/

@[simp] theorem deregister_params : (deregister s).params = s.params := rfl
@[simp] theorem deregister_ports : (deregister s).ports = s.ports := rfl
@[simp] theorem deregister_cfg : (deregister s).cfg = s.cfg := rfl
@[simp] theorem deregister_tbl : (deregister s).tbl = s.tbl := rfl
@[simp] theorem deregister_tblOk : (deregister s).tblOk = s.tblOk := rfl
@[simp] theorem deregister_chState : (deregister s).chState = s.chState := rfl
@[simp] theorem deregister_orchPhase : (deregister s).orchPhase = s.orchPhase := rfl
@[simp] theorem deregister_drvState : (deregister s).drvState = s.drvState := rfl
@[simp] theorem deregister_ring : (deregister s).ring = s.ring := rfl
@[simp] theorem deregister_hasData : (deregister s).hasData = s.hasData := rfl
@[simp] theorem deregister_paused : (deregister s).paused = s.paused := rfl
@[simp] theorem deregister_cnt : (deregister s).cnt = s.cnt := rfl
@[simp] theorem deregister_err : (deregister s).err = s.err := rfl
@[simp] theorem deregister_notify : (deregister s).notify = s.notify := rfl
@[simp] theorem deregister_thrIe : (deregister s).thrIe = s.thrIe := rfl
@[simp] theorem deregister_doneIe : (deregister s).doneIe = s.doneIe := rfl
@[simp] theorem deregister_hw : (deregister s).hw = s.hw := rfl
@[simp] theorem deregister_cq : (deregister s).cq = s.cq := rfl
@[simp] theorem deregister_registry : (deregister s).registry = s.registry.filter (fun e => e ≠ (s.cfg.channelId, s.params.channel)) := rfl
@[simp] theorem deregister_env : (deregister s).env = s.env := rfl
@[simp] theorem deregister_seq : (deregister s).seq = s.seq := rfl

/-! ### configFail -/

@[simp] theorem configFail_params (i : Word) : (configFail i s).params = s.params := rfl
@[simp] theorem configFail_ports (i : Word) : (configFail i s).ports = s.ports.modify s.seq.cur fun p => { p with rstat := rstatByte .cfgError .configurationError, res := i, busy := false } := rfl
@[simp] theorem configFail_cfg (i : Word) : (configFail i s).cfg = s.cfg := rfl
@[simp] theorem configFail_tbl (i : Word) : (configFail i s).tbl = s.tbl := rfl
@[simp] theorem configFail_tblOk (i : Word) : (configFail i s).tblOk = s.tblOk := rfl
@[simp] theorem configFail_chState (i : Word) : (configFail i s).chState = .halted := rfl
@[simp] theorem configFail_orchPhase (i : Word) : (configFail i s).orchPhase = s.orchPhase := rfl
@[simp] theorem configFail_drvState (i : Word) : (configFail i s).drvState = s.drvState := rfl
@[simp] theorem configFail_ring (i : Word) : (configFail i s).ring = s.ring := rfl
@[simp] theorem configFail_hasData (i : Word) : (configFail i s).hasData = s.hasData := rfl
@[simp] theorem configFail_paused (i : Word) : (configFail i s).paused = s.paused := rfl
@[simp] theorem configFail_cnt (i : Word) : (configFail i s).cnt = s.cnt := rfl
@[simp] theorem configFail_err (i : Word) : (configFail i s).err = { (recordError .configurationError i s).err with restartReq := true } := rfl
@[simp] theorem configFail_notify (i : Word) : (configFail i s).notify = s.notify := rfl
@[simp] theorem configFail_thrIe (i : Word) : (configFail i s).thrIe = s.thrIe := rfl
@[simp] theorem configFail_doneIe (i : Word) : (configFail i s).doneIe = s.doneIe := rfl
@[simp] theorem configFail_hw (i : Word) : (configFail i s).hw = s.hw := rfl
@[simp] theorem configFail_cq (i : Word) : (configFail i s).cq = s.cq := rfl
@[simp] theorem configFail_registry (i : Word) : (configFail i s).registry = s.registry := rfl
@[simp] theorem configFail_env (i : Word) : (configFail i s).env = s.env := rfl
@[simp] theorem configFail_seq (i : Word) : (configFail i s).seq = s.seq := rfl

/-! ### advanceSchedule -/

@[simp] theorem advanceSchedule_params : (advanceSchedule s).params = s.params := rfl
@[simp] theorem advanceSchedule_ports : (advanceSchedule s).ports = s.ports := rfl
@[simp] theorem advanceSchedule_cfg : (advanceSchedule s).cfg = s.cfg := rfl
@[simp] theorem advanceSchedule_tbl : (advanceSchedule s).tbl = s.tbl := rfl
@[simp] theorem advanceSchedule_tblOk : (advanceSchedule s).tblOk = s.tblOk := rfl
@[simp] theorem advanceSchedule_chState : (advanceSchedule s).chState = s.chState := rfl
@[simp] theorem advanceSchedule_orchPhase : (advanceSchedule s).orchPhase = s.orchPhase := rfl
@[simp] theorem advanceSchedule_drvState : (advanceSchedule s).drvState = s.drvState := rfl
@[simp] theorem advanceSchedule_ring : (advanceSchedule s).ring = s.ring := rfl
@[simp] theorem advanceSchedule_hasData : (advanceSchedule s).hasData = s.hasData := rfl
@[simp] theorem advanceSchedule_paused : (advanceSchedule s).paused = s.paused := rfl
@[simp] theorem advanceSchedule_cnt : (advanceSchedule s).cnt = s.cnt := rfl
@[simp] theorem advanceSchedule_err : (advanceSchedule s).err = s.err := rfl
@[simp] theorem advanceSchedule_notify : (advanceSchedule s).notify = s.notify := rfl
@[simp] theorem advanceSchedule_thrIe : (advanceSchedule s).thrIe = s.thrIe := rfl
@[simp] theorem advanceSchedule_doneIe : (advanceSchedule s).doneIe = s.doneIe := rfl
@[simp] theorem advanceSchedule_hw : (advanceSchedule s).hw = s.hw := rfl
@[simp] theorem advanceSchedule_cq : (advanceSchedule s).cq = s.cq := rfl
@[simp] theorem advanceSchedule_registry : (advanceSchedule s).registry = s.registry := rfl
@[simp] theorem advanceSchedule_env : (advanceSchedule s).env = { s.env with sched := s.env.sched.tail, picked := s.env.picked + 1 } := rfl
@[simp] theorem advanceSchedule_seq : (advanceSchedule s).seq = s.seq := rfl

/-! ### takeCommand -/

@[simp] theorem takeCommand_params (k : Nat) : (takeCommand k s).params = s.params := rfl
@[simp] theorem takeCommand_ports (k : Nat) : (takeCommand k s).ports = s.ports.modify k fun p => { p with cmd := none, busy := true } := rfl
@[simp] theorem takeCommand_cfg (k : Nat) : (takeCommand k s).cfg = s.cfg := rfl
@[simp] theorem takeCommand_tbl (k : Nat) : (takeCommand k s).tbl = s.tbl := rfl
@[simp] theorem takeCommand_tblOk (k : Nat) : (takeCommand k s).tblOk = s.tblOk := rfl
@[simp] theorem takeCommand_chState (k : Nat) : (takeCommand k s).chState = s.chState := rfl
@[simp] theorem takeCommand_orchPhase (k : Nat) : (takeCommand k s).orchPhase = s.orchPhase := rfl
@[simp] theorem takeCommand_drvState (k : Nat) : (takeCommand k s).drvState = s.drvState := rfl
@[simp] theorem takeCommand_ring (k : Nat) : (takeCommand k s).ring = s.ring := rfl
@[simp] theorem takeCommand_hasData (k : Nat) : (takeCommand k s).hasData = s.hasData := rfl
@[simp] theorem takeCommand_paused (k : Nat) : (takeCommand k s).paused = s.paused := rfl
@[simp] theorem takeCommand_cnt (k : Nat) : (takeCommand k s).cnt = s.cnt := rfl
@[simp] theorem takeCommand_err (k : Nat) : (takeCommand k s).err = s.err := rfl
@[simp] theorem takeCommand_notify (k : Nat) : (takeCommand k s).notify = s.notify := rfl
@[simp] theorem takeCommand_thrIe (k : Nat) : (takeCommand k s).thrIe = s.thrIe := rfl
@[simp] theorem takeCommand_doneIe (k : Nat) : (takeCommand k s).doneIe = s.doneIe := rfl
@[simp] theorem takeCommand_hw (k : Nat) : (takeCommand k s).hw = s.hw := rfl
@[simp] theorem takeCommand_cq (k : Nat) : (takeCommand k s).cq = s.cq := rfl
@[simp] theorem takeCommand_registry (k : Nat) : (takeCommand k s).registry = s.registry := rfl
@[simp] theorem takeCommand_env (k : Nat) : (takeCommand k s).env = s.env := rfl
@[simp] theorem takeCommand_seq (k : Nat) : (takeCommand k s).seq = { s.seq with cur := k } := rfl

/-! ### takeInvocation -/

@[simp] theorem takeInvocation_params : (takeInvocation s).params = s.params := rfl
@[simp] theorem takeInvocation_ports : (takeInvocation s).ports = s.ports := rfl
@[simp] theorem takeInvocation_cfg : (takeInvocation s).cfg = s.cfg := rfl
@[simp] theorem takeInvocation_tbl : (takeInvocation s).tbl = s.tbl := rfl
@[simp] theorem takeInvocation_tblOk : (takeInvocation s).tblOk = s.tblOk := rfl
@[simp] theorem takeInvocation_chState : (takeInvocation s).chState = s.chState := rfl
@[simp] theorem takeInvocation_orchPhase : (takeInvocation s).orchPhase = s.orchPhase := rfl
@[simp] theorem takeInvocation_drvState : (takeInvocation s).drvState = s.drvState := rfl
@[simp] theorem takeInvocation_ring : (takeInvocation s).ring = s.ring := rfl
@[simp] theorem takeInvocation_hasData : (takeInvocation s).hasData = s.hasData := rfl
@[simp] theorem takeInvocation_paused : (takeInvocation s).paused = s.paused := rfl
@[simp] theorem takeInvocation_cnt : (takeInvocation s).cnt = s.cnt := rfl
@[simp] theorem takeInvocation_err : (takeInvocation s).err = s.err := rfl
@[simp] theorem takeInvocation_notify : (takeInvocation s).notify = s.notify := rfl
@[simp] theorem takeInvocation_thrIe : (takeInvocation s).thrIe = s.thrIe := rfl
@[simp] theorem takeInvocation_doneIe : (takeInvocation s).doneIe = s.doneIe := rfl
@[simp] theorem takeInvocation_hw : (takeInvocation s).hw = s.hw := rfl
@[simp] theorem takeInvocation_cq : (takeInvocation s).cq = s.cq := rfl
@[simp] theorem takeInvocation_registry : (takeInvocation s).registry = s.registry := rfl
@[simp] theorem takeInvocation_env : (takeInvocation s).env = s.env := rfl
@[simp] theorem takeInvocation_seq : (takeInvocation s).seq = { s.seq with invoke := none, answer := [] } := rfl

/-! ### hostReads -/

@[simp] theorem hostReads_params (v : Word) : (hostReads v s).params = s.params := rfl
@[simp] theorem hostReads_ports (v : Word) : (hostReads v s).ports = s.ports := rfl
@[simp] theorem hostReads_cfg (v : Word) : (hostReads v s).cfg = s.cfg := rfl
@[simp] theorem hostReads_tbl (v : Word) : (hostReads v s).tbl = s.tbl := rfl
@[simp] theorem hostReads_tblOk (v : Word) : (hostReads v s).tblOk = s.tblOk := rfl
@[simp] theorem hostReads_chState (v : Word) : (hostReads v s).chState = s.chState := rfl
@[simp] theorem hostReads_orchPhase (v : Word) : (hostReads v s).orchPhase = s.orchPhase := rfl
@[simp] theorem hostReads_drvState (v : Word) : (hostReads v s).drvState = s.drvState := rfl
@[simp] theorem hostReads_ring (v : Word) : (hostReads v s).ring = s.ring := rfl
@[simp] theorem hostReads_hasData (v : Word) : (hostReads v s).hasData = s.hasData := rfl
@[simp] theorem hostReads_paused (v : Word) : (hostReads v s).paused = s.paused := rfl
@[simp] theorem hostReads_cnt (v : Word) : (hostReads v s).cnt = s.cnt := rfl
@[simp] theorem hostReads_err (v : Word) : (hostReads v s).err = s.err := rfl
@[simp] theorem hostReads_notify (v : Word) : (hostReads v s).notify = s.notify := rfl
@[simp] theorem hostReads_thrIe (v : Word) : (hostReads v s).thrIe = s.thrIe := rfl
@[simp] theorem hostReads_doneIe (v : Word) : (hostReads v s).doneIe = s.doneIe := rfl
@[simp] theorem hostReads_hw (v : Word) : (hostReads v s).hw = s.hw := rfl
@[simp] theorem hostReads_cq (v : Word) : (hostReads v s).cq = s.cq := rfl
@[simp] theorem hostReads_registry (v : Word) : (hostReads v s).registry = s.registry := rfl
@[simp] theorem hostReads_env (v : Word) : (hostReads v s).env = { s.env with hostRead := v } := rfl
@[simp] theorem hostReads_seq (v : Word) : (hostReads v s).seq = s.seq := rfl

end Sys2Proof.Machine
end

