-- ==== Sys2Proof/Laws/Env.lean ====
section
/-! SUPPORT. Draws and data-source calls change the environment only; what they do to it. -/

namespace Sys2Proof.Machine

variable (s : State)

theorem drawWord_frame : (drawWord s).2 = { s with env := (drawWord s).2.env } := by
  unfold drawWord; split <;> rfl

theorem drawBit_frame : (drawBit s).2 = { s with env := (drawBit s).2.env } := drawWord_frame s

theorem sourceWord_frame : (sourceWord s).2 = { s with env := (sourceWord s).2.env } := by
  unfold sourceWord; split <;> rfl

theorem sourceBit_frame : (sourceBit s).2 = { s with env := (sourceBit s).2.env } := sourceWord_frame s

theorem moreAnswer_frame : (moreAnswer s).2 = { s with env := (moreAnswer s).2.env } := by
  unfold moreAnswer; split
  · rfl
  · exact sourceBit_frame s

theorem setSource_frame (src : Source) : setSource src s = { s with env := (setSource src s).env } := rfl

theorem nextAnswer_frame : (nextAnswer s).2 = { s with env := (nextAnswer s).2.env } := by
  unfold nextAnswer; split
  · rfl
  · rfl
  · dsimp only
    rw [sourceWord_frame (sourceBit s).2, sourceBit_frame s]

theorem frameStartEffect_frame : frameStartEffect s = { s with env := (frameStartEffect s).env } := by
  unfold frameStartEffect; split <;> rfl

/-- `SRC.MORE` changes the environment only (R300). -/
theorem srcMore_frame : (srcMore s).2 = { s with env := (srcMore s).2.env } := by
  unfold srcMore; rw [moreAnswer_frame]; rfl

/-- `SRC.NEXT` changes the environment only (R301). -/
theorem srcNext_frame : (srcNext s).2 = { s with env := (srcNext s).2.env } := by
  unfold srcNext; rw [nextAnswer_frame]; rfl

/-- `SRC.FRAMESTART` changes the environment only (R302). -/
theorem srcFrameStart_frame : srcFrameStart s = { s with env := (srcFrameStart s).env } := by
  unfold srcFrameStart; rw [frameStartEffect_frame]; rfl

/-! ### drawWord -/

@[simp] theorem drawWord_params : (drawWord s).2.params = s.params := by rw [drawWord_frame]
@[simp] theorem drawWord_ports : (drawWord s).2.ports = s.ports := by rw [drawWord_frame]
@[simp] theorem drawWord_cfg : (drawWord s).2.cfg = s.cfg := by rw [drawWord_frame]
@[simp] theorem drawWord_tbl : (drawWord s).2.tbl = s.tbl := by rw [drawWord_frame]
@[simp] theorem drawWord_tblOk : (drawWord s).2.tblOk = s.tblOk := by rw [drawWord_frame]
@[simp] theorem drawWord_chState : (drawWord s).2.chState = s.chState := by rw [drawWord_frame]
@[simp] theorem drawWord_orchPhase : (drawWord s).2.orchPhase = s.orchPhase := by rw [drawWord_frame]
@[simp] theorem drawWord_drvState : (drawWord s).2.drvState = s.drvState := by rw [drawWord_frame]
@[simp] theorem drawWord_ring : (drawWord s).2.ring = s.ring := by rw [drawWord_frame]
@[simp] theorem drawWord_hasData : (drawWord s).2.hasData = s.hasData := by rw [drawWord_frame]
@[simp] theorem drawWord_paused : (drawWord s).2.paused = s.paused := by rw [drawWord_frame]
@[simp] theorem drawWord_cnt : (drawWord s).2.cnt = s.cnt := by rw [drawWord_frame]
@[simp] theorem drawWord_err : (drawWord s).2.err = s.err := by rw [drawWord_frame]
@[simp] theorem drawWord_notify : (drawWord s).2.notify = s.notify := by rw [drawWord_frame]
@[simp] theorem drawWord_thrIe : (drawWord s).2.thrIe = s.thrIe := by rw [drawWord_frame]
@[simp] theorem drawWord_doneIe : (drawWord s).2.doneIe = s.doneIe := by rw [drawWord_frame]
@[simp] theorem drawWord_hw : (drawWord s).2.hw = s.hw := by rw [drawWord_frame]
@[simp] theorem drawWord_cq : (drawWord s).2.cq = s.cq := by rw [drawWord_frame]
@[simp] theorem drawWord_registry : (drawWord s).2.registry = s.registry := by rw [drawWord_frame]
@[simp] theorem drawWord_seq : (drawWord s).2.seq = s.seq := by rw [drawWord_frame]

/-! ### drawBit -/

@[simp] theorem drawBit_params : (drawBit s).2.params = s.params := by rw [drawBit_frame]
@[simp] theorem drawBit_ports : (drawBit s).2.ports = s.ports := by rw [drawBit_frame]
@[simp] theorem drawBit_cfg : (drawBit s).2.cfg = s.cfg := by rw [drawBit_frame]
@[simp] theorem drawBit_tbl : (drawBit s).2.tbl = s.tbl := by rw [drawBit_frame]
@[simp] theorem drawBit_tblOk : (drawBit s).2.tblOk = s.tblOk := by rw [drawBit_frame]
@[simp] theorem drawBit_chState : (drawBit s).2.chState = s.chState := by rw [drawBit_frame]
@[simp] theorem drawBit_orchPhase : (drawBit s).2.orchPhase = s.orchPhase := by rw [drawBit_frame]
@[simp] theorem drawBit_drvState : (drawBit s).2.drvState = s.drvState := by rw [drawBit_frame]
@[simp] theorem drawBit_ring : (drawBit s).2.ring = s.ring := by rw [drawBit_frame]
@[simp] theorem drawBit_hasData : (drawBit s).2.hasData = s.hasData := by rw [drawBit_frame]
@[simp] theorem drawBit_paused : (drawBit s).2.paused = s.paused := by rw [drawBit_frame]
@[simp] theorem drawBit_cnt : (drawBit s).2.cnt = s.cnt := by rw [drawBit_frame]
@[simp] theorem drawBit_err : (drawBit s).2.err = s.err := by rw [drawBit_frame]
@[simp] theorem drawBit_notify : (drawBit s).2.notify = s.notify := by rw [drawBit_frame]
@[simp] theorem drawBit_thrIe : (drawBit s).2.thrIe = s.thrIe := by rw [drawBit_frame]
@[simp] theorem drawBit_doneIe : (drawBit s).2.doneIe = s.doneIe := by rw [drawBit_frame]
@[simp] theorem drawBit_hw : (drawBit s).2.hw = s.hw := by rw [drawBit_frame]
@[simp] theorem drawBit_cq : (drawBit s).2.cq = s.cq := by rw [drawBit_frame]
@[simp] theorem drawBit_registry : (drawBit s).2.registry = s.registry := by rw [drawBit_frame]
@[simp] theorem drawBit_seq : (drawBit s).2.seq = s.seq := by rw [drawBit_frame]

/-! ### srcMore -/

@[simp] theorem srcMore_params : (srcMore s).2.params = s.params := by rw [srcMore_frame]
@[simp] theorem srcMore_ports : (srcMore s).2.ports = s.ports := by rw [srcMore_frame]
@[simp] theorem srcMore_cfg : (srcMore s).2.cfg = s.cfg := by rw [srcMore_frame]
@[simp] theorem srcMore_tbl : (srcMore s).2.tbl = s.tbl := by rw [srcMore_frame]
@[simp] theorem srcMore_tblOk : (srcMore s).2.tblOk = s.tblOk := by rw [srcMore_frame]
@[simp] theorem srcMore_chState : (srcMore s).2.chState = s.chState := by rw [srcMore_frame]
@[simp] theorem srcMore_orchPhase : (srcMore s).2.orchPhase = s.orchPhase := by rw [srcMore_frame]
@[simp] theorem srcMore_drvState : (srcMore s).2.drvState = s.drvState := by rw [srcMore_frame]
@[simp] theorem srcMore_ring : (srcMore s).2.ring = s.ring := by rw [srcMore_frame]
@[simp] theorem srcMore_hasData : (srcMore s).2.hasData = s.hasData := by rw [srcMore_frame]
@[simp] theorem srcMore_paused : (srcMore s).2.paused = s.paused := by rw [srcMore_frame]
@[simp] theorem srcMore_cnt : (srcMore s).2.cnt = s.cnt := by rw [srcMore_frame]
@[simp] theorem srcMore_err : (srcMore s).2.err = s.err := by rw [srcMore_frame]
@[simp] theorem srcMore_notify : (srcMore s).2.notify = s.notify := by rw [srcMore_frame]
@[simp] theorem srcMore_thrIe : (srcMore s).2.thrIe = s.thrIe := by rw [srcMore_frame]
@[simp] theorem srcMore_doneIe : (srcMore s).2.doneIe = s.doneIe := by rw [srcMore_frame]
@[simp] theorem srcMore_hw : (srcMore s).2.hw = s.hw := by rw [srcMore_frame]
@[simp] theorem srcMore_cq : (srcMore s).2.cq = s.cq := by rw [srcMore_frame]
@[simp] theorem srcMore_registry : (srcMore s).2.registry = s.registry := by rw [srcMore_frame]
@[simp] theorem srcMore_seq : (srcMore s).2.seq = s.seq := by rw [srcMore_frame]

/-! ### srcNext -/

@[simp] theorem srcNext_params : (srcNext s).2.params = s.params := by rw [srcNext_frame]
@[simp] theorem srcNext_ports : (srcNext s).2.ports = s.ports := by rw [srcNext_frame]
@[simp] theorem srcNext_cfg : (srcNext s).2.cfg = s.cfg := by rw [srcNext_frame]
@[simp] theorem srcNext_tbl : (srcNext s).2.tbl = s.tbl := by rw [srcNext_frame]
@[simp] theorem srcNext_tblOk : (srcNext s).2.tblOk = s.tblOk := by rw [srcNext_frame]
@[simp] theorem srcNext_chState : (srcNext s).2.chState = s.chState := by rw [srcNext_frame]
@[simp] theorem srcNext_orchPhase : (srcNext s).2.orchPhase = s.orchPhase := by rw [srcNext_frame]
@[simp] theorem srcNext_drvState : (srcNext s).2.drvState = s.drvState := by rw [srcNext_frame]
@[simp] theorem srcNext_ring : (srcNext s).2.ring = s.ring := by rw [srcNext_frame]
@[simp] theorem srcNext_hasData : (srcNext s).2.hasData = s.hasData := by rw [srcNext_frame]
@[simp] theorem srcNext_paused : (srcNext s).2.paused = s.paused := by rw [srcNext_frame]
@[simp] theorem srcNext_cnt : (srcNext s).2.cnt = s.cnt := by rw [srcNext_frame]
@[simp] theorem srcNext_err : (srcNext s).2.err = s.err := by rw [srcNext_frame]
@[simp] theorem srcNext_notify : (srcNext s).2.notify = s.notify := by rw [srcNext_frame]
@[simp] theorem srcNext_thrIe : (srcNext s).2.thrIe = s.thrIe := by rw [srcNext_frame]
@[simp] theorem srcNext_doneIe : (srcNext s).2.doneIe = s.doneIe := by rw [srcNext_frame]
@[simp] theorem srcNext_hw : (srcNext s).2.hw = s.hw := by rw [srcNext_frame]
@[simp] theorem srcNext_cq : (srcNext s).2.cq = s.cq := by rw [srcNext_frame]
@[simp] theorem srcNext_registry : (srcNext s).2.registry = s.registry := by rw [srcNext_frame]
@[simp] theorem srcNext_seq : (srcNext s).2.seq = s.seq := by rw [srcNext_frame]

/-! ### srcFrameStart -/

@[simp] theorem srcFrameStart_params : (srcFrameStart s).params = s.params := by rw [srcFrameStart_frame]
@[simp] theorem srcFrameStart_ports : (srcFrameStart s).ports = s.ports := by rw [srcFrameStart_frame]
@[simp] theorem srcFrameStart_cfg : (srcFrameStart s).cfg = s.cfg := by rw [srcFrameStart_frame]
@[simp] theorem srcFrameStart_tbl : (srcFrameStart s).tbl = s.tbl := by rw [srcFrameStart_frame]
@[simp] theorem srcFrameStart_tblOk : (srcFrameStart s).tblOk = s.tblOk := by rw [srcFrameStart_frame]
@[simp] theorem srcFrameStart_chState : (srcFrameStart s).chState = s.chState := by rw [srcFrameStart_frame]
@[simp] theorem srcFrameStart_orchPhase : (srcFrameStart s).orchPhase = s.orchPhase := by rw [srcFrameStart_frame]
@[simp] theorem srcFrameStart_drvState : (srcFrameStart s).drvState = s.drvState := by rw [srcFrameStart_frame]
@[simp] theorem srcFrameStart_ring : (srcFrameStart s).ring = s.ring := by rw [srcFrameStart_frame]
@[simp] theorem srcFrameStart_hasData : (srcFrameStart s).hasData = s.hasData := by rw [srcFrameStart_frame]
@[simp] theorem srcFrameStart_paused : (srcFrameStart s).paused = s.paused := by rw [srcFrameStart_frame]
@[simp] theorem srcFrameStart_cnt : (srcFrameStart s).cnt = s.cnt := by rw [srcFrameStart_frame]
@[simp] theorem srcFrameStart_err : (srcFrameStart s).err = s.err := by rw [srcFrameStart_frame]
@[simp] theorem srcFrameStart_notify : (srcFrameStart s).notify = s.notify := by rw [srcFrameStart_frame]
@[simp] theorem srcFrameStart_thrIe : (srcFrameStart s).thrIe = s.thrIe := by rw [srcFrameStart_frame]
@[simp] theorem srcFrameStart_doneIe : (srcFrameStart s).doneIe = s.doneIe := by rw [srcFrameStart_frame]
@[simp] theorem srcFrameStart_hw : (srcFrameStart s).hw = s.hw := by rw [srcFrameStart_frame]
@[simp] theorem srcFrameStart_cq : (srcFrameStart s).cq = s.cq := by rw [srcFrameStart_frame]
@[simp] theorem srcFrameStart_registry : (srcFrameStart s).registry = s.registry := by rw [srcFrameStart_frame]
@[simp] theorem srcFrameStart_seq : (srcFrameStart s).seq = s.seq := by rw [srcFrameStart_frame]

/-! ### The calls as functions of the handle and the environment -/

/-- One draw of ENV, as a function of the environment. -/
def Env.draw (e : Env) : Word × Env :=
  match e.draws with
  | w :: ws => (w, { e with draws := ws })
  | [] => (Config.freeDraw e.drawn, { e with drawn := e.drawn + 1 })

/-- One draw of SRC, as a function of the environment. -/
def Env.srcDraw (e : Env) : Word × Env :=
  match e.srcDraws with
  | w :: ws => (w, { e with srcDraws := ws })
  | [] => (Config.freeDraw e.drawn, { e with drawn := e.drawn + 1 })

/-- The source a handle names in an environment. -/
def Env.source (e : Env) (h : Word) : Source := (if h = 0 then none else e.sources.lookup h).getD .oracle

/-- `SRC.MORE`, as a function of the environment. -/
def Env.more (e : Env) (h : Word) : Bool × Env :=
  match e.source h with
  | .list _ rest => (!rest.isEmpty, e)
  | .oracle => (e.srcDraw.1.getLsbD 0, e.srcDraw.2)

/-- `SRC.NEXT`, as a function of the environment. -/
def Env.next (e : Env) (h : Word) : (Bool × Word) × Env :=
  match e.source h with
  | .list _ [] => ((false, 0), e)
  | .list all (v :: rest) => ((true, v), { e with sources := replaceSource h (.list all rest) e.sources })
  | .oracle => ((e.srcDraw.1.getLsbD 0, e.srcDraw.2.srcDraw.1), e.srcDraw.2.srcDraw.2)

/-- `SRC.FRAMESTART`, as a function of the environment. -/
def Env.frameStart (e : Env) (h : Word) : Env :=
  match e.source h with
  | .list all _ => { e with sources := replaceSource h (.list all all) e.sources }
  | .oracle => e

/-- A call is noted. -/
def Env.note (e : Env) (id : Byte) (args : List Word) : Env := { e with calls := e.calls ++ [{ id := id, args := args }] }

theorem drawWord_env : drawWord s = (s.env.draw.1, { s with env := s.env.draw.2 }) := by
  unfold drawWord Env.draw
  generalize hd : s.env.draws = ds
  cases ds with
  | cons => rfl
  | nil => simp only [hd]

theorem drawBit_env : drawBit s = (s.env.draw.1.getLsbD 0, { s with env := s.env.draw.2 }) := by
  unfold drawBit; rw [drawWord_env]

theorem sourceWord_env : sourceWord s = (s.env.srcDraw.1, { s with env := s.env.srcDraw.2 }) := by
  unfold sourceWord Env.srcDraw
  generalize hd : s.env.srcDraws = ds
  cases ds with
  | cons => rfl
  | nil => simp only [hd]

theorem sourceBit_env : sourceBit s = (s.env.srcDraw.1.getLsbD 0, { s with env := s.env.srcDraw.2 }) := by
  unfold sourceBit; rw [sourceWord_env]

theorem noteCall_eq (id : Byte) (args : List Word) : noteCall id args s = { s with env := s.env.note id args } := rfl

theorem moreAnswer_env : moreAnswer s = ((s.env.more s.cfg.srcHandle).1, { s with env := (s.env.more s.cfg.srcHandle).2 }) := by
  unfold moreAnswer Env.more
  rw [show currentSource s = s.env.source s.cfg.srcHandle from rfl, sourceBit_env]
  cases s.env.source s.cfg.srcHandle <;> rfl

theorem nextAnswer_env : nextAnswer s = ((s.env.next s.cfg.srcHandle).1, { s with env := (s.env.next s.cfg.srcHandle).2 }) := by
  unfold nextAnswer Env.next
  rw [show currentSource s = s.env.source s.cfg.srcHandle from rfl, sourceBit_env, sourceWord_env]
  rcases s.env.source s.cfg.srcHandle with _ | ⟨all, _ | ⟨v, rest⟩⟩ <;> rfl

theorem frameStartEffect_env : frameStartEffect s = { s with env := s.env.frameStart s.cfg.srcHandle } := by
  unfold frameStartEffect Env.frameStart
  rw [show currentSource s = s.env.source s.cfg.srcHandle from rfl]
  cases s.env.source s.cfg.srcHandle <;> rfl

/-- `SRC.MORE` reads the handle and the environment only (R300). -/
theorem srcMore_env : srcMore s =
    (((s.env.note 0x01 []).more s.cfg.srcHandle).1, { s with env := ((s.env.note 0x01 []).more s.cfg.srcHandle).2 }) := by
  unfold srcMore; rw [moreAnswer_env, noteCall_eq]

/-- `SRC.NEXT` reads the handle and the environment only (R301). -/
theorem srcNext_env : srcNext s =
    (((s.env.note 0x02 []).next s.cfg.srcHandle).1, { s with env := ((s.env.note 0x02 []).next s.cfg.srcHandle).2 }) := by
  unfold srcNext; rw [nextAnswer_env, noteCall_eq]

/-- `SRC.FRAMESTART` reads the handle and the environment only (R302). -/
theorem srcFrameStart_env : srcFrameStart s =
    { s with env := (s.env.note 0x03 []).frameStart s.cfg.srcHandle } := by
  unfold srcFrameStart; rw [frameStartEffect_env, noteCall_eq]

end Sys2Proof.Machine
end

