-- ==== Sys2Proof/Laws/Memory.lean ====
section
/-! SUPPORT. Word memories: a read after a write, and the canonical form that every write keeps. -/

namespace Sys2Proof.Machine

theorem Memory.read_write (m : Memory) (i j : Nat) (v : Word) :
    (m.write i v).read j = if j = i then some v else m.read j := by
  induction m with
  | nil => by_cases h : i = j <;> simp [Memory.write, Memory.read, h, eq_comm]
  | cons c m ih =>
    obtain ⟨a, w⟩ := c
    simp only [Memory.write]
    by_cases h1 : i < a
    · rw [if_pos h1]
      simp only [Memory.read]
      by_cases h : i = j
      · rw [if_pos h, if_pos h.symm]
      · rw [if_neg h, if_neg (show ¬ j = i from fun e => h e.symm)]
    · rw [if_neg h1]
      by_cases h2 : i = a
      · rw [if_pos h2]
        subst h2
        simp only [Memory.read]
        by_cases h : i = j
        · rw [if_pos h, if_pos h.symm]
        · rw [if_neg h, if_neg (fun e => h e.symm), if_neg h]
      · rw [if_neg h2]
        simp only [Memory.read, ih]
        by_cases h : a = j
        · rw [if_pos h, if_neg (by omega), if_pos h]
        · rw [if_neg h, if_neg h]

@[simp] theorem Memory.read_write_same (m : Memory) (i : Nat) (v : Word) : (m.write i v).read i = some v := by
  simp [Memory.read_write]

theorem Memory.read_write_other (m : Memory) {i j : Nat} (v : Word) (h : j ≠ i) :
    (m.write i v).read j = m.read j := by
  simp [Memory.read_write, h]

/-- The indices of a written memory are the written index and the old ones. -/
theorem Memory.mem_write {m : Memory} {i : Nat} {v : Word} {c : Nat × Word} (h : c ∈ m.write i v) :
    c.1 = i ∨ c ∈ m := by
  induction m with
  | nil => simp [Memory.write] at h; simp [h]
  | cons d m ih =>
    obtain ⟨a, w⟩ := d
    simp only [Memory.write] at h
    split at h
    · rcases List.mem_cons.1 h with rfl | h
      · exact .inl rfl
      · exact .inr h
    · split at h
      · rcases List.mem_cons.1 h with rfl | h
        · exact .inl rfl
        · exact .inr (List.mem_cons_of_mem _ h)
      · rcases List.mem_cons.1 h with rfl | h
        · exact .inr List.mem_cons_self
        · exact (ih h).imp id (List.mem_cons_of_mem _)

/-- A write keeps the canonical form. -/
theorem Memory.wf_write {m : Memory} (h : m.wf = true) (i : Nat) (v : Word) : (m.write i v).wf = true := by
  induction m with
  | nil => simp [Memory.write, Memory.wf]
  | cons c m ih =>
    obtain ⟨a, w⟩ := c
    simp only [Memory.wf, Bool.and_eq_true, List.all_eq_true, decide_eq_true_eq] at h
    obtain ⟨hall, hm⟩ := h
    simp only [Memory.write]
    split
    · rename_i hlt
      simp only [Memory.wf, Bool.and_eq_true, List.all_eq_true, decide_eq_true_eq]
      refine ⟨?_, hall, hm⟩
      intro d hd
      rcases List.mem_cons.1 hd with rfl | hd
      · exact hlt
      · exact hlt.trans (hall d hd)
    · split
      · rename_i heq
        subst heq
        simp only [Memory.wf, Bool.and_eq_true, List.all_eq_true, decide_eq_true_eq]
        exact ⟨hall, hm⟩
      · rename_i h1 h2
        simp only [Memory.wf, Bool.and_eq_true, List.all_eq_true, decide_eq_true_eq]
        refine ⟨?_, ih hm⟩
        intro d hd
        rcases Memory.mem_write hd with h | h
        · omega
        · exact hall d h

/-- Reading determines a canonical memory: equal memories are equal lists. -/
theorem Memory.read_eq_none_of_lt {m : Memory} {i : Nat} (h : ∀ c ∈ m, i < c.1) : m.read i = none := by
  induction m with
  | nil => rfl
  | cons c m ih =>
    obtain ⟨a, w⟩ := c
    have ha : i < a := h (a, w) List.mem_cons_self
    have hne : ¬ a = i := by omega
    simp only [Memory.read, hne, if_false]
    exact ih fun c hc => h c (List.mem_cons_of_mem _ hc)

theorem Memory.ext_of_wf {m n : Memory} (hm : m.wf = true) (hn : n.wf = true) (h : ∀ i, m.read i = n.read i) :
    m = n := by
  induction m generalizing n with
  | nil =>
    cases n with
    | nil => rfl
    | cons c n => have := h c.1; simp [Memory.read] at this
  | cons c m ih =>
    obtain ⟨a, w⟩ := c
    cases n with
    | nil => have := h a; simp [Memory.read] at this
    | cons d n =>
      obtain ⟨b, x⟩ := d
      simp only [Memory.wf, Bool.and_eq_true, List.all_eq_true, decide_eq_true_eq] at hm hn
      have hma : ∀ i, i ≤ a → Memory.read m i = none := fun i hi =>
        Memory.read_eq_none_of_lt fun c hc => lt_of_le_of_lt hi (hm.1 c hc)
      have hnb : ∀ i, i ≤ b → Memory.read n i = none := fun i hi =>
        Memory.read_eq_none_of_lt fun c hc => lt_of_le_of_lt hi (hn.1 c hc)
      have hab : a = b := by
        rcases lt_trichotomy a b with hlt | rfl | hlt
        · have := h a
          have hne : ¬ b = a := by omega
          simp [Memory.read, hne, hnb a hlt.le] at this
        · rfl
        · have := h b
          have hne : ¬ a = b := by omega
          simp [Memory.read, hne, hma b hlt.le] at this
      subst hab
      have hw := h a
      simp only [Memory.read, if_true, Option.some.injEq] at hw
      subst hw
      congr 1
      refine ih hm.2 hn.2 fun i => ?_
      by_cases hi : a = i
      · subst hi
        rw [hma _ le_rfl, hnb _ le_rfl]
      · have := h i
        simpa [Memory.read, hi] using this

end Sys2Proof.Machine
end

