-- ==== Sys2Proof/Laws/Ring.lean ====
section
/-! SUPPORT. The ring operations as operations on a queue, each said once; the ring property they keep. -/

namespace Sys2Proof.Machine

/-- The write index in terms of the read index and the used count. -/
theorem RingInv.widx_eq {s : State} (h : RingInv s) : s.ring.widx = (s.ring.ridx + s.ring.used) % s.params.ringCap := by
  obtain ⟨hu, hw, hr, hc⟩ := h
  rcases Nat.lt_or_ge (s.ring.ridx + s.ring.used) s.params.ringCap with h1 | h1
  · rw [Nat.mod_eq_of_lt h1]
    rcases Nat.lt_or_ge s.ring.widx s.ring.ridx with h2 | h2
    · rw [Nat.mod_eq_of_lt (by omega : s.ring.widx + s.params.ringCap - s.ring.ridx < s.params.ringCap),
        Nat.mod_eq_of_lt (by omega)] at hc
      omega
    · rw [show s.ring.widx + s.params.ringCap - s.ring.ridx = (s.ring.widx - s.ring.ridx) + s.params.ringCap by omega,
        Nat.add_mod_right, Nat.mod_eq_of_lt (by omega : s.ring.widx - s.ring.ridx < s.params.ringCap),
        Nat.mod_eq_of_lt (by omega)] at hc
      omega
  · rw [Nat.mod_eq_sub_mod h1, Nat.mod_eq_of_lt (by omega)]
    rcases Nat.lt_or_ge s.ring.widx s.ring.ridx with h2 | h2
    · rw [Nat.mod_eq_of_lt (by omega : s.ring.widx + s.params.ringCap - s.ring.ridx < s.params.ringCap)] at hc
      rcases Nat.lt_or_ge s.ring.used s.params.ringCap with h3 | h3
      · rw [Nat.mod_eq_of_lt h3] at hc; omega
      · have : s.ring.used = s.params.ringCap := by omega
        rw [this, Nat.mod_self] at hc
        omega
    · rw [show s.ring.widx + s.params.ringCap - s.ring.ridx = (s.ring.widx - s.ring.ridx) + s.params.ringCap by omega,
        Nat.add_mod_right, Nat.mod_eq_of_lt (by omega : s.ring.widx - s.ring.ridx < s.params.ringCap)] at hc
      rcases Nat.lt_or_ge s.ring.used s.params.ringCap with h3 | h3
      · rw [Nat.mod_eq_of_lt h3] at hc; omega
      · have : s.ring.used = s.params.ringCap := by omega
        rw [this, Nat.mod_self] at hc
        omega

/-- The ring property from the form of `widx_eq`. -/
theorem RingInv.of_widx {s : State} (hu : s.ring.used ≤ s.params.ringCap) (hr : s.ring.ridx < s.params.ringCap)
    (hw : s.ring.widx = (s.ring.ridx + s.ring.used) % s.params.ringCap) : RingInv s := by
  have hpos : 0 < s.params.ringCap := by omega
  refine ⟨hu, hw ▸ Nat.mod_lt _ hpos, hr, ?_⟩
  rcases Nat.lt_or_ge (s.ring.ridx + s.ring.used) s.params.ringCap with h1 | h1
  · rw [Nat.mod_eq_of_lt h1] at hw
    rw [hw, show s.ring.ridx + s.ring.used + s.params.ringCap - s.ring.ridx = s.ring.used + s.params.ringCap by omega,
      Nat.add_mod_right]
  · rw [Nat.mod_eq_sub_mod h1, Nat.mod_eq_of_lt (by omega)] at hw
    rw [hw]
    congr 1
    omega

/-- The ring property depends on the ring and the capacity only. -/
theorem RingInv.congr {s t : State} (h : RingInv s) (hr : t.ring = s.ring) (hp : t.params = s.params) : RingInv t := by
  obtain ⟨h1, h2, h3, h4⟩ := h
  exact ⟨by rw [hr, hp]; exact h1, by rw [hr, hp]; exact h2, by rw [hr, hp]; exact h3, by rw [hr, hp]; exact h4⟩

theorem slotWord_congr {s t : State} (hr : t.ring.slots = s.ring.slots) (hp : t.params = s.params) (i : Nat) :
    slotWord t i = slotWord s i := by
  unfold slotWord; rw [hr, hp]

/-- The staged codes depend on the ring and the capacity only. -/
theorem ringCodes_congr {s t : State} (hr : t.ring = s.ring) (hp : t.params = s.params) : ringCodes t = ringCodes s := by
  unfold ringCodes
  rw [hr]
  exact List.map_congr_left fun k _ => slotWord_congr (by rw [hr]) hp _

@[simp] theorem ringCodes_length (s : State) : (ringCodes s).length = s.ring.used := by simp [ringCodes]

theorem ringCodes_getElem? (s : State) (k : Nat) :
    (ringCodes s)[k]? = if k < s.ring.used then some (slotWord s (s.ring.ridx + k)) else none := by
  unfold ringCodes
  split
  · rename_i h; simp [h]
  · rename_i h; simp; omega

/-! ### RING.WR -/

/-- The state a write leaves (R170). -/
def afterWrite (code : Word) (s : State) : State :=
  { s with ring := { s.ring with
      slots := s.ring.slots.write s.ring.widx code
      widx := (s.ring.widx + 1) % s.params.ringCap
      used := s.ring.used + 1 } }

theorem ringWrite_ok {s : State} (code : Word) (h : s.ring.used ≠ s.params.ringCap) :
    ringWrite code s = .ok (afterWrite code s) := by
  unfold ringWrite; rw [if_neg h]; rfl

/-- A write on a full ring counts the overrun and faults (R170, R334). -/
theorem ringWrite_full {s : State} (code : Word) (h : s.ring.used = s.params.ringCap) :
    ringWrite code s = .error (raiseFault .overrun (BitVec.ofNat 32 s.ring.widx)
      { s with cnt := { s.cnt with overruns := s.cnt.overruns + 1 } }) := by
  unfold ringWrite; rw [if_pos h]; rfl

theorem afterWrite_ringInv {s : State} (code : Word) (h : RingInv s) (hlt : s.ring.used < s.params.ringCap) :
    RingInv (afterWrite code s) := by
  refine RingInv.of_widx (by simpa [afterWrite] using hlt) (by simpa [afterWrite] using h.ridx_lt) ?_
  simp only [afterWrite]
  rw [h.widx_eq, Nat.mod_add_mod, Nat.add_assoc]

/-- A write appends its code to the queue (R179). -/
theorem ringCodes_afterWrite {s : State} (code : Word) (h : RingInv s) (hlt : s.ring.used < s.params.ringCap) :
    ringCodes (afterWrite code s) = ringCodes s ++ [code] := by
  have hpos : 0 < s.params.ringCap := by omega
  have hw := h.widx_eq
  unfold ringCodes
  rw [show (afterWrite code s).ring.used = s.ring.used + 1 from rfl, List.range_succ, List.map_append]
  congr 1
  · refine List.map_congr_left fun k hk => ?_
    have hk : k < s.ring.used := by simpa using hk
    unfold slotWord
    simp only [afterWrite]
    rw [Memory.read_write_other _ _ ?_]
    rw [hw]
    intro e
    have hr := h.ridx_lt
    rcases Nat.lt_or_ge (s.ring.ridx + k) s.params.ringCap with h1 | h1 <;>
    rcases Nat.lt_or_ge (s.ring.ridx + s.ring.used) s.params.ringCap with h2 | h2
    · rw [Nat.mod_eq_of_lt h1, Nat.mod_eq_of_lt h2] at e; omega
    · rw [Nat.mod_eq_of_lt h1, Nat.mod_eq_sub_mod h2, Nat.mod_eq_of_lt (by omega)] at e; omega
    · omega
    · rw [Nat.mod_eq_sub_mod h1, Nat.mod_eq_of_lt (by omega), Nat.mod_eq_sub_mod h2, Nat.mod_eq_of_lt (by omega)] at e
      omega
  · simp only [List.map_cons, List.map_nil, List.cons.injEq, and_true]
    unfold slotWord
    simp only [afterWrite]
    rw [← hw]
    simp

/-! ### RING.PEEK and RING.ADV -/

theorem ringPeek_ok {s : State} {k : Nat} (h : k < s.ring.used) : ringPeek k s = .ok (slotWord s (s.ring.ridx + k)) := by
  unfold ringPeek; rw [if_neg (by omega)]

theorem ringPeek_fault {s : State} {k : Nat} (h : s.ring.used ≤ k) :
    ringPeek k s = .error (raiseFault .underflow (BitVec.ofNat 32 k) s) := by
  unfold ringPeek; rw [if_pos h]; rfl

/-- The state an advance leaves (R177). -/
def afterAdvance (n : Nat) (s : State) : State :=
  { s with ring := { s.ring with
      ridx := (s.ring.ridx + n) % s.params.ringCap
      used := s.ring.used - n } }

theorem ringAdvance_ok {s : State} {n : Nat} (h : n ≤ s.ring.used) : ringAdvance n s = .ok (afterAdvance n s) := by
  unfold ringAdvance; rw [if_neg (by omega)]; rfl

theorem ringAdvance_fault {s : State} {n : Nat} (h : s.ring.used < n) :
    ringAdvance n s = .error (raiseFault .underflow (BitVec.ofNat 32 n) s) := by
  unfold ringAdvance; rw [if_pos h]; rfl

theorem afterAdvance_ringInv {s : State} {n : Nat} (h : RingInv s) (hn : n ≤ s.ring.used) :
    RingInv (afterAdvance n s) := by
  have hpos : 0 < s.params.ringCap := Nat.zero_lt_of_lt h.ridx_lt
  refine RingInv.of_widx ?_ (Nat.mod_lt _ hpos) ?_
  · have := h.used_le; simp only [afterAdvance]; omega
  · simp only [afterAdvance]
    rw [h.widx_eq, Nat.mod_add_mod]
    congr 1
    omega

/-- An advance drops the oldest codes of the queue (R179). -/
theorem ringCodes_afterAdvance {s : State} {n : Nat} (hn : n ≤ s.ring.used) :
    ringCodes (afterAdvance n s) = (ringCodes s).drop n := by
  apply List.ext_getElem?
  intro k
  rw [List.getElem?_drop, ringCodes_getElem?, ringCodes_getElem?]
  have hu : (afterAdvance n s).ring.used = s.ring.used - n := rfl
  rw [hu]
  by_cases hk : k < s.ring.used - n
  · rw [if_pos hk, if_pos (by omega)]
    unfold slotWord
    simp only [afterAdvance]
    rw [Nat.mod_add_mod, Nat.add_assoc]
  · rw [if_neg hk, if_neg (by omega)]

/-! ### RING.RST -/

/-- The state a ring reset leaves (R172). -/
def afterReset (s : State) : State := { s with ring := { s.ring with widx := 0, ridx := 0, used := 0 } }

theorem ringReset_ok {s : State} (h : s.drvState = .idle) : ringReset s = .ok (afterReset s) := by
  unfold ringReset; rw [if_neg (by rw [h]; decide)]; rfl

theorem ringReset_fault {s : State} (h : s.drvState = .active) :
    ringReset s = .error (raiseFault .illegalReset (BitVec.ofNat 32 s.ring.used) s) := by
  unfold ringReset; rw [if_pos h]; rfl

theorem afterReset_ringInv {s : State} (h : 0 < s.params.ringCap) : RingInv (afterReset s) :=
  RingInv.of_widx (Nat.zero_le _) h (by simp [afterReset])

theorem ringCodes_afterReset (s : State) : ringCodes (afterReset s) = [] := rfl

/-! ### What a step part keeps, whether or not it faults -/

/-- A property of the state a step part leaves, normally or by a fault. -/
def Res.Leaves {α : Type} (P : State → Prop) (final : α → State) (r : Res α) : Prop :=
  match r with
  | .ok a => P (final a)
  | .error s => P s

theorem Res.Leaves.bind {P : State → Prop} {r : Res State} {f : State → Res State} (h : r.Leaves P id)
    (hf : ∀ t, P t → (f t).Leaves P id) : (r >>= f).Leaves P id := by
  cases r with
  | ok t => exact hf t h
  | error t => exact h

end Sys2Proof.Machine
end

