-- ==== Sys2Proof/Laws/Encoder.lean ====
section
/-! SUPPORT. The encoder, said once: what it can touch whether or not it faults, and what it writes when the ring has room and the
table the symbols. -/

namespace Sys2Proof.Machine

/-! ### What it can touch -/

/-- t differs from s at most in the ring, the data flag, the counters, the error state and the environment. -/
def EncTouch (s t : State) : Prop :=
  ∃ r d c e v, t = { s with ring := r, hasData := d, cnt := c, err := e, env := v }

theorem EncTouch.refl (s : State) : EncTouch s s := ⟨_, _, _, _, _, rfl⟩

theorem EncTouch.trans {s t u : State} (h : EncTouch s t) (g : EncTouch t u) : EncTouch s u := by
  obtain ⟨r, d, c, e, v, rfl⟩ := h
  obtain ⟨r', d', c', e', v', rfl⟩ := g
  exact ⟨r', d', c', e', v', rfl⟩

theorem EncTouch.leaves_trans {s t : State} {r : Res State} (h : EncTouch s t) (g : r.Leaves (EncTouch t) id) :
    r.Leaves (EncTouch s) id := by
  cases r with
  | ok u => exact h.trans g
  | error u => exact h.trans g

theorem ringWrite_touch (c : Word) (s : State) : (ringWrite c s).Leaves (EncTouch s) id := by
  unfold ringWrite
  split
  · exact ⟨_, _, _, _, _, rfl⟩
  · exact ⟨_, _, _, _, _, rfl⟩

/-- A read of the table answers a code, or faults and changes the error state only (R158, R159). -/
theorem tblRead_cases (b : BitSymbol) (s : State) :
    (∃ c, tblRead b s = .ok c) ∨ ∃ k, tblRead b s = faulting k (BitSymbol.tagWord b) s := by
  unfold tblRead
  split
  · exact .inr ⟨_, rfl⟩
  · split
    · exact .inl ⟨_, rfl⟩
    · exact .inr ⟨_, rfl⟩

theorem emitSymbol_touch (b : BitSymbol) (s : State) : (emitSymbol b s).Leaves (EncTouch s) id := by
  unfold emitSymbol
  rcases tblRead_cases b s with ⟨c, h⟩ | ⟨k, h⟩ <;> rw [h]
  · exact ringWrite_touch _ s
  · exact ⟨_, _, _, _, _, rfl⟩

theorem emitSymbols_touch (bs : List BitSymbol) (s : State) : (emitSymbols bs s).Leaves (EncTouch s) id := by
  induction bs generalizing s with
  | nil => exact .refl s
  | cons b bs ih => exact Res.Leaves.bind (emitSymbol_touch b s) fun t ht => ht.leaves_trans (ih t)

theorem srcMore_touch (s : State) : EncTouch s (srcMore s).2 := ⟨_, _, _, _, _, srcMore_frame s⟩

theorem srcNext_touch (s : State) : EncTouch s (srcNext s).2 := ⟨_, _, _, _, _, srcNext_frame s⟩

theorem EncTouch.hasData {s t : State} (h : EncTouch s t) (b : Bool) : EncTouch s { t with hasData := b } := by
  obtain ⟨r, d, c, e, v, rfl⟩ := h
  exact ⟨r, b, c, e, v, rfl⟩

theorem emitValue_touch (v : Word) (s : State) : (emitValue v s).Leaves (EncTouch s) id :=
  Res.Leaves.bind (emitSymbols_touch _ s) fun t ht =>
    (ht.trans ((srcMore_touch t).hasData _)).leaves_trans (emitSymbols_touch _ _)

theorem fillLoop_touch (n : Nat) (s : State) : (fillLoop n s).Leaves (EncTouch s) id := by
  induction n generalizing s with
  | zero => exact .refl s
  | succ n ih =>
    simp only [fillLoop]
    split
    · split
      · exact (srcNext_touch s).leaves_trans
          (Res.Leaves.bind (emitValue_touch _ _) fun t ht => ht.leaves_trans (ih t))
      · exact (srcNext_touch s).hasData false
    · exact .refl s

/-- `ENC.FILL` touches nothing else (R201). -/
theorem encoderFill_touch (s : State) : (encoderFill s).Leaves (EncTouch s) id :=
  EncTouch.leaves_trans ⟨_, _, _, _, _, rfl⟩ (fillLoop_touch _ _)

/-! ### The ring property -/

theorem ringWrite_ringInv {s : State} (c : Word) (h : RingInv s) : (ringWrite c s).Leaves RingInv id := by
  by_cases hu : s.ring.used = s.params.ringCap
  · rw [ringWrite_full c hu]; exact h.congr rfl rfl
  · rw [ringWrite_ok c hu]; exact afterWrite_ringInv c h (lt_of_le_of_ne h.used_le hu)

theorem emitSymbol_ringInv {s : State} (b : BitSymbol) (h : RingInv s) : (emitSymbol b s).Leaves RingInv id := by
  unfold emitSymbol
  rcases tblRead_cases b s with ⟨c, hr⟩ | ⟨k, hr⟩ <;> rw [hr]
  · exact ringWrite_ringInv _ h
  · exact h.congr rfl rfl

theorem emitSymbols_ringInv {s : State} (bs : List BitSymbol) (h : RingInv s) :
    (emitSymbols bs s).Leaves RingInv id := by
  induction bs generalizing s with
  | nil => exact h
  | cons b bs ih => exact Res.Leaves.bind (emitSymbol_ringInv b h) fun t ht => ih ht

theorem emitValue_ringInv {s : State} (v : Word) (h : RingInv s) : (emitValue v s).Leaves RingInv id :=
  Res.Leaves.bind (emitSymbols_ringInv _ h) fun t ht =>
    emitSymbols_ringInv _ (ht.congr (t := { (srcMore t).2 with hasData := (srcMore t).1 }) (by simp) (by simp))

theorem fillLoop_ringInv {s : State} (n : Nat) (h : RingInv s) : (fillLoop n s).Leaves RingInv id := by
  induction n generalizing s with
  | zero => exact h
  | succ n ih =>
    simp only [fillLoop]
    split
    · split
      · exact Res.Leaves.bind (emitValue_ringInv _ (h.congr (by simp) (by simp))) fun t ht => ih ht
      · exact h.congr (by simp) (by simp)
    · exact h

/-- `ENC.FILL` keeps the ring property, whether or not it faults (R180). -/
theorem encoderFill_ringInv {s : State} (h : RingInv s) : (encoderFill s).Leaves RingInv id :=
  fillLoop_ringInv _ (h.congr rfl rfl)

/-! ### The canonical form of the slots -/

theorem ringWrite_slotsWf {s : State} (c : Word) (h : s.ring.slots.wf = true) :
    (ringWrite c s).Leaves (fun t => t.ring.slots.wf = true) id := by
  unfold ringWrite
  split
  · exact h
  · exact Memory.wf_write h _ _

theorem emitSymbols_slotsWf {s : State} (bs : List BitSymbol) (h : s.ring.slots.wf = true) :
    (emitSymbols bs s).Leaves (fun t => t.ring.slots.wf = true) id := by
  induction bs generalizing s with
  | nil => exact h
  | cons b bs ih =>
    refine Res.Leaves.bind ?_ fun t ht => ih ht
    unfold emitSymbol
    rcases tblRead_cases b s with ⟨c, hr⟩ | ⟨k, hr⟩ <;> rw [hr]
    · exact ringWrite_slotsWf _ h
    · exact h

theorem fillLoop_slotsWf {s : State} (n : Nat) (h : s.ring.slots.wf = true) :
    (fillLoop n s).Leaves (fun t => t.ring.slots.wf = true) id := by
  induction n generalizing s with
  | zero => exact h
  | succ n ih =>
    simp only [fillLoop]
    split
    · split
      · refine Res.Leaves.bind (Res.Leaves.bind (emitSymbols_slotsWf _ (by simpa using h)) fun t ht => ?_) fun t ht => ih ht
        exact emitSymbols_slotsWf _ (by simpa using ht)
      · simpa [Res.Leaves] using h
    · exact h

/-- `ENC.FILL` keeps the slots' canonical form. -/
theorem encoderFill_slotsWf {s : State} (h : s.ring.slots.wf = true) :
    (encoderFill s).Leaves (fun t => t.ring.slots.wf = true) id := fillLoop_slotsWf _ h

/-! ### What it writes -/

/-- The table may be read and holds the symbol (R159). -/
def CanRead (s : State) (b : BitSymbol) : Prop := ¬ (s.chState = .reset ∨ s.tblOk = false) ∧ (s.tbl.get b).valid = true

/-- The table may be read and holds every required symbol (R38, R151). -/
structure TableReady (s : State) : Prop where
  notReset : s.chState ≠ .reset
  tblOk : s.tblOk = true
  complete : TableComplete s

theorem Configured.table {s : State} (h : Configured s) (ht : TableComplete s) : TableReady s := ⟨h.notReset, h.tblOk, ht⟩

theorem TableReady.canRead {s : State} (h : TableReady s) {b : BitSymbol} (hb : b ∈ s.cfg.required) : CanRead s b :=
  ⟨by rintro (hr | ho)
      · exact h.notReset hr
      · exact absurd (h.tblOk.symm.trans ho) (by decide), h.complete b hb⟩

theorem TableComplete.congr {s t : State} (h : TableComplete s) (hc : t.cfg = s.cfg) (ht : t.tbl = s.tbl) :
    TableComplete t := by
  intro b hb; rw [ht]; exact h b (hc ▸ hb)

theorem TableReady.congr {s t : State} (h : TableReady s) (hc : t.cfg = s.cfg) (ht : t.tbl = s.tbl) (ho : t.tblOk = s.tblOk)
    (hs : t.chState = s.chState) : TableReady t :=
  ⟨by rw [hs]; exact h.notReset, by rw [ho]; exact h.tblOk, h.complete.congr hc ht⟩

theorem tblRead_ok {s : State} {b : BitSymbol} (hv : CanRead s b) : tblRead b s = .ok (s.tbl.get b).code := by
  unfold tblRead; rw [if_neg hv.1, if_pos hv.2]

theorem emitSymbol_ok {s : State} {b : BitSymbol} (hv : CanRead s b) (hu : s.ring.used ≠ s.params.ringCap) :
    emitSymbol b s = .ok (afterWrite (s.tbl.get b).code s) := by
  unfold emitSymbol
  rw [tblRead_ok hv]
  exact ringWrite_ok _ hu

/-- Symbols with table entries, written into a ring with room for them: the ring changes, nothing else. -/
theorem emitSymbols_ok {bs : List BitSymbol} {s : State} (h : RingInv s) (hv : ∀ b ∈ bs, CanRead s b)
    (hu : s.ring.used + bs.length ≤ s.params.ringCap) :
    ∃ r, emitSymbols bs s = .ok { s with ring := r } ∧ RingInv { s with ring := r } ∧
      ringCodes { s with ring := r } = ringCodes s ++ bs.map (fun b => (s.tbl.get b).code) ∧
      r.used = s.ring.used + bs.length ∧ r.ridx = s.ring.ridx := by
  induction bs generalizing s with
  | nil => exact ⟨s.ring, rfl, h, by simp, rfl, rfl⟩
  | cons b bs ih =>
    simp only [List.length_cons] at hu
    have hlt : s.ring.used < s.params.ringCap := by omega
    have h1 := emitSymbol_ok (hv b List.mem_cons_self) (by omega)
    obtain ⟨r, hr, hinv, hcodes, hused, hridx⟩ := ih (s := afterWrite (s.tbl.get b).code s) (afterWrite_ringInv _ h hlt)
      (fun c hc => hv c (List.mem_cons_of_mem _ hc)) (by simp only [afterWrite]; omega)
    refine ⟨r, ?_, hinv, ?_, ?_, hridx⟩
    · simp only [emitSymbols, h1]
      exact hr
    · rw [ringCodes_afterWrite _ h hlt] at hcodes
      refine Eq.trans hcodes ?_
      simp [afterWrite]
    · rw [hused]; simp only [afterWrite, List.length_cons]; omega

/-- The table holds the symbols of the data bits and of every trailer. -/
theorem TableReady.bits {s : State} (h : TableReady s) (bs : List Bool) :
    ∀ b ∈ bs.map bitSymbol, CanRead s b := by
  intro b hb
  obtain ⟨x, -, rfl⟩ := List.mem_map.1 hb
  apply h.canRead
  cases x <;> simp [bitSymbol, Cfg.required]

theorem TableReady.trailer {s : State} (h : TableReady s) (m : Bool) :
    ∀ b ∈ (s.cfg.trailer m).toList, CanRead s b := by
  intro b hb
  apply h.canRead
  unfold Cfg.trailer at hb
  split at hb
  · simp_all [Cfg.required]
  · split at hb
    · simp_all [Cfg.required]
    · simp at hb

theorem TableReady.framing {s : State} (h : TableReady s) :
    ∀ b ∈ List.replicate s.cfg.idleBits BitSymbol.ifg ++ List.replicate s.cfg.startBits BitSymbol.frameStart,
      CanRead s b := by
  intro b hb
  apply h.canRead
  rcases List.mem_append.1 hb with hb | hb
  · obtain ⟨hn, rfl⟩ := List.mem_replicate.1 hb
    have : 0 < s.cfg.idleBits := by omega
    simp [Cfg.required, this]
  · obtain ⟨hn, rfl⟩ := List.mem_replicate.1 hb
    have : 0 < s.cfg.startBits := by omega
    simp [Cfg.required, this]

theorem valueCodes_eq (s : State) (v : Word) :
    ((valueBits s.cfg.lsbFirst s.cfg.width v).map bitSymbol).map (fun b => (s.tbl.get b).code) = valueCodes s v := by
  unfold valueCodes
  rw [List.map_map]
  refine List.map_congr_left fun b _ => ?_
  cases b <;> rfl

theorem trailerCodes_eq (s : State) (m : Bool) :
    (s.cfg.trailer m).toList.map (fun b => (s.tbl.get b).code) = trailerCodes s m := by
  unfold Cfg.trailer trailerCodes
  cases m <;> cases s.cfg.eofEn <;> cases s.cfg.stopEn <;> rfl

@[simp] theorem valueCodes_length (s : State) (v : Word) : (valueCodes s v).length = s.cfg.width := by
  simp [valueCodes, valueBits]

theorem trailer_length (c : Cfg) (m : Bool) : c.width + (c.trailer m).toList.length ≤ c.slotsPerValue := by
  unfold Cfg.trailer Cfg.slotsPerValue
  cases m <;> cases c.eofEn <;> cases c.stopEn <;> simp

/-- `EMIT_VALUE` with room for S codes (R202, R204, R207): the ring, the data flag and the environment change. -/
theorem emitValue_ok {s : State} (v : Word) (h : RingInv s) (ht : TableReady s)
    (hu : s.ring.used + s.cfg.slotsPerValue ≤ s.params.ringCap) :
    ∃ r : Ring,
      emitValue v s = .ok { s with ring := r, hasData := (srcMore s).1, env := (srcMore s).2.env } ∧
      RingInv { s with ring := r } ∧
      ringCodes { s with ring := r } = ringCodes s ++ (valueCodes s v ++ trailerCodes s (srcMore s).1) ∧
      s.ring.used + s.cfg.width ≤ r.used ∧ r.used ≤ s.ring.used + s.cfg.slotsPerValue ∧ r.ridx = s.ring.ridx := by
  have hlen := trailer_length s.cfg
  obtain ⟨r1, h1, hinv1, hc1, hu1, hr1⟩ := emitSymbols_ok (bs := (valueBits s.cfg.lsbFirst s.cfg.width v).map bitSymbol) h
    (ht.bits _) (by have := hlen true; simp [valueBits]; omega)
  simp only [List.length_map, valueBits, List.length_range] at hu1
  rw [valueCodes_eq] at hc1
  have hsrc : srcMore { s with ring := r1 } = ((srcMore s).1, { s with ring := r1, env := (srcMore s).2.env }) := by
    rw [srcMore_env, srcMore_env]
  obtain ⟨r2, h2, hinv2, hc2, hu2, hr2⟩ := emitSymbols_ok (bs := (s.cfg.trailer (srcMore s).1).toList)
    (s := { s with ring := r1, hasData := (srcMore s).1, env := (srcMore s).2.env })
    (hinv1.congr rfl rfl) ((ht.congr rfl rfl rfl rfl : TableReady _).trailer _) (by have := hlen (srcMore s).1; simp only; omega)
  refine ⟨r2, ?_, hinv2.congr rfl rfl, ?_, ?_, ?_, hr2.trans hr1⟩
  · simp only [emitValue, h1, bind, Except.bind, hsrc]
    exact h2
  · have h3 : ringCodes { s with ring := r1, hasData := (srcMore s).1, env := (srcMore s).2.env } = ringCodes s ++ valueCodes s v := by
      rw [← hc1]; exact ringCodes_congr rfl rfl
    rw [h3] at hc2
    rw [← List.append_assoc, ← trailerCodes_eq]
    exact (ringCodes_congr rfl rfl).trans hc2
  · simp only at hu2; omega
  · simp only at hu2; have := hlen (srcMore s).1; omega

/-- The loop of `ENC.FILL` on a ring with the ring property and a complete table (R201, R204, R206): it ends without a fault,
having appended whole values, and stops only for want of room or of data. -/
theorem fillLoop_ok {n : Nat} {s : State} (h : RingInv s) (ht : TableReady s) (hw : 1 ≤ s.cfg.width)
    (hn : freeSlots s ≤ n) :
    ∃ (r : Ring) (d : Bool) (e : Env) (vs : List (Word × Bool)),
      fillLoop n s = .ok { s with ring := r, hasData := d, env := e } ∧
      RingInv { s with ring := r } ∧
      ringCodes { s with ring := r } = ringCodes s ++ vs.flatMap (fun p => valueCodes s p.1 ++ trailerCodes s p.2) ∧
      (d = true → s.params.ringCap - r.used ≤ s.cfg.slotsPerValue) ∧ (s.hasData = false → d = false) ∧
      s.ring.used ≤ r.used ∧ r.ridx = s.ring.ridx := by
  induction n generalizing s with
  | zero =>
    refine ⟨s.ring, s.hasData, s.env, [], rfl, h, by simp, fun _ => ?_, id, le_rfl, rfl⟩
    have : s.params.ringCap - s.ring.used ≤ 0 := hn
    omega
  | succ n ih =>
    simp only [fillLoop]
    by_cases hc : s.cfg.slotsPerValue < freeSlots s ∧ s.hasData = true
    · rw [if_pos hc]
      have hroom : s.ring.used + s.cfg.slotsPerValue ≤ s.params.ringCap := by
        have := hc.1; have := h.used_le; unfold freeSlots at *; omega
      by_cases hv : (srcNext s).1.1 = true
      · rw [if_pos hv]
        have hinv : RingInv (srcNext s).2 := h.congr (by simp) (by simp)
        have htab : TableReady (srcNext s).2 := ht.congr (by simp) (by simp) (by simp) (by simp)
        obtain ⟨r, h1, hinv1, hc1, hlo, hhi, hr⟩ := emitValue_ok (srcNext s).1.2 hinv htab (by simpa using hroom)
        generalize hu : ({ (srcNext s).2 with
          ring := r, hasData := (srcMore (srcNext s).2).1, env := (srcMore (srcNext s).2).2.env } : State) = u at h1
        have hu' : u = { s with ring := r, hasData := (srcMore (srcNext s).2).1, env := (srcMore (srcNext s).2).2.env } := by
          rw [← hu, srcNext_frame s]
        simp only [srcNext_ring, srcNext_cfg] at hlo hhi hr
        obtain ⟨r2, d2, e2, vs, h2, hinv2, hc2, hd2, -, hu2, hr2⟩ := ih (s := u) (hinv1.congr (by rw [hu']) (by rw [hu']; simp))
          (ht.congr (by rw [hu']) (by rw [hu']) (by rw [hu']) (by rw [hu'])) (by rw [hu']; exact hw)
          (by rw [hu']; unfold freeSlots at *; simp only at *; omega)
        refine ⟨r2, d2, e2, ((srcNext s).1.2, (srcMore (srcNext s).2).1) :: vs, ?_, hinv2.congr rfl (by rw [hu']), ?_, ?_,
          fun e => absurd (hc.2.symm.trans e) (by decide), ?_, ?_⟩
        · simp only [h1, bind, Except.bind, h2]; rw [hu']
        · have a1 : ringCodes u = ringCodes { (srcNext s).2 with ring := r } :=
            ringCodes_congr (by rw [hu']) (by rw [hu']; simp)
          have a2 : ringCodes ({ s with ring := r2 } : State) = ringCodes { u with ring := r2 } :=
            ringCodes_congr rfl (by rw [hu'])
          have a3 : ringCodes (srcNext s).2 = ringCodes s := ringCodes_congr (by simp) (by simp)
          rw [a2, hc2, a1, hc1, a3, List.append_assoc, List.flatMap_cons]
          have b1 : ∀ w, valueCodes (srcNext s).2 w = valueCodes s w := fun w => by simp [valueCodes]
          have b2 : ∀ m, trailerCodes (srcNext s).2 m = trailerCodes s m := fun m => by simp [trailerCodes]
          have b3 : ∀ w, valueCodes u w = valueCodes s w := fun w => by rw [hu']; rfl
          have b4 : ∀ m, trailerCodes u m = trailerCodes s m := fun m => by rw [hu']; rfl
          simp only [b1, b2, b3, b4]
        · intro hd; have := hd2 hd; rw [hu'] at this; exact this
        · rw [hu'] at hu2; simp only at hu2; omega
        · rw [hr2, hu']; exact hr
      · rw [if_neg hv]
        refine ⟨s.ring, false, (srcNext s).2.env, [], ?_, h, by simp, by simp, by simp, le_rfl, rfl⟩
        rw [srcNext_frame s]
    · rw [if_neg hc]
      refine ⟨s.ring, s.hasData, s.env, [], rfl, h, by simp, fun hd => ?_, id, le_rfl, rfl⟩
      unfold freeSlots at hc
      by_contra hlt
      exact hc ⟨by omega, hd⟩

/-- `ENC.FILL` on a ring with the ring property and a complete table (R201, R204 to R206). -/
theorem encoderFill_ok {s : State} (h : RingInv s) (ht : TableComplete s) (hc : Configured s) :
    ∃ (r : Ring) (d : Bool) (e : Env) (vs : List (Word × Bool)),
      encoderFill s = .ok { s with ring := r, hasData := d, env := e, cnt := { s.cnt with fills := s.cnt.fills + 1 } } ∧
      RingInv { s with ring := r } ∧
      ringCodes { s with ring := r } = ringCodes s ++ vs.flatMap (fun p => valueCodes s p.1 ++ trailerCodes s p.2) ∧
      (d = true → s.params.ringCap - r.used ≤ s.cfg.slotsPerValue) ∧ (s.hasData = false → d = false) ∧
      s.ring.used ≤ r.used ∧ r.ridx = s.ring.ridx := by
  obtain ⟨r, d, e, vs, h1, h2, h3, h4, h5, h6, h7⟩ := fillLoop_ok (n := s.params.ringCap)
    (s := { s with cnt := { s.cnt with fills := s.cnt.fills + 1 } }) (h.congr rfl rfl) ((hc.table ht).congr rfl rfl rfl rfl) hc.width_pos
    (by unfold freeSlots; simp only; omega)
  refine ⟨r, d, e, vs, h1, h2.congr rfl rfl, ?_, h4, h5, h6, h7⟩
  exact (ringCodes_congr rfl rfl).trans (h3.trans (by congr 1))

/-! ### List sources (R304) -/

theorem lookup_replaceSource {h : Word} {src x : Source} {l : List (Word × Source)} (hl : l.lookup h = some x) :
    (replaceSource h src l).lookup h = some src := by
  induction l with
  | nil => simp at hl
  | cons p l ih =>
    obtain ⟨a, b⟩ := p
    by_cases ha : a = h
    · subst ha; simp [replaceSource]
    · have ha' : (h == a) = false := by simpa using fun e => ha e.symm
      simp only [List.lookup, ha'] at hl
      have := ih hl
      simp only [replaceSource, List.map_cons, ha, if_false, List.lookup, ha'] at *
      exact this

theorem Env.source_list {e : Env} {h : Word} {all rest : List Word} (hs : e.source h = .list all rest) :
    ¬ h = 0 ∧ e.sources.lookup h = some (.list all rest) := by
  unfold Env.source at hs
  by_cases h0 : h = 0
  · simp [h0] at hs
  · rw [if_neg h0] at hs
    refine ⟨h0, ?_⟩
    cases hl : e.sources.lookup h with
    | none => simp [hl] at hs
    | some x => simpa [hl] using hs

theorem Env.next_list {e : Env} {h : Word} {all rest : List Word} {v : Word} (hs : e.source h = .list all (v :: rest)) :
    (e.next h).1 = (true, v) ∧ (e.next h).2.source h = .list all rest := by
  obtain ⟨h0, hl⟩ := Env.source_list hs
  unfold Env.next
  rw [hs]
  refine ⟨rfl, ?_⟩
  unfold Env.source
  rw [if_neg h0, lookup_replaceSource hl]
  rfl

theorem Env.more_list {e : Env} {h : Word} {all rest : List Word} (hs : e.source h = .list all rest) :
    e.more h = (!rest.isEmpty, e) := by
  unfold Env.more; rw [hs]

@[simp] theorem Env.note_source (e : Env) (h : Word) (id : Byte) (args : List Word) :
    (e.note id args).source h = e.source h := rfl

/-- The loop of `ENC.FILL` on a list source whose latest `SRC.MORE` answer stands in the data flag: it writes the codes of the
next values, and leaves the flag and the cursor in step (R202, R207, R208, R304). -/
theorem fillLoop_list {n : Nat} {s : State} {all vs : List Word} (h : RingInv s) (ht : TableReady s)
    (hw : 1 ≤ s.cfg.width) (hn : freeSlots s ≤ n) (hs : s.env.source s.cfg.srcHandle = .list all vs)
    (hd : s.hasData = !vs.isEmpty) :
    ∃ (r : Ring) (e : Env) (k : Nat),
      fillLoop n s = .ok { s with ring := r, hasData := !(vs.drop k).isEmpty, env := e } ∧
      k ≤ vs.length ∧ e.source s.cfg.srcHandle = .list all (vs.drop k) ∧
      ringCodes { s with ring := r } = ringCodes s ++ encodedValues s (!(vs.drop k).isEmpty) (vs.take k) := by
  induction n generalizing s vs with
  | zero =>
    refine ⟨s.ring, s.env, 0, ?_, Nat.zero_le _, by simpa using hs, by simp [encodedValues]⟩
    simp only [List.drop_zero, ← hd]; rfl
  | succ n ih =>
    simp only [fillLoop]
    by_cases hc : s.cfg.slotsPerValue < freeSlots s ∧ s.hasData = true
    · rw [if_pos hc]
      have hroom : s.ring.used + s.cfg.slotsPerValue ≤ s.params.ringCap := by
        have := hc.1; have := h.used_le; unfold freeSlots at *; omega
      cases vs with
      | nil => rw [hd] at hc; simp at hc
      | cons v rest =>
        have hnx := Env.next_list (e := s.env.note 0x02 []) (h := s.cfg.srcHandle) (by simpa using hs)
        have hv : (srcNext s).1 = (true, v) := by rw [srcNext_env]; exact hnx.1
        have hsrc : (srcNext s).2.env.source s.cfg.srcHandle = .list all rest := by rw [srcNext_env]; exact hnx.2
        rw [hv, if_pos rfl]
        have hm : srcMore (srcNext s).2 = (!rest.isEmpty, { (srcNext s).2 with env := (srcNext s).2.env.note 0x01 [] }) := by
          rw [srcMore_env, Env.more_list (rest := rest) (all := all) (by simpa using hsrc)]
        have hinv : RingInv (srcNext s).2 := h.congr (by simp) (by simp)
        have htab : TableReady (srcNext s).2 := ht.congr (by simp) (by simp) (by simp) (by simp)
        obtain ⟨r, h1, hinv1, hc1, hlo, hhi, hr⟩ := emitValue_ok v hinv htab (by simpa using hroom)
        rw [hm] at h1 hc1
        generalize hu : ({ (srcNext s).2 with
          ring := r, hasData := !rest.isEmpty, env := (srcNext s).2.env.note 0x01 [] } : State) = u at h1
        have hu' : u = { s with ring := r, hasData := !rest.isEmpty, env := (srcNext s).2.env.note 0x01 [] } := by
          rw [← hu, srcNext_frame s]
        simp only [srcNext_ring, srcNext_cfg] at hlo hhi hr
        obtain ⟨r2, e2, k, h2, hk, hsrc2, hc2⟩ := ih (s := u) (vs := rest) (hinv1.congr (by rw [hu']) (by rw [hu']; simp))
          (ht.congr (by rw [hu']) (by rw [hu']) (by rw [hu']) (by rw [hu'])) (by rw [hu']; exact hw)
          (by rw [hu']; unfold freeSlots at *; simp only at *; omega) (by rw [hu']; simpa using hsrc) (by rw [hu'])
        refine ⟨r2, e2, k + 1, ?_, by simpa using hk, ?_, ?_⟩
        · simp only [h1, bind, Except.bind, h2, List.drop_succ_cons]; rw [hu']
        · rw [hu'] at hsrc2; simpa using hsrc2
        · have a1 : ringCodes u = ringCodes { (srcNext s).2 with ring := r } :=
            ringCodes_congr (by rw [hu']) (by rw [hu']; simp)
          have a2 : ringCodes ({ s with ring := r2 } : State) = ringCodes { u with ring := r2 } :=
            ringCodes_congr rfl (by rw [hu'])
          have a3 : ringCodes (srcNext s).2 = ringCodes s := ringCodes_congr (by simp) (by simp)
          have b1 : valueCodes (srcNext s).2 v = valueCodes s v := by simp [valueCodes]
          have b2 : ∀ m, trailerCodes (srcNext s).2 m = trailerCodes s m := fun m => by simp [trailerCodes]
          have b3 : ∀ m ws, encodedValues u m ws = encodedValues s m ws := by
            intro m ws
            induction ws with
            | nil => rfl
            | cons a ws ihw =>
              cases ws with
              | nil => rw [hu']; rfl
              | cons b ws =>
                simp only [encodedValues] at ihw ⊢
                rw [ihw, hu']; rfl
          rw [a2, hc2, a1, hc1, a3, List.append_assoc, b1, b2, b3, List.take_succ_cons, List.drop_succ_cons]
          congr 1
          cases k with
          | zero => simp [encodedValues]
          | succ k =>
            cases rest with
            | nil => simp at hk
            | cons w ws => simp [encodedValues]
    · rw [if_neg hc]
      refine ⟨s.ring, s.env, 0, ?_, Nat.zero_le _, by simpa using hs, by simp [encodedValues]⟩
      simp only [List.drop_zero, ← hd]

end Sys2Proof.Machine
end

