-- ==== Sys2Proof/Laws/Driver.lean ====
section
/-! SUPPORT. The driver, said once: moving a chunk, the handler body, the completion-queue step, and what none of them touches. -/

namespace Sys2Proof.Machine

/-! ### What no frame operation touches -/

/-- t has the parameters, configuration, table, channel state, pause flag, registry and sequencer latches of s. -/
structure CoreSame (s t : State) : Prop where
  params : t.params = s.params
  cfg : t.cfg = s.cfg
  tbl : t.tbl = s.tbl
  tblOk : t.tblOk = s.tblOk
  chState : t.chState = s.chState
  paused : t.paused = s.paused
  registry : t.registry = s.registry
  seq : t.seq = s.seq

theorem CoreSame.refl (s : State) : CoreSame s s := ⟨rfl, rfl, rfl, rfl, rfl, rfl, rfl, rfl⟩

theorem CoreSame.trans {s t u : State} (h : CoreSame s t) (g : CoreSame t u) : CoreSame s u :=
  ⟨g.params.trans h.params, g.cfg.trans h.cfg, g.tbl.trans h.tbl, g.tblOk.trans h.tblOk, g.chState.trans h.chState,
    g.paused.trans h.paused, g.registry.trans h.registry, g.seq.trans h.seq⟩

theorem EncTouch.coreSame {s t : State} (h : EncTouch s t) : CoreSame s t := by
  obtain ⟨r, d, c, e, v, rfl⟩ := h
  exact ⟨rfl, rfl, rfl, rfl, rfl, rfl, rfl, rfl⟩

theorem CoreSame.leaves_trans {s t : State} {r : Res State} (h : CoreSame s t) (g : r.Leaves (CoreSame t) id) :
    r.Leaves (CoreSame s) id := by
  cases r with
  | ok u => exact h.trans g
  | error u => exact h.trans g

theorem Res.Leaves.mono {P Q : State → Prop} {r : Res State} (h : r.Leaves P id) (hpq : ∀ t, P t → Q t) : r.Leaves Q id := by
  cases r with
  | ok u => exact hpq _ h
  | error u => exact hpq _ h

theorem ringAdvance_coreSame (n : Nat) (s : State) : (ringAdvance n s).Leaves (CoreSame s) id := by
  unfold ringAdvance; split <;> exact ⟨rfl, rfl, rfl, rfl, rfl, rfl, rfl, rfl⟩

theorem ringReset_coreSame (s : State) : (ringReset s).Leaves (CoreSame s) id := by
  unfold ringReset; split <;> exact ⟨rfl, rfl, rfl, rfl, rfl, rfl, rfl, rfl⟩

theorem pushChunk_coreSame (m j : Nat) (s : State) : (pushChunk m j s).Leaves (CoreSame s) id := by
  induction m generalizing j s with
  | zero => exact .refl s
  | succ m ih =>
    unfold pushChunk ringPeek
    split
    · exact ⟨rfl, rfl, rfl, rfl, rfl, rfl, rfl, rfl⟩
    · unfold push
      dsimp only [bind, Except.bind]
      split
      · rename_i h; split at h
        · cases h; exact ⟨rfl, rfl, rfl, rfl, rfl, rfl, rfl, rfl⟩
        · cases h
      · rename_i h; split at h
        · cases h
        · cases h; exact CoreSame.leaves_trans
            (t := { s with hw := { s.hw with txmem := s.hw.txmem ++ [slotWord s (s.ring.ridx + j)] } })
            ⟨rfl, rfl, rfl, rfl, rfl, rfl, rfl, rfl⟩ (ih _ _)

theorem copyChunk_coreSame (m j : Nat) (s : State) : (copyChunk m j s).Leaves (CoreSame s) id := by
  induction m generalizing j s with
  | zero => exact .refl s
  | succ m ih =>
    unfold copyChunk ringPeek
    split
    · exact ⟨rfl, rfl, rfl, rfl, rfl, rfl, rfl, rfl⟩
    · exact CoreSame.leaves_trans
        (t := { s with cq := { s.cq with scratch := s.cq.scratch.write j (slotWord s (s.ring.ridx + j)) } })
        ⟨rfl, rfl, rfl, rfl, rfl, rfl, rfl, rfl⟩ (ih _ _)

theorem encoderFill_coreSame (s : State) : (encoderFill s).Leaves (CoreSame s) id :=
  (encoderFill_touch s).mono fun _ h => h.coreSame

theorem driverService_coreSame (s : State) : (driverService s).Leaves (CoreSame s) id := by
  unfold driverService
  refine Res.Leaves.bind (pushChunk_coreSame _ _ s) fun t ht => ?_
  refine Res.Leaves.bind (ht.leaves_trans (ringAdvance_coreSame _ t)) fun u hu => ?_
  refine Res.Leaves.bind (CoreSame.leaves_trans (t := countEntries (intrChunk s) u)
    (hu.trans ⟨rfl, rfl, rfl, rfl, rfl, rfl, rfl, rfl⟩) (encoderFill_coreSame (countEntries (intrChunk s) u))) fun v hv => ?_
  split
  · exact hv.trans ⟨by simp, by simp, by simp, by simp, by simp, by simp, by simp, by simp⟩
  · exact hv

theorem primeIntr_coreSame (s : State) : (primeIntr s).Leaves (CoreSame s) id := by
  unfold primeIntr
  refine Res.Leaves.bind (driverService_coreSame s) fun t ht => ?_
  dsimp only
  split
  · exact ht.trans ⟨rfl, rfl, rfl, rfl, rfl, rfl, rfl, rfl⟩
  · exact ht.trans ⟨rfl, rfl, rfl, rfl, rfl, rfl, rfl, rfl⟩

theorem txTransmit_frame (codes : List Word) (s : State) :
    (txTransmit codes s).2 = { s with hw := (txTransmit codes s).2.hw, env := (txTransmit codes s).2.env } := by
  unfold txTransmit
  simp only [drawBit_env, drawWord_env, noteCall_eq]
  split <;> rfl

theorem txAwait_frame (s : State) :
    (txAwait s).2 = { s with hw := (txAwait s).2.hw, env := (txAwait s).2.env } := by
  unfold txAwait
  simp only [drawBit_env, noteCall_eq]
  split <;> rfl

theorem txTransmit_coreSame (codes : List Word) (s : State) : CoreSame s (txTransmit codes s).2 := by
  rw [txTransmit_frame]; exact ⟨rfl, rfl, rfl, rfl, rfl, rfl, rfl, rfl⟩

theorem txAwait_coreSame (s : State) : CoreSame s (txAwait s).2 := by
  rw [txAwait_frame]; exact ⟨rfl, rfl, rfl, rfl, rfl, rfl, rfl, rfl⟩

theorem cqFinish_coreSame (rc : ResultCode) (e : ErrCode) (s : State) : CoreSame s (cqFinish rc e s) :=
  ⟨by simp, by simp, by simp, by simp, by simp, by simp, by simp, by simp⟩

theorem cqStep_coreSame (s : State) : (cqStep s).Leaves (CoreSame s) id := by
  unfold cqStep
  split
  · exact .refl s
  · unfold cqSend
    split
    · exact cqFinish_coreSame _ _ s
    · refine Res.Leaves.bind (copyChunk_coreSame _ _ s) fun t ht => ?_
      dsimp only
      generalize hu : ({ t with cq := { t.cq with n := min s.params.maxChunk s.ring.used } } : State) = u
      have hsu : CoreSame s u := ht.trans (by rw [← hu]; exact ⟨rfl, rfl, rfl, rfl, rfl, rfl, rfl, rfl⟩)
      generalize scratchRun u (min s.params.maxChunk s.ring.used) = codes
      have hr := hsu.trans (txTransmit_coreSame codes u)
      split
      · exact hr.trans ⟨rfl, rfl, rfl, rfl, rfl, rfl, rfl, rfl⟩
      · exact hr.trans ⟨by simp [transmitFailed], by simp [transmitFailed], by simp [transmitFailed], by simp [transmitFailed],
          by simp [transmitFailed], by simp [transmitFailed], by simp [transmitFailed], by simp [transmitFailed]⟩
  · unfold cqAwait
    dsimp only
    split
    · refine Res.Leaves.bind (r := advanceAndFill (txAwait s).2) ?_ fun t ht => CoreSame.trans ht ⟨rfl, rfl, rfl, rfl, rfl, rfl, rfl, rfl⟩
      refine (txAwait_coreSame s).leaves_trans ?_
      unfold advanceAndFill
      refine Res.Leaves.bind (ringAdvance_coreSame _ _) fun t ht => ?_
      refine CoreSame.leaves_trans (CoreSame.trans ht ?_) (encoderFill_coreSame _)
      exact ⟨rfl, rfl, rfl, rfl, rfl, rfl, rfl, rfl⟩
    · exact (txAwait_coreSame s).trans ⟨by simp, by simp, by simp, by simp, by simp, by simp, by simp, by simp⟩

/-! ### Moving a chunk -/

/-- m codes from offset j on move into a transmitter with room for them, in ring order (R225, R227). -/
theorem pushChunk_ok {m j : Nat} {s : State} (hu : j + m ≤ s.ring.used)
    (hd : s.hw.txmem.length + m ≤ s.params.hwDepth) :
    pushChunk m j s = .ok { s with hw := { s.hw with txmem := s.hw.txmem ++ ((ringCodes s).drop j).take m } } := by
  induction m generalizing j s with
  | zero => simp [pushChunk]
  | succ m ih =>
    have hj : j < s.ring.used := by omega
    have hne : ¬ s.hw.txmem.length = s.params.hwDepth := by omega
    unfold pushChunk
    rw [ringPeek_ok hj]
    simp only [bind, Except.bind, push, if_neg hne]
    rw [ih (s := { s with hw := { s.hw with txmem := s.hw.txmem ++ [slotWord s (s.ring.ridx + j)] } }) (by simpa using (by omega))
      (by simp only [List.length_append, List.length_singleton]; omega)]
    have hc : ringCodes { s with hw := { s.hw with txmem := s.hw.txmem ++ [slotWord s (s.ring.ridx + j)] } } = ringCodes s :=
      ringCodes_congr rfl rfl
    rw [hc]
    have hdrop : (ringCodes s).drop j = slotWord s (s.ring.ridx + j) :: (ringCodes s).drop (j + 1) := by
      rw [List.drop_eq_getElem_cons (by simpa using hj)]
      congr 1
      have := ringCodes_getElem? s j
      rw [if_pos hj, List.getElem?_eq_getElem (by simpa using hj)] at this
      simpa using this
    rw [hdrop, List.take_succ_cons]
    simp

/-- The state after a copy into the scratch array (R241). -/
def afterCopy (j : Nat) : List Word → State → State
  | [], s => s
  | c :: cs, s => afterCopy (j + 1) cs { s with cq := { s.cq with scratch := s.cq.scratch.write j c } }

theorem afterCopy_frame (j : Nat) (cs : List Word) (s : State) :
    afterCopy j cs s = { s with cq := { s.cq with scratch := (afterCopy j cs s).cq.scratch } } := by
  induction cs generalizing j s with
  | nil => rfl
  | cons c cs ih => unfold afterCopy; rw [ih]

theorem afterCopy_wf (j : Nat) (cs : List Word) (s : State) (h : s.cq.scratch.wf = true) :
    (afterCopy j cs s).cq.scratch.wf = true := by
  induction cs generalizing j s with
  | nil => exact h
  | cons c cs ih => exact ih _ _ (Memory.wf_write h _ _)

theorem afterCopy_scratch (j i : Nat) (cs : List Word) (s : State) :
    scratchWord (afterCopy j cs s) i = if h : j ≤ i ∧ i - j < cs.length then cs[i - j]'h.2 else scratchWord s i := by
  induction cs generalizing j s with
  | nil => simp [afterCopy]
  | cons c cs ih =>
    unfold afterCopy
    rw [ih]
    by_cases h1 : j + 1 ≤ i ∧ i - (j + 1) < cs.length
    · rw [dif_pos h1, dif_pos (by simp only [List.length_cons]; omega)]
      have he : i - j = (i - (j + 1)) + 1 := by omega
      simp only [he, List.getElem_cons_succ]
    · rw [dif_neg h1]
      by_cases h2 : i = j
      · subst h2
        rw [dif_pos (by simp)]
        simp [scratchWord]
      · rw [dif_neg (by simp only [List.length_cons]; omega)]
        simp only [scratchWord]
        rw [Memory.read_write_other _ _ h2]

/-- After a copy from 0 on, the run that `TX.TRANSMIT` takes is the codes copied (R85, R241). -/
theorem afterCopy_run (cs : List Word) (s : State) : scratchRun (afterCopy 0 cs s) cs.length = cs := by
  apply List.ext_getElem
  · simp [scratchRun]
  · intro i h1 h2
    simp only [scratchRun, List.getElem_map, List.getElem_range]
    rw [afterCopy_scratch, dif_pos ⟨Nat.zero_le _, by simpa using h2⟩]
    simp

/-- m staged codes from offset j on are copied, none consumed (R241). -/
theorem copyChunk_ok {m j : Nat} {s : State} (hu : j + m ≤ s.ring.used) :
    copyChunk m j s = .ok (afterCopy j (((ringCodes s).drop j).take m) s) := by
  induction m generalizing j s with
  | zero => simp [copyChunk, afterCopy]
  | succ m ih =>
    have hj : j < s.ring.used := by omega
    unfold copyChunk
    rw [ringPeek_ok hj]
    have hdrop : (ringCodes s).drop j = slotWord s (s.ring.ridx + j) :: (ringCodes s).drop (j + 1) := by
      rw [List.drop_eq_getElem_cons (by simpa using hj)]
      congr 1
      have := ringCodes_getElem? s j
      rw [if_pos hj, List.getElem?_eq_getElem (by simpa using hj)] at this
      simpa using this
    simp only [bind, Except.bind]
    rw [ih (s := { s with cq := { s.cq with scratch := s.cq.scratch.write j (slotWord s (s.ring.ridx + j)) } })
      (by simpa using (by omega))]
    rw [hdrop, List.take_succ_cons]
    rfl

/-! ### The handler body -/

theorem intrChunk_le_used (s : State) : intrChunk s ≤ s.ring.used := by unfold intrChunk; omega

theorem intrChunk_le_free (s : State) : intrChunk s ≤ s.params.hwDepth - s.hw.txmem.length := by unfold intrChunk; omega

theorem intrChunk_le_max (s : State) : intrChunk s ≤ s.params.maxChunk := by unfold intrChunk; omega

/-- The state after a chunk of n codes moved to the transmitter and was counted (R225). -/
def afterChunk (n : Nat) (s : State) : State :=
  countEntries n (afterAdvance n { s with hw := { s.hw with txmem := s.hw.txmem ++ (ringCodes s).take n } })

theorem afterChunk_ringInv {n : Nat} {s : State} (h : RingInv s) (hn : n ≤ s.ring.used) : RingInv (afterChunk n s) := by
  have : RingInv { s with hw := { s.hw with txmem := s.hw.txmem ++ (ringCodes s).take n } } := h.congr rfl rfl
  exact (afterAdvance_ringInv this hn).congr rfl rfl

theorem ringCodes_afterChunk {n : Nat} {s : State} (hn : n ≤ s.ring.used) :
    ringCodes (afterChunk n s) = (ringCodes s).drop n := by
  have h1 : ringCodes (afterChunk n s) =
      ringCodes (afterAdvance n { s with hw := { s.hw with txmem := s.hw.txmem ++ (ringCodes s).take n } }) :=
    ringCodes_congr rfl rfl
  have h2 := ringCodes_afterAdvance (s := { s with hw := { s.hw with txmem := s.hw.txmem ++ (ringCodes s).take n } }) hn
  rw [h1, h2]
  congr 1

/-- `DRV.SERVICE`: a chunk moves, then `ENC.FILL`, then the end test (R225, R226). -/
theorem driverService_eq {s : State} (hd : s.hw.txmem.length ≤ s.params.hwDepth) :
    driverService s = (encoderFill (afterChunk (intrChunk s) s)).bind fun v =>
      if frameDrained v then .ok (endFrameIntr v) else .ok v := by
  unfold driverService
  rw [pushChunk_ok (by have := intrChunk_le_used s; omega) (by have := intrChunk_le_free s; omega)]
  simp only [bind, Except.bind, List.drop_zero]
  have h2 := ringAdvance_ok (s := { s with hw := { s.hw with txmem := s.hw.txmem ++ (ringCodes s).take (intrChunk s) } })
    (intrChunk_le_used s)
  simp only [h2]
  rfl

/-! ### The ring property and the canonical forms, in every state -/

theorem ringAdvance_ringInv {n : Nat} {s : State} (h : RingInv s) : (ringAdvance n s).Leaves RingInv id := by
  by_cases hn : n ≤ s.ring.used
  · rw [ringAdvance_ok hn]; exact afterAdvance_ringInv h hn
  · rw [ringAdvance_fault (by omega)]; exact h.congr rfl rfl

theorem ringReset_ringInv {s : State} (h : RingInv s) : (ringReset s).Leaves RingInv id := by
  unfold ringReset
  split
  · exact h.congr rfl rfl
  · exact afterReset_ringInv (Nat.zero_lt_of_lt h.ridx_lt)

theorem pushChunk_ring (m j : Nat) (s : State) :
    (pushChunk m j s).Leaves (fun t => t.ring = s.ring ∧ t.params = s.params ∧ t.cq = s.cq) id := by
  induction m generalizing j s with
  | zero => exact ⟨rfl, rfl, rfl⟩
  | succ m ih =>
    unfold pushChunk ringPeek
    split
    · exact ⟨rfl, rfl, rfl⟩
    · unfold push
      dsimp only [bind, Except.bind]
      split
      · rename_i h; split at h
        · cases h; exact ⟨rfl, rfl, rfl⟩
        · cases h
      · rename_i h; split at h
        · cases h
        · cases h; exact ih _ { s with hw := { s.hw with txmem := s.hw.txmem ++ [slotWord s (s.ring.ridx + j)] } }

theorem copyChunk_ring (m j : Nat) (s : State) :
    (copyChunk m j s).Leaves (fun t => t.ring = s.ring ∧ t.params = s.params) id := by
  induction m generalizing j s with
  | zero => exact ⟨rfl, rfl⟩
  | succ m ih =>
    unfold copyChunk ringPeek
    split
    · exact ⟨rfl, rfl⟩
    · exact ih _ { s with cq := { s.cq with scratch := s.cq.scratch.write j (slotWord s (s.ring.ridx + j)) } }

theorem copyChunk_scratchWf {m j : Nat} {s : State} (h : s.cq.scratch.wf = true) :
    (copyChunk m j s).Leaves (fun t => t.cq.scratch.wf = true) id := by
  induction m generalizing j s with
  | zero => exact h
  | succ m ih =>
    unfold copyChunk ringPeek
    split
    · exact h
    · exact ih (s := { s with cq := { s.cq with scratch := s.cq.scratch.write j (slotWord s (s.ring.ridx + j)) } })
        (Memory.wf_write h _ _)

/-- What holds of the storage in every state the machine leaves: the ring property and the two canonical forms. -/
structure StoreInv (s : State) : Prop where
  ring : RingInv s
  slotsWf : s.ring.slots.wf = true
  scratchWf : s.cq.scratch.wf = true

theorem StoreInv.congr {s t : State} (h : StoreInv s) (hr : t.ring = s.ring) (hp : t.params = s.params)
    (hc : t.cq.scratch = s.cq.scratch) : StoreInv t :=
  ⟨h.ring.congr hr hp, by rw [hr]; exact h.slotsWf, by rw [hc]; exact h.scratchWf⟩

theorem Res.Leaves.and {P Q : State → Prop} {r : Res State} (h : r.Leaves P id) (g : r.Leaves Q id) :
    r.Leaves (fun t => P t ∧ Q t) id := by
  cases r with
  | ok u => exact ⟨h, g⟩
  | error u => exact ⟨h, g⟩

theorem encoderFill_storeInv {s : State} (h : StoreInv s) : (encoderFill s).Leaves StoreInv id := by
  refine (((encoderFill_ringInv h.ring).and (encoderFill_slotsWf h.slotsWf)).and (encoderFill_touch s)).mono ?_
  rintro t ⟨⟨h1, h2⟩, r, d, c, e, v, rfl⟩
  exact ⟨h1, h2, h.scratchWf⟩

theorem emitSymbols_storeInv {s : State} (bs : List BitSymbol) (h : StoreInv s) : (emitSymbols bs s).Leaves StoreInv id := by
  refine (((emitSymbols_ringInv bs h.ring).and (emitSymbols_slotsWf bs h.slotsWf)).and (emitSymbols_touch bs s)).mono ?_
  rintro t ⟨⟨h1, h2⟩, r, d, c, e, v, rfl⟩
  exact ⟨h1, h2, h.scratchWf⟩

theorem ringAdvance_storeInv {n : Nat} {s : State} (h : StoreInv s) : (ringAdvance n s).Leaves StoreInv id := by
  have hr := ringAdvance_ringInv (n := n) h.ring
  unfold ringAdvance at *
  split at hr
  · rename_i hc; rw [if_pos hc]; exact ⟨hr, h.slotsWf, h.scratchWf⟩
  · rename_i hc; rw [if_neg hc]; exact ⟨hr, h.slotsWf, h.scratchWf⟩

theorem ringReset_storeInv {s : State} (h : StoreInv s) : (ringReset s).Leaves StoreInv id := by
  have hr := ringReset_ringInv h.ring
  unfold ringReset at *
  split at hr
  · rename_i hc; rw [if_pos hc]; exact ⟨hr, h.slotsWf, h.scratchWf⟩
  · rename_i hc; rw [if_neg hc]; exact ⟨hr, h.slotsWf, h.scratchWf⟩

theorem driverService_storeInv {s : State} (h : StoreInv s) : (driverService s).Leaves StoreInv id := by
  unfold driverService
  refine Res.Leaves.bind ((pushChunk_ring _ 0 s).mono (Q := StoreInv) fun t ht => h.congr ht.1 ht.2.1 (by rw [ht.2.2])) fun t ht => ?_
  refine Res.Leaves.bind (ringAdvance_storeInv ht) fun u hu => ?_
  refine Res.Leaves.bind (encoderFill_storeInv (hu.congr (by simp) (by simp) (by simp))) fun v hv => ?_
  split
  · exact hv.congr (by simp) (by simp) (by simp)
  · exact hv

theorem primeIntr_storeInv {s : State} (h : StoreInv s) : (primeIntr s).Leaves StoreInv id := by
  unfold primeIntr
  refine Res.Leaves.bind (driverService_storeInv h) fun t ht => ?_
  dsimp only
  split
  · exact ht.congr rfl rfl rfl
  · exact ht.congr rfl rfl rfl

theorem txTransmit_storeInv {s : State} (codes : List Word) (h : StoreInv s) : StoreInv (txTransmit codes s).2 := by
  rw [txTransmit_frame]; exact h.congr rfl rfl rfl

theorem txAwait_storeInv {s : State} (h : StoreInv s) : StoreInv (txAwait s).2 := by
  rw [txAwait_frame]; exact h.congr rfl rfl rfl

theorem cqFinish_storeInv {s : State} (rc : ResultCode) (e : ErrCode) (h : StoreInv s) : StoreInv (cqFinish rc e s) :=
  h.congr (by simp) (by simp) (by simp)

theorem cqStep_storeInv {s : State} (h : StoreInv s) : (cqStep s).Leaves StoreInv id := by
  unfold cqStep
  split
  · exact h
  · unfold cqSend
    split
    · exact cqFinish_storeInv _ _ h
    · refine Res.Leaves.bind (((copyChunk_ring _ 0 s).and (copyChunk_scratchWf h.scratchWf)).mono (Q := StoreInv)
        fun t ht => ⟨h.ring.congr ht.1.1 ht.1.2, by rw [ht.1.1]; exact h.slotsWf, ht.2⟩) fun t ht => ?_
      dsimp only
      generalize hu : ({ t with cq := { t.cq with n := min s.params.maxChunk s.ring.used } } : State) = u
      have hsu : StoreInv u := ht.congr (by rw [← hu]) (by rw [← hu]) (by rw [← hu])
      have hr := txTransmit_storeInv (scratchRun u (min s.params.maxChunk s.ring.used)) hsu
      split
      · exact hr.congr rfl rfl rfl
      · exact cqFinish_storeInv _ _ (hr.congr rfl rfl rfl)
  · unfold cqAwait
    dsimp only
    split
    · refine Res.Leaves.bind (r := advanceAndFill (txAwait s).2) ?_ fun t ht => StoreInv.congr ht rfl rfl rfl
      unfold advanceAndFill
      refine Res.Leaves.bind (ringAdvance_storeInv (txAwait_storeInv h)) fun t ht => ?_
      exact encoderFill_storeInv (StoreInv.congr (s := t) ht (by simp) (by simp) (by simp))
    · exact cqFinish_storeInv _ _ ((txAwait_storeInv h).congr rfl rfl rfl)

end Sys2Proof.Machine
end

