-- ==== Sys2Proof/Laws/Table.lean ====
section
/-! SUPPORT. The translation table: entries, records, the install and the self-check, each said once. -/

namespace Sys2Proof.Machine

theorem Table.get_set (t : Table) (b c : BitSymbol) (e : TblEntry) : (t.set b e).get c = if c = b then e else t.get c := by
  cases b <;> cases c <;> rfl

theorem symbolOfTag_eq_some {t : BitVec 8} {b : BitSymbol} : symbolOfTag t = some b ↔ t = b.tag := by
  constructor
  · intro h
    unfold symbolOfTag at h
    repeat' split at h
    all_goals first
      | (cases h; assumption)
      | cases h
  · rintro rfl; cases b <;> rfl

theorem symbolOfTag_eq_none {t : BitVec 8} : symbolOfTag t = none ↔ ¬ t < 7#8 := by
  revert t; decide

theorem tag_lt (b : BitSymbol) : b.tag < 7#8 := by cases b <;> decide

theorem tag_inj {b c : BitSymbol} : b.tag = c.tag ↔ b = c := by revert b c; intro b c; cases b <;> cases c <;> decide

/-- `mismatchInfo` as a number (R335). -/
theorem mismatchInfo_eq (j : Nat) (t : BitVec 8) : mismatchInfo j t = BitVec.ofNat 32 (256 * j + t.toNat) := by
  apply BitVec.eq_of_toNat_eq
  have ht : t.toNat < 256 := t.isLt
  unfold mismatchInfo
  rw [BitVec.toNat_or, BitVec.toNat_shiftLeft, BitVec.toNat_ofNat, BitVec.toNat_setWidth, BitVec.toNat_ofNat]
  rw [Nat.mod_eq_of_lt (show t.toNat < 2 ^ 32 by omega)]
  have : (j % 2 ^ 32) <<< 8 % 2 ^ 32 = (j % 2 ^ 24) <<< 8 := by
    simp only [Nat.shiftLeft_eq]; omega
  rw [this, ← Nat.shiftLeft_add_eq_or_of_lt (by omega), Nat.shiftLeft_eq]
  omega

/-! ### Where a list ends -/

/-- `listedCount` from record j on. -/
def listedFrom (h : Word) (ws : List Word) (j max : Nat) : Nat :=
  ((List.range' j max).takeWhile fun i => decide (recordTag h ws i < 7#8)).length

theorem listedCount_eq (h : Word) (ws : List Word) (max : Nat) : listedCount h ws max = listedFrom h ws 0 max := by
  unfold listedCount listedFrom; rw [List.range_eq_range']

@[simp] theorem listedFrom_zero (h : Word) (ws : List Word) (j : Nat) : listedFrom h ws j 0 = 0 := rfl

theorem listedFrom_succ (h : Word) (ws : List Word) (j n : Nat) :
    listedFrom h ws j (n + 1) = if recordTag h ws j < 7#8 then listedFrom h ws (j + 1) n + 1 else 0 := by
  unfold listedFrom
  rw [List.range'_succ]
  by_cases hj : recordTag h ws j < 7#8
  · simp [List.takeWhile, hj]
  · simp [List.takeWhile, hj]

theorem listedCount_le (h : Word) (ws : List Word) (max : Nat) : listedCount h ws max ≤ max := by
  unfold listedCount
  refine (List.takeWhile_prefix _).length_le.trans ?_
  simp

theorem listedFrom_lt {h : Word} {ws : List Word} {j n i : Nat} (hi : i < listedFrom h ws j n) :
    recordTag h ws (j + i) < 7#8 := by
  induction n generalizing j i with
  | zero => simp at hi
  | succ n ih =>
    rw [listedFrom_succ] at hi
    split at hi
    · rename_i hj
      cases i with
      | zero => exact hj
      | succ i => have := ih (j := j + 1) (i := i) (by omega); rwa [Nat.add_right_comm, Nat.add_assoc] at this
    · omega

/-- Every record before the end is a symbol's. -/
theorem listedCount_lt {h : Word} {ws : List Word} {max j : Nat} (hj : j < listedCount h ws max) :
    recordTag h ws j < 7#8 := by
  rw [listedCount_eq] at hj
  simpa using listedFrom_lt hj

theorem listedFrom_end {h : Word} {ws : List Word} {j n : Nat} (hn : listedFrom h ws j n < n) :
    ¬ recordTag h ws (j + listedFrom h ws j n) < 7#8 := by
  induction n generalizing j with
  | zero => simp at hn
  | succ n ih =>
    rw [listedFrom_succ] at hn ⊢
    split at hn
    · rename_i hj
      rw [if_pos hj]
      have := ih (j := j + 1) (by omega)
      rwa [show j + (listedFrom h ws (j + 1) n + 1) = j + 1 + listedFrom h ws (j + 1) n by omega]
    · rename_i hj
      rw [if_neg hj]; exact hj

/-- The record at the end is no symbol's. -/
theorem listedCount_end {h : Word} {ws : List Word} {max : Nat} (hn : listedCount h ws max < max) :
    ¬ recordTag h ws (listedCount h ws max) < 7#8 := by
  rw [listedCount_eq] at hn ⊢
  simpa using listedFrom_end hn

/-! ### Installing -/

/-- The table with the records of the indices in a list installed, in order. -/
def installAll (h : Word) (ws : List Word) (t : Table) (js : List Nat) : Table :=
  js.foldl (fun t j =>
    match symbolOfTag (recordTag h ws j) with
    | some b => t.set b { valid := true, code := recordCode h ws j }
    | none => t) t

theorem installRecords_eq (h : Word) (ws : List Word) (n j : Nat) (t : Table) :
    installRecords h ws n j t =
      (installAll h ws t (List.range' j (listedFrom h ws j n)),
        if listedFrom h ws j n = n then some (0x00000001 : Word)
        else if recordTag h ws (j + listedFrom h ws j n) = listEndTag then none
        else some ((0x00000002 : Word) ||| ((recordTag h ws (j + listedFrom h ws j n)).setWidth 32 <<< 8))) := by
  induction n generalizing j t with
  | zero => simp [installRecords, installAll]
  | succ n ih =>
    unfold installRecords
    rw [listedFrom_succ]
    by_cases hend : recordTag h ws j = listEndTag
    · have hlt : ¬ recordTag h ws j < 7#8 := by rw [hend]; decide
      simp [hend, installAll, listEndTag]
    · rw [if_neg hend]
      by_cases hlt : recordTag h ws j < 7#8
      · rw [if_pos hlt]
        cases hb : symbolOfTag (recordTag h ws j) with
        | none => exact absurd hlt (symbolOfTag_eq_none.1 hb)
        | some b =>
          simp only []
          rw [ih, List.range'_succ]
          simp only [installAll, List.foldl_cons, hb, Nat.add_right_cancel_iff]
          rw [show j + (listedFrom h ws (j + 1) n + 1) = j + 1 + listedFrom h ws (j + 1) n by omega]
      · rw [if_neg hlt]
        have hb := symbolOfTag_eq_none.2 hlt
        simp [hb, installAll, hend]

/-- The last record of a symbol wins; a symbol with no record keeps its entry (R152). -/
theorem installAll_get (h : Word) (ws : List Word) (t : Table) (js : List Nat) (b : BitSymbol) :
    (installAll h ws t js).get b =
      match (js.filter fun j => recordTag h ws j == b.tag).getLast? with
      | some j => { valid := true, code := recordCode h ws j }
      | none => t.get b := by
  induction js using List.reverseRecOn with
  | nil => rfl
  | append_singleton js j ih =>
    unfold installAll at ih ⊢
    rw [List.foldl_append, List.filter_append]
    simp only [List.foldl_cons, List.foldl_nil]
    by_cases hj : recordTag h ws j = b.tag
    · have hb := symbolOfTag_eq_some.2 hj
      have hj' : (recordTag h ws j == b.tag) = true := by simpa using hj
      simp [hb, hj', Table.get_set]
    · have hj' : (recordTag h ws j == b.tag) = false := by simpa using hj
      cases hb : symbolOfTag (recordTag h ws j) with
      | none => simpa [hj'] using ih
      | some c =>
        have hc : recordTag h ws j = c.tag := symbolOfTag_eq_some.1 hb
        have hne : b ≠ c := fun e => hj (by rw [hc, e])
        simpa [hj', Table.get_set, hne] using ih

/-! ### The self-check -/

/-- `mismatches` from record j on. -/
def mismatchesFrom (t : Table) (h : Word) (ws : List Word) (j n : Nat) : List Nat :=
  (List.range' j (min (listedFrom h ws j n + 1) n)).filter fun i =>
    recordTag h ws i != listEndTag && !recordAgrees t h ws i

theorem mismatches_eq (t : Table) (h : Word) (ws : List Word) (n : Nat) :
    mismatches t h ws n = mismatchesFrom t h ws 0 n := by
  unfold mismatches mismatchesFrom; rw [listedCount_eq, List.range_eq_range']

theorem mismatchesFrom_succ (t : Table) (h : Word) (ws : List Word) (j n : Nat) :
    mismatchesFrom t h ws j (n + 1) =
      if recordTag h ws j = listEndTag then []
      else if recordTag h ws j < 7#8 then
        (if recordAgrees t h ws j then [] else [j]) ++ mismatchesFrom t h ws (j + 1) n
      else [j] := by
  unfold mismatchesFrom
  rw [listedFrom_succ]
  by_cases hend : recordTag h ws j = listEndTag
  · have hlt : ¬ recordTag h ws j < 7#8 := by rw [hend]; decide
    have h7 : ¬ listEndTag < 7#8 := by decide
    simp [hend, h7, List.range'_succ]
  · rw [if_neg hend]
    by_cases hlt : recordTag h ws j < 7#8
    · rw [if_pos hlt, if_pos hlt,
        show min (listedFrom h ws (j + 1) n + 1 + 1) (n + 1) = min (listedFrom h ws (j + 1) n + 1) n + 1 by omega,
        List.range'_succ, List.filter_cons]
      by_cases ha : recordAgrees t h ws j = true
      · simp [ha]
      · simp [ha, hend]
    · rw [if_neg hlt, if_neg hlt]
      have ha : recordAgrees t h ws j = false := by unfold recordAgrees; rw [symbolOfTag_eq_none.2 hlt]
      simp [ha, hend, List.range'_succ]

theorem mismatchesLogged_nil (h : Word) (ws : List Word) (s : State) : mismatchesLogged h ws [] s = s := by
  simp [mismatchesLogged]

theorem mismatchesLogged_cons (h : Word) (ws : List Word) (j : Nat) (js : List Nat) (s : State) :
    mismatchesLogged h ws js (recordError .validationError (mismatchInfo j (recordTag h ws j)) s) =
      mismatchesLogged h ws (j :: js) s := by
  unfold mismatchesLogged recordError
  rw [mismatchInfo_eq]
  cases js <;> simp [ErrCode.code]

/-- The walk of R155 logs exactly the mismatches. -/
theorem validateRecords_eq (h : Word) (ws : List Word) (n j : Nat) (s : State) :
    validateRecords h ws n j s =
      (!(mismatchesFrom s.tbl h ws j n).isEmpty, mismatchesLogged h ws (mismatchesFrom s.tbl h ws j n) s) := by
  induction n generalizing j s with
  | zero => simp [validateRecords, mismatchesFrom, mismatchesLogged_nil]
  | succ n ih =>
    unfold validateRecords
    rw [mismatchesFrom_succ]
    by_cases hend : recordTag h ws j = listEndTag
    · simp [hend, mismatchesLogged_nil]
    · rw [if_neg hend, if_neg hend]
      by_cases hlt : recordTag h ws j < 7#8
      · rw [if_pos hlt]
        cases hb : symbolOfTag (recordTag h ws j) with
        | none => exact absurd hlt (symbolOfTag_eq_none.1 hb)
        | some b =>
          have ha : recordAgrees s.tbl h ws j = ((s.tbl.get b).valid && (s.tbl.get b).code == recordCode h ws j) := by
            unfold recordAgrees; rw [hb]
          simp only [← ha]
          by_cases hag : recordAgrees s.tbl h ws j = true
          · rw [if_pos hag, if_pos hag, ih]; rfl
          · rw [if_neg hag, if_neg hag, ih]
            simp only [recordError_tbl, List.singleton_append, mismatchesLogged_cons, List.isEmpty_cons, Bool.not_false]
      · rw [if_neg hlt]
        have hb := symbolOfTag_eq_none.2 hlt
        simp only [hb]
        rw [← mismatchesLogged_cons, mismatchesLogged_nil]; rfl

/-- The self-check of the table against a list (R155, R335). -/
theorem validateTable_some {h : Word} {ws : List Word} {s : State} (hf : findTable s h = some ws) :
    validateTable h s =
      (!(mismatches s.tbl h ws s.params.maxTableEntries).isEmpty,
        mismatchesLogged h ws (mismatches s.tbl h ws s.params.maxTableEntries) s) := by
  unfold validateTable; rw [hf, mismatches_eq]; exact validateRecords_eq _ _ _ _ _

theorem validateTable_none {h : Word} {s : State} (hf : findTable s h = none) :
    validateTable h s = (true, recordError .validationError 0x000000FF s) := by
  unfold validateTable; rw [hf]

/-- A self-check writes the error state only (R155). -/
theorem validateTable_frame (h : Word) (s : State) :
    (validateTable h s).2 = { s with err := (validateTable h s).2.err } := by
  cases hf : findTable s h with
  | none => rw [validateTable_none hf]; rfl
  | some ws => rw [validateTable_some hf]; rfl

theorem validateTable_fault (h : Word) (s : State) : (validateTable h s).2.err.fault = s.err.fault := by
  cases hf : findTable s h with
  | none => rw [validateTable_none hf]; rfl
  | some ws => rw [validateTable_some hf]; rfl

/-! ### The install -/

/-- `XLAT.CFG` writes the table and `TBL_OK` only (R150). -/
theorem installTable_frame (h : Word) (s : State) :
    (installTable h s).2 = { s with tbl := (installTable h s).2.tbl, tblOk := (installTable h s).2.tblOk } := by
  unfold installTable
  split
  · rfl
  · dsimp only; split
    · rfl
    · split <;> rfl

/-- A failed install leaves `TBL_OK` as it was; a successful one sets it and leaves every required symbol valid. -/
theorem installTable_ok {h : Word} {s : State} (hi : (installTable h s).1 = none) :
    (installTable h s).2.tblOk = true ∧ TableComplete (installTable h s).2 := by
  unfold installTable at hi ⊢
  split at hi
  · cases hi
  · rename_i ws hws
    dsimp only at hi ⊢
    split at hi
    · cases hi
    · rename_i hr
      split at hi
      · cases hi
      · rename_i hm
        refine ⟨rfl, fun b hb => ?_⟩
        have := List.find?_eq_none.1 hm b hb
        simpa using this

theorem installTable_fail {h : Word} {s : State} {i : Word} (hi : (installTable h s).1 = some i) :
    (installTable h s).2.tblOk = s.tblOk := by
  unfold installTable at hi ⊢
  split at hi
  · rfl
  · dsimp only at hi ⊢
    split at hi
    · rfl
    · rename_i hr
      split at hi
      · rfl
      · cases hi

/-- The required symbols (R151). -/
theorem mem_required (c : Cfg) (b : BitSymbol) : b ∈ c.required ↔
    b = .zero ∨ b = .one ∨ (b = .stop ∧ c.stopEn = true) ∨ (b = .ifg ∧ 0 < c.idleBits) ∨
      (b = .frameStart ∧ 0 < c.startBits) ∨ (b = .eof ∧ c.eofEn = true) := by
  unfold Cfg.required
  cases c.stopEn <;> cases c.eofEn <;> by_cases hi : 0 < c.idleBits <;> by_cases hs : 0 < c.startBits <;>
    cases b <;> simp [hi, hs]

/-- `XLAT.CFG` of a list that exists (R150): the listed records are installed, whatever the answer. -/
theorem installTable_some {h : Word} {ws : List Word} {s : State} (hf : findTable s h = some ws) :
    installTable h s =
      if listedCount h ws s.params.maxTableEntries = s.params.maxTableEntries then
        (some (0x00000001 : Word), { s with tbl := installAll h ws s.tbl (List.range (listedCount h ws s.params.maxTableEntries)) })
      else if recordTag h ws (listedCount h ws s.params.maxTableEntries) = listEndTag then
        match missingSymbol s.cfg (installAll h ws s.tbl (List.range (listedCount h ws s.params.maxTableEntries))) with
        | some b => (some ((0x00000003 : Word) ||| (BitSymbol.tagWord b <<< 8)),
            { s with tbl := installAll h ws s.tbl (List.range (listedCount h ws s.params.maxTableEntries)) })
        | none => (none,
            { s with tbl := installAll h ws s.tbl (List.range (listedCount h ws s.params.maxTableEntries)), tblOk := true })
      else
        (some ((0x00000002 : Word) ||| ((recordTag h ws (listedCount h ws s.params.maxTableEntries)).setWidth 32 <<< 8)),
          { s with tbl := installAll h ws s.tbl (List.range (listedCount h ws s.params.maxTableEntries)) }) := by
  unfold installTable
  rw [hf]
  simp only [installRecords_eq, listedCount_eq, List.range_eq_range', Nat.zero_add]
  by_cases h1 : listedFrom h ws 0 s.params.maxTableEntries = s.params.maxTableEntries
  · simp only [h1, if_true]
  · by_cases h2 : recordTag h ws (listedFrom h ws 0 s.params.maxTableEntries) = listEndTag
    · generalize hm : missingSymbol s.cfg
        (installAll h ws s.tbl (List.range' 0 (listedFrom h ws 0 s.params.maxTableEntries))) = m
      cases m <;> rw [if_neg h1, if_pos h2, if_neg h1, if_pos h2]
    · rw [if_neg h1, if_neg h2, if_neg h1, if_neg h2]

theorem installTable_none {h : Word} {s : State} (hf : findTable s h = none) : installTable h s = (some 0x00000000, s) := by
  unfold installTable; rw [hf]

end Sys2Proof.Machine
end

