-- ==== Sys2Proof/Laws/Invariant.lean ====
section
/-! SUPPORT. The invariant of a channel, operation by operation: what each operation needs of the state to leave it holding. -/

namespace Sys2Proof.Machine

/-! ### The parts of the invariant -/

/-- The part of `Inv` that holds whether or not the channel has faulted. -/
structure BaseInv (s : State) : Prop where
  params : paramsOk s.params = true
  noInvocation : s.seq.invoke = none
  portCount : s.ports.length = s.params.hostPorts
  store : StoreInv s

theorem Inv.base {s : State} (h : Inv s) : BaseInv s :=
  ⟨h.params, h.noInvocation, h.portCount, h.ring, h.slotsWf, h.scratchWf⟩

theorem BaseInv.inv {s : State} (h : BaseInv s) (hl : s.err.fault = 0 → LiveInv s) : Inv s :=
  ⟨h.params, h.noInvocation, h.portCount, h.store.ring, h.store.slotsWf, h.store.scratchWf, hl⟩

theorem BaseInv.of_store {s t : State} (h : BaseInv s) (hp : t.params = s.params) (hs : t.seq.invoke = s.seq.invoke)
    (hl : t.ports.length = s.ports.length) (ht : StoreInv t) : BaseInv t :=
  ⟨by rw [hp]; exact h.params, by rw [hs]; exact h.noInvocation, by rw [hl, hp]; exact h.portCount, ht⟩

theorem BaseInv.congr {s t : State} (h : BaseInv s) (hp : t.params = s.params) (hs : t.seq.invoke = s.seq.invoke)
    (hl : t.ports.length = s.ports.length) (hr : t.ring = s.ring) (hc : t.cq.scratch = s.cq.scratch) : BaseInv t :=
  h.of_store hp hs hl (h.store.congr hr hp hc)

theorem fault_ne_zero (f : BitVec 8) (k : FaultKind) : f ||| k.mask ≠ 0 := by
  intro h
  have hk : k.mask ≠ 0 := by cases k <;> decide
  apply hk
  apply BitVec.eq_of_getLsbD_eq
  intro i hi
  have := congrArg (fun x => x.getLsbD i) h
  simp only [BitVec.getLsbD_or] at this
  have h0 : (0 : BitVec 8).getLsbD i = false := by simp
  rw [h0] at this ⊢
  cases hh : k.mask.getLsbD i
  · rfl
  · rw [hh] at this; simp at this

/-- A fault ends what `LiveInv` asks (R333, R56). -/
theorem raiseFault_inv {s : State} (k : FaultKind) (i : Word) (h : BaseInv s) : Inv (raiseFault k i s) :=
  (h.congr (by simp) (by simp) (by simp) (by simp) (by simp)).inv fun hf =>
    absurd (by simpa using hf) (fault_ne_zero s.err.fault k)

/-! ### Replacing parts of the state -/

/-- All that `LiveInv` looks at. -/
def liveView (s : State) :=
  (s.params, s.ports, s.cfg, s.tbl, s.tblOk, s.chState, s.orchPhase, s.drvState, s.ring.used, s.hasData, s.thrIe,
    s.doneIe, s.hw.txmem, s.hw.txEn, s.hw.thrPend, s.cq.n, s.cq.phase, s.cq.port)

theorem Configured.congr {s t : State} (h : Configured s) (hp : t.params = s.params) (hc : t.cfg = s.cfg)
    (ho : t.tblOk = s.tblOk) (hs : t.chState = s.chState) : Configured t := by
  obtain ⟨h0, h1, h2, h3, h4, h5⟩ := h
  exact ⟨by rw [hs]; exact h0, by rw [ho]; exact h1, by rw [hc]; exact h2, by rw [hc]; exact h3, by rw [hc, hp]; exact h4, by rw [hc, hp]; exact h5⟩

theorem LiveInv.congr {s t : State} (h : LiveInv s) (e : liveView t = liveView s) : LiveInv t := by
  simp only [liveView, Prod.mk.injEq] at e
  obtain ⟨e1, e2, e3, e4, e5, e6, e7, e8, e9, e10, e11, e12, e13, e14, e15, e16, e17, e18⟩ := e
  constructor
  · rw [e8, e7]; exact h.streaming
  · rw [e7]; exact h.notFraming
  · rw [e8, e6, e5]; exact h.activeReady
  · rw [e11, e12, e3, e8]; exact h.enables
  · rw [e17, e3, e8]; exact h.cqActive
  · rw [e13, e1]; exact h.txmemBound
  · rw [e5]; exact fun ho => (h.tableComplete ho).congr e3 e4
  · rw [e6]; exact fun hr => (h.configured hr).congr e1 e3 e5 e6
  · rw [e6, e5]; exact h.unconfigured
  · rw [e6, e3, e17, e13]; exact h.cqTxmem
  · rw [e8, e3, e17]; exact h.cqLoop
  · rw [e17, e16, e9, e1]; exact h.cqChunk
  · rw [e8, e9, e10]; exact h.drained
  · rw [e8, e3, e14, e11, e12, e9, e13, e15]; exact h.intrLoop
  · rw [e2, e3, e6]; exact h.waiting
  · rw [e2]; exact h.pending
  · rw [e17, e2, e18]; exact h.cqPort

theorem mem_modify {α : Type} {l : List α} {k : Nat} {f : α → α} {x : α} (h : x ∈ l.modify k f) :
    x ∈ l ∨ ∃ y, l[k]? = some y ∧ x = f y := by
  obtain ⟨i, hi⟩ := List.mem_iff_getElem?.1 h
  rw [List.getElem?_modify] at hi
  by_cases hk : k = i
  · subst hk
    cases hy : l[k]? with
    | none => rw [hy] at hi; simp at hi
    | some y => rw [hy] at hi; simp at hi; exact .inr ⟨y, rfl, hi.symm⟩
  · refine .inl (List.mem_iff_getElem?.2 ⟨i, ?_⟩)
    cases hy : l[i]? with
    | none => rw [hy] at hi; simp at hi
    | some y => rw [hy] at hi; simp [hk] at hi; rw [hi]

/-- What stands of the port whose command SEQ is executing: it exists, is busy, has nothing pending and nothing waiting on it,
and is not the port of a CQ frame in flight (R30, R57, R245). -/
structure Issued (s : State) : Prop where
  port : ∃ p, s.ports[s.seq.cur]? = some p ∧ p.busy = true ∧ p.cmd = none ∧ p.bgw = false
  notCq : s.cq.phase ≠ .idle → s.cq.port ≠ s.seq.cur

theorem Issued.congr {s t : State} (h : Issued s) (hp : t.ports = s.ports) (hs : t.seq.cur = s.seq.cur)
    (hc : t.cq.phase ≠ .idle → s.cq.phase ≠ .idle ∧ t.cq.port = s.cq.port) : Issued t :=
  ⟨by rw [hp, hs]; exact h.port, fun hne => by rw [(hc hne).2, hs]; exact h.notCq (hc hne).1⟩

/-- Changing a port that has no command pending and nothing waiting into one of that kind keeps `LiveInv`, if it is not the
port of a CQ frame in flight. -/
theorem LiveInv.modify {s : State} (h : LiveInv s) (k : Nat) (f : Port → Port)
    (hp : ∀ p, s.ports[k]? = some p → (f p).cmd = none ∧ (f p).bgw = false)
    (hc : s.cq.phase ≠ .idle → s.cq.port ≠ k) : LiveInv { s with ports := s.ports.modify k f } := by
  constructor
  · exact h.streaming
  · exact h.notFraming
  · exact h.activeReady
  · exact h.enables
  · exact h.cqActive
  · exact h.txmemBound
  · exact fun ho => (h.tableComplete ho).congr rfl rfl
  · exact fun hr => (h.configured hr).congr rfl rfl rfl rfl
  · exact h.unconfigured
  · exact h.cqTxmem
  · exact h.cqLoop
  · exact h.cqChunk
  · exact h.drained
  · exact h.intrLoop
  · intro p hm hb
    rcases mem_modify hm with hm | ⟨q, hq, rfl⟩
    · exact h.waiting p hm hb
    · rw [(hp q hq).2] at hb; cases hb
  · intro p hm hb
    rcases mem_modify hm with hm | ⟨q, hq, rfl⟩
    · exact h.pending p hm hb
    · rw [(hp q hq).1] at hb; cases hb
  · intro hne
    obtain ⟨p, h1, h2⟩ := h.cqPort hne
    refine ⟨p, ?_, h2⟩
    simp only [List.getElem?_modify]
    have hk : ¬ k = s.cq.port := fun e => hc hne e.symm
    simp [h1, hk]

/-- Completing the port whose command is being executed (R111). -/
theorem LiveInv.reply {s : State} (h : LiveInv s) (hi : Issued s) (rc : ResultCode) (e : ErrCode) (r : Word) :
    LiveInv (completePort s.seq.cur rc e r s) := by
  obtain ⟨p, h1, h2, h3, h4⟩ := hi.port
  refine h.modify s.seq.cur _ (fun q hq => ?_) hi.notCq
  rw [h1] at hq; cases hq
  exact ⟨h3, h4⟩

/-- A reply to the command being executed keeps the invariant. -/
theorem reply_inv {s : State} (h : BaseInv s) (hl : LiveInv s) (hi : Issued s) (rc : ResultCode) (e : ErrCode) (r : Word) :
    (reply rc e r s).Leaves Inv id :=
  (h.congr (by simp) (by simp) (by simp) (by simp) (by simp)).inv fun _ => hl.reply hi rc e r

/-- The same, from a state u that differs from s in nothing the invariant looks at. -/
theorem reply_inv_of {s u : State} (h : BaseInv s) (hl : LiveInv s) (hi : Issued s) (e : liveView u = liveView s)
    (hs : u.seq = s.seq) (hr : u.ring = s.ring) (hc : u.cq.scratch = s.cq.scratch) (rc : ResultCode) (ec : ErrCode)
    (r : Word) : (reply rc ec r u).Leaves Inv id := by
  have e' := e
  simp only [liveView, Prod.mk.injEq] at e'
  obtain ⟨e1, e2, -, -, -, -, -, -, -, -, -, -, -, -, -, -, e17, e18⟩ := e'
  exact reply_inv (h.congr e1 (by rw [hs]) (by rw [e2]) hr hc) (hl.congr e)
    (hi.congr e2 (by rw [hs]) fun hne => ⟨by rw [← e17]; exact hne, e18⟩) _ _ _

theorem faulting_inv {α : Type} {s : State} {f : α → State} (k : FaultKind) (i : Word) (h : BaseInv s) :
    (faulting k i s : Res α).Leaves Inv f := raiseFault_inv k i h

theorem whenReady_inv {s : State} {opc : Word} {body : Res State} (h : BaseInv s) (hl : LiveInv s) (hi : Issued s)
    (hb : s.chState = .ready → body.Leaves Inv id) : (whenReady opc s body).Leaves Inv id := by
  unfold whenReady
  split
  · exact faulting_inv _ _ h
  · exact reply_inv h hl hi _ _ _
  · rename_i hr; exact hb hr

theorem settle_next {r : Res State} {P : State → Prop} (h : r.Leaves P id) {t : State} (ht : settle r = .next t) : P t := by
  cases r with
  | ok u => cases ht; exact h
  | error u => cases ht; exact h

/-! ### The host commands that write little -/

theorem ringCount_inv {s : State} (h : BaseInv s) (hl : LiveInv s) (hi : Issued s) (opc r : Word) :
    (whenReady opc s (reply .ok .none r s)).Leaves Inv id :=
  whenReady_inv h hl hi fun _ => reply_inv h hl hi _ _ _

theorem pause_inv {s : State} (h : BaseInv s) (hl : LiveInv s) (hi : Issued s) (p : Bool) :
    (whenReady 0x52 s (reply .ok .none 0 { s with paused := p })).Leaves Inv id :=
  whenReady_inv h hl hi fun _ => reply_inv_of (u := { s with paused := p }) h hl hi rfl rfl rfl rfl _ _ _

theorem lookup_inv {s : State} (h : BaseInv s) (hl : LiveInv s) (hi : Issued s) (t : BitVec 3) :
    (if s.chState = .halted then reply .rejHalted .none 0 s
      else
        match symbolOfTag (t.setWidth 8) with
        | none => faulting .illegalCommand (encode (.xlatLkp t)).word s
        | some b => do
          let c ← tblRead b s
          reply .ok .none c s : Res State).Leaves Inv id := by
  split
  · exact reply_inv h hl hi _ _ _
  · split
    · exact faulting_inv _ _ h
    · rcases tblRead_cases _ s with ⟨c, he⟩ | ⟨k, he⟩ <;> rw [he]
      · exact reply_inv h hl hi _ _ _
      · exact faulting_inv _ _ h

theorem validateTable_base {s : State} (k : Word) (h : BaseInv s) : BaseInv (validateTable k s).2 := by
  rw [validateTable_frame]; exact h.congr rfl rfl rfl rfl rfl

theorem validate_inv {s : State} (h : BaseInv s) (hl : LiveInv s) (hi : Issued s) (k : Word) :
    (reply .ok (mismatchCode (validateTable k s).1) (drawWord (validateTable k s).2).1
      (drawWord (validateTable k s).2).2).Leaves Inv id := by
  have hv := validateTable_frame k s
  generalize validateTable k s = v at hv
  rw [drawWord_env]
  exact reply_inv_of (u := { v.2 with env := v.2.env.draw.2 }) h hl hi (by rw [hv]; rfl) (by rw [hv]) (by rw [hv]) (by rw [hv]) _ _ _

theorem bgWaitFirst_inv {s : State} (h : BaseInv s) (hl : LiveInv s) (hi : Issued s) (hr : s.chState = .ready) :
    (bgWaitFirst s).Leaves Inv id := by
  unfold bgWaitFirst
  split
  · exact reply_inv h hl hi _ _ _
  · rename_i hcq
    split
    · exact reply_inv_of (u := clearNotify s) h hl hi rfl rfl rfl rfl _ _ _
    · split
      · exact reply_inv h hl hi _ _ _
      · have hintr : s.cfg.strategy = .intr := by cases hs : s.cfg.strategy <;> simp_all
        refine (h.congr (t := modPort s.seq.cur (fun p => { p with bgw := true }) s) rfl rfl (by simp) rfl rfl).inv fun _ => ?_
        obtain ⟨p, h1, h2, h3, h4⟩ := hi.port
        constructor
        · exact hl.streaming
        · exact hl.notFraming
        · exact hl.activeReady
        · exact hl.enables
        · exact hl.cqActive
        · exact hl.txmemBound
        · exact fun ho => (hl.tableComplete ho).congr rfl rfl
        · exact fun hr => (hl.configured hr).congr rfl rfl rfl rfl
        · exact hl.unconfigured
        · exact hl.cqTxmem
        · exact hl.cqLoop
        · exact hl.cqChunk
        · exact hl.drained
        · exact hl.intrLoop
        · intro q hm hb
          rcases mem_modify hm with hm | ⟨q, hq, rfl⟩
          · exact hl.waiting q hm hb
          · rw [h1] at hq; cases hq
            exact ⟨h2, hintr, by simp [hr]⟩
        · intro q hm hb
          rcases mem_modify hm with hm | ⟨q, hq, rfl⟩
          · exact hl.pending q hm hb
          · rw [h1] at hq; cases hq
            simp [h3] at hb
        · intro hne
          exact absurd (hl.cqActive hne).1 (by rw [hintr]; decide)

/-! ### CH.TEARDOWN -/

/-- The state teardown leaves before its reply (R286), as one update. -/
theorem teardown_eq (s : State) : teardown s =
    { s with
      thrIe := false, doneIe := false
      hw := { s.hw with txEn := false, txmem := [], thrPend := false, donePend := false, configured := false }
      env := (s.env.note 0x14 []).note 0x15 []
      ports := if s.cq.phase = .idle then s.ports else
        s.ports.modify s.cq.port fun p => { p with rstat := rstatByte .rejHalted .none, res := 0, busy := false }
      cq := if s.cq.phase = .idle then s.cq else { s.cq with phase := .idle, n := 0 }
      drvState := .idle, orchPhase := .idle
      registry := s.registry.filter (fun e => e ≠ (s.cfg.channelId, s.params.channel))
      chState := .halted
      err := { s.err with restartReq := true } } := by
  by_cases hp : s.cq.phase = .idle
  · apply State.eq_of_fields <;> simp [teardown, releaseCqPort, hp, Env.note, txTeardown, txDisable, maskEvents, noteCall]
    refine congrArg (fun q => List.filter q s.registry) (funext fun e => ?_)
    by_cases he : e = (s.cfg.channelId, s.params.channel) <;> simp [he]
  · apply State.eq_of_fields <;> simp [teardown, releaseCqPort, hp, Env.note, txTeardown, txDisable, maskEvents, noteCall]
    refine congrArg (fun q => List.filter q s.registry) (funext fun e => ?_)
    by_cases he : e = (s.cfg.channelId, s.params.channel) <;> simp [he]

theorem teardown_inv {s : State} (h : BaseInv s) (hl : LiveInv s) (hi : Issued s) :
    (reply .ok .none 0 (teardown s)).Leaves Inv id := by
  have hbase : BaseInv (teardown s) := by
    rw [teardown_eq]
    refine h.congr rfl rfl ?_ rfl ?_
    · dsimp only; split <;> simp
    · dsimp only; split <;> rfl
  have hlive : LiveInv (teardown s) := by
    rw [teardown_eq]
    constructor
    · simp
    · simp
    · simp
    · simp
    · intro hne; exfalso; apply hne; dsimp only; split
      · assumption
      · rfl
    · simp
    · exact fun ho => (hl.tableComplete ho).congr rfl rfl
    · simp
    · simp
    · simp
    · simp
    · intro hne; exfalso
      have : (if s.cq.phase = .idle then s.cq else { s.cq with phase := .idle, n := 0 }).phase = .idle := by
        split
        · assumption
        · rfl
      rw [this] at hne; cases hne
    · simp
    · simp
    · intro p hm hb
      dsimp only at hm ⊢
      by_cases hp : s.cq.phase = .idle
      · rw [if_pos hp] at hm
        have := hl.waiting p hm hb
        exact ⟨this.1, this.2.1, by simp⟩
      · rw [if_neg hp] at hm
        rcases mem_modify hm with hm | ⟨q, hq, rfl⟩
        · have := hl.waiting p hm hb
          exact ⟨this.1, this.2.1, by simp⟩
        · have := hl.waiting q (List.mem_of_getElem? hq) hb
          exact absurd (hl.cqActive hp).1 (by rw [this.2.1]; decide)
    · intro p hm hb
      dsimp only at hm ⊢
      by_cases hp : s.cq.phase = .idle
      · rw [if_pos hp] at hm; exact hl.pending p hm hb
      · rw [if_neg hp] at hm
        rcases mem_modify hm with hm | ⟨q, hq, rfl⟩
        · exact hl.pending p hm hb
        · obtain ⟨q', h1, -, h3⟩ := hl.cqPort hp
          rw [h1] at hq; cases hq
          simp [h3] at hb
    · intro hne; exfalso; apply hne; dsimp only; split
      · assumption
      · rfl
  refine reply_inv hbase hlive ?_ _ _ _
  rw [teardown_eq]
  constructor
  · obtain ⟨p, h1, h2⟩ := hi.port
    refine ⟨p, ?_, h2⟩
    dsimp only
    split
    · exact h1
    · rename_i hp
      have hk : ¬ s.cq.port = s.seq.cur := hi.notCq hp
      simp [h1, hk]
  · intro hne; exfalso; apply hne; dsimp only; split
    · assumption
    · rfl

end Sys2Proof.Machine
end

