-- ==== Sys2Proof/Laws/Frame.lean ====
section
/-! SUPPORT. Initialisation, frames and the agents' own steps: what each does on a channel whose invariant holds, and that it
keeps the invariant. -/

namespace Sys2Proof.Machine

/-! ### Channels at rest -/

/-- `LiveInv` of a channel with no frame in flight and nothing waiting. -/
theorem LiveInv.quiet {t : State} (hd : t.drvState = .idle) (ho : t.orchPhase = .idle) (h1 : t.thrIe = false)
    (h2 : t.doneIe = false) (hp : t.cq.phase = .idle) (hx : t.hw.txmem.length ≤ t.params.hwDepth)
    (ht : t.tblOk = true → TableComplete t) (hc : t.chState = .ready → Configured t)
    (hu : t.chState = .reset → t.tblOk = false)
    (hq : t.chState = .ready → t.cfg.strategy = .cq → t.hw.txmem = [])
    (hw : ∀ p ∈ t.ports, p.bgw = true → p.busy = true ∧ t.cfg.strategy = .intr ∧ t.chState ≠ .reset)
    (hn : ∀ p ∈ t.ports, p.cmd.isSome = true → p.busy = true ∧ p.bgw = false) : LiveInv t := by
  constructor
  · simp [hd, ho]
  · simp [ho]
  · simp [hd]
  · simp [h1, h2]
  · simp [hp]
  · exact hx
  · exact ht
  · exact hc
  · exact hu
  · exact fun a b _ => hq a b
  · simp [hd]
  · simp [hp]
  · simp [hd]
  · simp [hd]
  · exact hw
  · exact hn
  · simp [hp]

/-- What `LiveInv` says of a channel with no frame in flight. -/
theorem LiveInv.idleFacts {s : State} (h : LiveInv s) (hd : s.drvState = .idle) :
    s.orchPhase = .idle ∧ s.thrIe = false ∧ s.doneIe = false ∧ s.cq.phase = .idle := by
  have h1 := h.streaming
  have h2 := h.notFraming
  have h3 := h.enables
  have h4 := h.cqActive
  refine ⟨?_, ?_, ?_, ?_⟩
  · cases ho : s.orchPhase <;> simp_all
  · cases ho : s.thrIe <;> simp_all
  · cases ho : s.doneIe <;> simp_all
  · by_contra hne; have := (h4 hne).2; simp_all

/-- What `LiveInv` says of a channel that is not READY. -/
theorem LiveInv.notReady {s : State} (h : LiveInv s) (hr : s.chState ≠ .ready) : s.drvState = .idle := by
  cases hd : s.drvState with
  | idle => rfl
  | active => exact absurd (h.activeReady hd).1 hr

/-! ### CH.INIT -/

/-- Latching a configuration in RESET. -/
theorem latchConfig_live {s : State} (d : Descriptor) (hl : LiveInv s) (hr : s.chState = .reset) :
    LiveInv (latchConfig d s) := by
  have hd := hl.notReady (by rw [hr]; decide)
  obtain ⟨h1, h2, h3, h4⟩ := hl.idleFacts hd
  have ho := hl.unconfigured hr
  refine LiveInv.quiet hd h1 h2 h3 h4 hl.txmemBound ?_ ?_ hl.unconfigured ?_ ?_ hl.pending
  · intro h; exact absurd (ho.symm.trans h) (by decide)
  · intro h; exact absurd (hr.symm.trans h) (by decide)
  · intro h; exact absurd (hr.symm.trans h) (by decide)
  · intro p hm hb; exact absurd hr (hl.waiting p hm hb).2.2

/-- A failed `CH.INIT` (R270, R331) on a channel in RESET whose table is not complete. -/
theorem configFail_inv {s t : State} (i : Word) (hb : BaseInv s) (hl : LiveInv s) (hi : Issued s) (hr : s.chState = .reset)
    (ht : t = { s with tbl := t.tbl, tblOk := t.tblOk }) (ho : t.tblOk = s.tblOk) : Inv (configFail i t) := by
  have hd := hl.notReady (by rw [hr]; decide)
  obtain ⟨h1, h2, h3, h4⟩ := hl.idleFacts hd
  have hto := hl.unconfigured hr
  let u : State := { t with chState := .halted, err := { (recordError .configurationError i t).err with restartReq := true } }
  have hu : configFail i t = completePort u.seq.cur .cfgError .configurationError i u := rfl
  have hbu : BaseInv u := hb.congr (by simp only [u]; rw [ht]) (by simp only [u]; rw [ht]) (by simp only [u]; rw [ht])
    (by simp only [u]; rw [ht]) (by simp only [u]; rw [ht])
  have hlu : LiveInv u := by
    refine LiveInv.quiet ?_ ?_ ?_ ?_ ?_ ?_ ?_ ?_ ?_ ?_ ?_ ?_
    · simp only [u]; rw [ht]; exact hd
    · simp only [u]; rw [ht]; exact h1
    · simp only [u]; rw [ht]; exact h2
    · simp only [u]; rw [ht]; exact h3
    · simp only [u]; rw [ht]; exact h4
    · simp only [u]; rw [ht]; exact hl.txmemBound
    · intro h; simp only [u] at h; rw [ho, hto] at h; cases h
    · intro h; simp [u] at h
    · intro h; simp [u] at h
    · intro h; simp [u] at h
    · intro p hm hb
      have hm' : p ∈ s.ports := by simp only [u] at hm; rw [ht] at hm; exact hm
      exact absurd hr (hl.waiting p hm' hb).2.2
    · intro p hm hb
      have hm' : p ∈ s.ports := by simp only [u] at hm; rw [ht] at hm; exact hm
      exact hl.pending p hm' hb
  have hiu : Issued u := hi.congr (by simp only [u]; rw [ht]) (by simp only [u]; rw [ht])
    (fun hne => absurd (show u.cq.phase = .idle by simp only [u]; rw [ht]; exact h4) hne)
  rw [hu]
  exact reply_inv hbu hlu hiu _ _ _

theorem configCheck_none {s : State} (h : configCheck s = none) :
    1 ≤ s.cfg.width ∧ s.cfg.width ≤ 32 ∧ s.cfg.slotsPerValue < s.params.ringCap ∧
      s.cfg.idleBits + s.cfg.startBits ≤ s.params.ringCap := by
  unfold configCheck at h
  split at h
  · cases h
  · split at h
    · cases h
    · split at h
      · cases h
      · split at h
        · cases h
        · split at h
          · cases h
          · split at h
            · cases h
            · rename_i a _ _ _ b c
              exact ⟨by omega, by omega, by omega, by omega⟩

/-- The end of a successful `CH.INIT` (R270), as one update before the reply. -/
def initState (s : State) : State :=
  { s with
    err := (validateTable s.cfg.tblHandle s).2.err
    env := s.env.note 0x11 [s.params.timingResolution, s.cfg.pin.setWidth 32, BitVec.ofNat 32 s.params.hwDepth]
    hw := { s.hw with configured := true, txmem := [], txEn := false, thrPend := false, donePend := false }
    registry :=
      if (s.cfg.channelId, s.params.channel) ∈ s.registry then s.registry
      else s.registry ++ [(s.cfg.channelId, s.params.channel)]
    chState := .ready }

theorem finishInit_eq (s : State) : finishInit s =
    completePort s.seq.cur .ok (mismatchCode (validateTable s.cfg.tblHandle s).1) 0 (initState s) := by
  have hv := validateTable_frame s.cfg.tblHandle s
  unfold finishInit initState
  dsimp only
  generalize validateTable s.cfg.tblHandle s = v at hv
  obtain ⟨b, u⟩ := v
  obtain ⟨e, he⟩ : ∃ e, u = { s with err := e } := ⟨_, hv⟩
  subst he
  rfl

theorem checkAndInstall_inv {s : State} (hb : BaseInv s) (hl : LiveInv s) (hi : Issued s) (hr : s.chState = .reset) :
    Inv (checkAndInstall s) := by
  unfold checkAndInstall
  split
  · exact configFail_inv _ hb hl hi hr rfl rfl
  · rename_i hc
    have hf := installTable_frame s.cfg.tblHandle s
    split
    · rename_i info t hit
      have h1 : (installTable s.cfg.tblHandle s).1 = some info := by rw [hit]
      have h2 := installTable_fail h1
      rw [hit] at hf h2
      exact configFail_inv _ hb hl hi hr hf h2
    · rename_i t hit
      have h1 : (installTable s.cfg.tblHandle s).1 = none := by rw [hit]
      have h2 := installTable_ok h1
      rw [hit] at hf h2
      dsimp only at hf h2
      have hd := hl.notReady (by rw [hr]; decide)
      obtain ⟨g1, g2, g3, g4⟩ := hl.idleFacts hd
      have hnw : ∀ p ∈ s.ports, p.bgw = true → False := fun p hm hbg => (hl.waiting p hm hbg).2.2 hr
      have hbt : BaseInv t := hb.congr (by rw [hf]) (by rw [hf]) (by rw [hf]) (by rw [hf]) (by rw [hf])
      obtain ⟨c1, c2, c3, c4⟩ := configCheck_none (s := t) (by rw [hf]; exact hc)
      rw [finishInit_eq]
      refine reply_inv (s := initState t) (hbt.congr rfl rfl rfl rfl rfl) ?_
        (hi.congr (by rw [hf]; rfl) (by rw [hf]; rfl) fun hne => absurd (show (initState t).cq.phase = .idle by rw [hf]; exact g4) hne) _ _ _
      refine LiveInv.quiet (by rw [hf]; exact hd) (by rw [hf]; exact g1) (by rw [hf]; exact g2) (by rw [hf]; exact g3)
        (by rw [hf]; exact g4) (Nat.zero_le _) (fun _ => h2.2.congr rfl rfl) (fun _ => ⟨(by intro h; cases h), h2.1, c1, c2, c3, c4⟩) ?_ ?_ ?_ ?_
      · intro h; cases h
      · intro _ _; rfl
      · intro p hm hbg
        have hm' : p ∈ s.ports := by rw [hf] at hm; exact hm
        exact (hnw p hm' hbg).elim
      · intro p hm hcm
        have hm' : p ∈ s.ports := by rw [hf] at hm; exact hm
        exact hl.pending p hm' hcm

theorem channelInit_inv {s : State} (hb : BaseInv s) (hl : LiveInv s) (hi : Issued s) : (channelInit s).Leaves Inv id := by
  unfold channelInit
  split
  · exact faulting_inv _ _ hb
  · exact reply_inv hb hl hi _ _ _
  · rename_i hr
    split
    · exact configFail_inv _ hb hl hi hr rfl rfl
    · rename_i d _
      exact checkAndInstall_inv (s := latchConfig d s) (hb.congr rfl rfl rfl rfl rfl) (latchConfig_live d hl hr)
        (hi.congr rfl rfl fun hne => ⟨hne, rfl⟩) hr

/-! ### The handler body -/

/-- The state after a chunk of n codes moved and `ENC.FILL` left the ring r, the data flag d and the environment e (R225). -/
def serviced (n : Nat) (r : Ring) (d : Bool) (e : Env) (s : State) : State :=
  { s with
    hw := { s.hw with txmem := s.hw.txmem ++ (ringCodes s).take n }
    ring := r, hasData := d, env := e
    cnt := { s.cnt with entries := s.cnt.entries + BitVec.ofNat 32 n, fills := s.cnt.fills + 1 } }

/-- `DRV.SERVICE` on a channel that `CH.INIT` configured (R225, R226, R233). -/
theorem driverService_ok {s : State} (h : RingInv s) (ht : TableComplete s) (hc : Configured s)
    (hd : s.hw.txmem.length ≤ s.params.hwDepth) :
    ∃ (r : Ring) (d : Bool) (e : Env) (vs : List (Word × Bool)),
      encoderFill (afterChunk (intrChunk s) s) = .ok (serviced (intrChunk s) r d e s) ∧
      driverService s = .ok (if r.used = 0 then endFrameIntr (serviced (intrChunk s) r d e s)
        else serviced (intrChunk s) r d e s) ∧
      RingInv { s with ring := r } ∧
      ringCodes { s with ring := r } =
        (ringCodes s).drop (intrChunk s) ++ vs.flatMap (fun p => valueCodes s p.1 ++ trailerCodes s p.2) ∧
      (r.used = 0 → d = false) ∧ (s.hasData = false → d = false) ∧ s.ring.used - intrChunk s ≤ r.used ∧
      (d = true → s.params.ringCap - r.used ≤ s.cfg.slotsPerValue) ∧
      r.ridx = (s.ring.ridx + intrChunk s) % s.params.ringCap := by
  have hn := intrChunk_le_used s
  obtain ⟨r, d, e, vs, h1, h2, h3, h4, h5, h6, h7⟩ := encoderFill_ok (s := afterChunk (intrChunk s) s)
    (afterChunk_ringInv h hn) (ht.congr rfl rfl) (hc.congr rfl rfl rfl rfl)
  have hser : ({ afterChunk (intrChunk s) s with
      ring := r, hasData := d, env := e,
      cnt := { (afterChunk (intrChunk s) s).cnt with fills := (afterChunk (intrChunk s) s).cnt.fills + 1 } } : State) =
        serviced (intrChunk s) r d e s := rfl
  rw [hser] at h1
  have hzero : r.used = 0 → d = false := by
    intro hr
    cases hdd : d with
    | false => rfl
    | true =>
      exfalso
      have hS := hc.slots_lt
      have : s.params.ringCap - r.used ≤ s.cfg.slotsPerValue := h4 hdd
      omega
  refine ⟨r, d, e, vs, h1, ?_, h2.congr rfl rfl, ?_, hzero, h5, h6, h4, h7⟩
  · rw [driverService_eq hd, h1]
    simp only [Except.bind]
    by_cases hr : r.used = 0
    · rw [if_pos (show frameDrained (serviced (intrChunk s) r d e s) = true by
        simp [frameDrained, serviced, hr, hzero hr]), if_pos hr]
    · rw [if_neg (show ¬ frameDrained (serviced (intrChunk s) r d e s) = true by
        simp [frameDrained, serviced, hr]), if_neg hr]
  · rw [ringCodes_afterChunk hn] at h3
    exact (ringCodes_congr rfl rfl).trans h3

/-- `DRV.SERVICE` leaves `TXMEM` non-empty if a code was staged or in it (R226, R228, R232). -/
theorem chunk_nonempty {s : State} (hp : paramsOk s.params = true) (hu : 0 < s.ring.used ∨ s.hw.txmem ≠ []) :
    s.hw.txmem ++ (ringCodes s).take (intrChunk s) ≠ [] := by
  simp only [paramsOk, Bool.and_eq_true, decide_eq_true_eq] at hp
  intro h
  obtain ⟨h1, h2⟩ := List.append_eq_nil_iff.1 h
  rcases hu with hu | hu
  · have hlen := congrArg List.length h2
    simp only [List.length_take, ringCodes_length, List.length_nil] at hlen
    have hz : intrChunk s = 0 := by have := intrChunk_le_used s; omega
    unfold intrChunk at hz
    rw [h1] at hz
    simp only [List.length_nil] at hz
    omega
  · exact hu h1

theorem chunk_bound {s : State} (hd : s.hw.txmem.length ≤ s.params.hwDepth) :
    (s.hw.txmem ++ (ringCodes s).take (intrChunk s)).length ≤ s.params.hwDepth := by
  have h1 := intrChunk_le_free s
  simp only [List.length_append, List.length_take]
  omega

/-- The ring of an `ENC.FILL` that ended without a fault keeps its canonical form. -/
theorem encoderFill_wf {s t : State} (h : s.ring.slots.wf = true) (ht : encoderFill s = .ok t) : t.ring.slots.wf = true := by
  have := encoderFill_slotsWf h
  rw [ht] at this; exact this

/-- A handler step keeps the invariant: `EV.THR` of a frame in flight (R231, R232). -/
theorem serviceActive_inv {s : State} (hb : BaseInv s) (hl : LiveInv s) (hd : s.drvState = .active)
    (hi : s.cfg.strategy = .intr) : (driverService { s with hw := { s.hw with thrPend := false } }).Leaves Inv id := by
  obtain ⟨hr, hok⟩ := hl.activeReady hd
  have hc := hl.configured hr
  have htc := hl.tableComplete hok
  obtain ⟨i1, i2, i3, i4, i5⟩ := hl.intrLoop hd hi
  have hpi : s.cq.phase = .idle := by
    by_contra hne; have := (hl.cqActive hne).1; rw [hi] at this; cases this
  let t : State := { s with hw := { s.hw with thrPend := false } }
  have htin : t.hw.txmem = s.hw.txmem := rfl
  have hring : RingInv t := hb.store.ring.congr rfl rfl
  obtain ⟨r, d, e, vs, h0, h1, h2, h3, h4, h5, h6, -, -⟩ := driverService_ok (s := t) hring (htc.congr rfl rfl) (hc.congr rfl rfl rfl rfl)
    hl.txmemBound
  have hwf : r.slots.wf = true := encoderFill_wf (s := afterChunk (intrChunk t) t) hb.store.slotsWf h0
  have hnon := chunk_nonempty (s := t) hb.params (.inl i4)
  have hbd := chunk_bound (s := t) hl.txmemBound
  rw [h1]
  have hbs : BaseInv (serviced (intrChunk t) r d e t) :=
    hb.of_store rfl rfl rfl ⟨h2.congr rfl rfl, hwf, hb.store.scratchWf⟩
  by_cases hu : r.used = 0
  · rw [if_pos hu]
    refine (hbs.congr (t := endFrameIntr (serviced (intrChunk t) r d e t)) (by simp) (by simp) (by simp) (by simp) (by simp)).inv
      fun _ => ?_
    refine LiveInv.quiet (by simp) (by simp) (by simp) (by simp) (by simpa [serviced] using hpi) ?_ ?_ ?_ ?_ ?_ ?_ ?_
    · simpa [serviced] using hbd
    · exact fun _ => htc.congr (by simp [serviced, t]) (by simp [serviced, t])
    · exact fun _ => hc.congr (by simp [serviced, t]) (by simp [serviced, t]) (by simp [serviced, t]) (by simp [serviced, t])
    · intro h; simp [serviced, t, hr] at h
    · intro _ h; simp [serviced, t, hi] at h
    · intro p hm hbg; simp only [endFrameIntr_ports] at hm
      have := hl.waiting p hm hbg
      simpa [serviced, t] using this
    · intro p hm hcm; simp only [endFrameIntr_ports] at hm; exact hl.pending p hm hcm
  · rw [if_neg hu]
    refine hbs.inv fun _ => ?_
    constructor
    · exact hl.streaming
    · exact hl.notFraming
    · exact hl.activeReady
    · exact hl.enables
    · exact hl.cqActive
    · exact hbd
    · exact fun _ => htc.congr rfl rfl
    · exact fun _ => hc.congr rfl rfl rfl rfl
    · exact hl.unconfigured
    · intro _ h; exact absurd (hi.symm.trans h) (by decide)
    · intro _ h; exact absurd (hi.symm.trans h) (by decide)
    · intro h; exact absurd (hpi.symm.trans h) (by decide)
    · intro _ h; exact absurd h hu
    · intro _ _; exact ⟨i1, i2, i3, Nat.pos_of_ne_zero hu, .inl hnon⟩
    · exact hl.waiting
    · exact hl.pending
    · intro h; exact absurd hpi h

/-- An underrun ends the frame (R235). -/
theorem execEvTxdone_inv {s : State} (hb : BaseInv s) (hl : LiveInv s) (hi : s.cfg.strategy = .intr)
    {t : State} (ht : execEvTxdone s = .next t) : Inv t := by
  have hpi : s.cq.phase = .idle := by
    by_contra hne; have := (hl.cqActive hne).1; rw [hi] at this; cases this
  unfold execEvTxdone at ht
  cases ht
  refine (hb.congr (by simp [eventReturn, eventEntry]) (by simp [eventReturn, eventEntry]) (by simp [eventReturn, eventEntry])
    (by simp [eventReturn, eventEntry]) (by simp [eventReturn, eventEntry])).inv fun _ => ?_
  refine LiveInv.quiet ?_ ?_ ?_ ?_ ?_ ?_ ?_ ?_ ?_ ?_ ?_ ?_
  all_goals simp only [eventReturn, eventEntry, toIdle_drvState, toIdle_orchPhase, toIdle_thrIe, toIdle_doneIe, toIdle_cq,
    toIdle_hw, toIdle_params, toIdle_tblOk, toIdle_chState, toIdle_cfg, toIdle_ports, txDisable_thrIe, txDisable_doneIe,
    txDisable_cq, txDisable_hw, txDisable_params, txDisable_tblOk, txDisable_chState, txDisable_cfg, txDisable_ports,
    maskEvents_thrIe, maskEvents_doneIe, maskEvents_cq, maskEvents_params, maskEvents_tblOk, maskEvents_chState,
    maskEvents_cfg, maskEvents_ports, giveNotify_cq, giveNotify_params, giveNotify_tblOk, giveNotify_chState, giveNotify_cfg,
    giveNotify_ports, recordError_cq, recordError_params, recordError_tblOk, recordError_chState, recordError_cfg,
    recordError_ports]
  · exact hpi
  · simp
  · exact fun ho => (hl.tableComplete ho).congr (by simp) (by simp)
  · exact fun ho => (hl.configured ho).congr (by simp) (by simp) (by simp) (by simp)
  · exact hl.unconfigured
  · simp
  · exact hl.waiting
  · exact hl.pending

/-! ### FRAME.START -/

/-- The counters a frame starts with (R276). -/
def startCounters (s : State) : Counters :=
  match s.params.counterPolicy with
  | .perFrame => { entries := 0, fills := 0, overruns := 0, timeouts := 0, txErrs := 0 }
  | .cumulative => s.cnt

theorem frameCounters_eq (s : State) : frameCounters s = { s with cnt := startCounters s } := by
  unfold frameCounters startCounters; cases s.params.counterPolicy <;> rfl

/-- The state right before the hand-off of a frame (R274): the ring r, the data flag d and the environment e are the
encoder's. -/
def started (r : Ring) (d : Bool) (e : Env) (s : State) : State :=
  { s with
    ring := r, hasData := d, env := e, notify := false
    cnt := { startCounters s with fills := (startCounters s).fills + 1 }
    drvState := .active, orchPhase := .streaming }

/-- The environment after the two calls that open a frame (R274), and the answer of the second. -/
def openingEnv (s : State) : Bool × Env :=
  (((s.env.note 0x03 []).frameStart s.cfg.srcHandle).note 0x01 []).more s.cfg.srcHandle

/-- The state in which the first `ENC.FILL` of a frame runs: framing written, flag set (R274, R277). -/
def opened (r : Ring) (s : State) : State :=
  { s with
    ring := r, hasData := (openingEnv s).1, env := (openingEnv s).2, notify := false, cnt := startCounters s
    orchPhase := .framingEmit }

/-- The framing goes into the empty ring (R276, R277). -/
theorem frameSetup_open {s : State} (ht : TableComplete s) (hc : Configured s) (hd : s.drvState = .idle) :
    ∃ r : Ring, frameSetup s = ((encoderFill (opened r s)).bind fun v => .ok { v with drvState := .active, orchPhase := .streaming }) ∧
      RingInv { s with ring := r } ∧ ringCodes { s with ring := r } = framingCodes s ∧ r.ridx = 0 := by
  let t : State := { s with
    ring := { s.ring with widx := 0, ridx := 0, used := 0 }
    hasData := (openingEnv s).1, env := (openingEnv s).2, notify := false, cnt := startCounters s, orchPhase := .framingEmit }
  have hpos : 0 < s.params.ringCap := Nat.zero_lt_of_lt hc.slots_lt
  have hri : RingInv t := RingInv.of_widx (Nat.zero_le _) hpos (by simp [t])
  obtain ⟨r, h1, h2, h3, -, h5⟩ := emitSymbols_ok (s := t)
    (bs := List.replicate s.cfg.idleBits BitSymbol.ifg ++ List.replicate s.cfg.startBits BitSymbol.frameStart) hri
    (TableReady.framing (s := t) ((hc.table ht).congr rfl rfl rfl rfl)) (by have := hc.framing_le; simp [t]; omega)
  refine ⟨r, ?_, h2.congr rfl rfl, ?_, h5⟩
  · have hreset : frameReset { s with orchPhase := .framingEmit } =
        .ok { s with
          ring := { s.ring with widx := 0, ridx := 0, used := 0 }, notify := false, cnt := startCounters s
          orchPhase := .framingEmit } := by
      unfold frameReset
      rw [ringReset_ok (s := { s with orchPhase := .framingEmit }) hd]
      simp only [bind, Except.bind, frameCounters_eq]
      rfl
    unfold frameSetup
    rw [hreset]
    simp only [bind, Except.bind, srcFrameStart_env, srcMore_env]
    have hem : emitFraming t = .ok { t with ring := r } := h1
    have hem' := hem
    simp only [t, openingEnv] at hem'
    rw [hem']
    rfl
  · have h4 : ringCodes t = [] := rfl
    rw [h4, List.nil_append] at h3
    refine (ringCodes_congr (t := ({ s with ring := r } : State)) rfl rfl).trans (h3.trans ?_)
    simp [framingCodes, t, Table.get]

/-- An accepted frame up to its hand-off (R274 to R277): no fault, and the ring holds the framing and then whole values. -/
theorem frameSetup_ok {s : State} (ht : TableComplete s) (hc : Configured s) (hd : s.drvState = .idle)
    (hwf : s.ring.slots.wf = true) :
    ∃ (r : Ring) (d : Bool) (e : Env) (vs : List (Word × Bool)),
      frameSetup s = .ok (started r d e s) ∧ RingInv { s with ring := r } ∧ r.slots.wf = true ∧
      ringCodes { s with ring := r } = framingCodes s ++ vs.flatMap (fun p => valueCodes s p.1 ++ trailerCodes s p.2) ∧
      (r.used = 0 → d = false) ∧ ((openingEnv s).1 = false → d = false) ∧
      (d = true → s.params.ringCap - r.used ≤ s.cfg.slotsPerValue) ∧ r.ridx = 0 := by
  obtain ⟨r0, h1, h2, h3, h4⟩ := frameSetup_open ht hc hd
  obtain ⟨r, d, e, vs, g1, g2, g3, g4, g5, -, g7⟩ := encoderFill_ok (s := opened r0 s) (h2.congr rfl rfl) (ht.congr rfl rfl) (hc.congr rfl rfl rfl rfl)
  have hall : (frameSetup s).Leaves (fun t => t.ring.slots.wf = true) id := by
    unfold frameSetup frameReset ringReset
    rw [if_neg (by rw [hd]; decide)]
    simp only [bind, Except.bind, frameCounters_eq]
    refine Res.Leaves.bind (r := emitFraming _) ?_ fun u hu => ?_
    · exact emitSymbols_slotsWf _ (by simpa using hwf)
    · exact Res.Leaves.bind (encoderFill_slotsWf hu) fun v hv => hv
  have heq : frameSetup s = .ok (started r d e s) := by
    rw [h1, g1]; rfl
  refine ⟨r, d, e, vs, heq, g2.congr rfl rfl, ?_, ?_, ?_, g5, g4, g7.trans h4⟩
  · rw [heq] at hall; exact hall
  · have h4 : ringCodes (opened r0 s) = framingCodes s := (ringCodes_congr rfl rfl).trans h3
    rw [h4] at g3
    exact (ringCodes_congr rfl rfl).trans g3
  · intro hr
    cases hdd : d with
    | false => rfl
    | true =>
      exfalso
      have hS := hc.slots_lt
      have : s.params.ringCap - r.used ≤ s.cfg.slotsPerValue := g4 hdd
      omega

/-- The prime of an INTR frame (R228): one service, the transmitter enabled, the events armed if the frame goes on. -/
def primed (n : Nat) (r : Ring) (d : Bool) (e : Env) (s : State) : State :=
  if r.used = 0 then
    { endFrameIntr (serviced n r d e s) with hw := { (serviced n r d e s).hw with txEn := true } }
  else
    { serviced n r d e s with
      hw := { (serviced n r d e s).hw with txEn := true, thrPend := false, donePend := false }, thrIe := true, doneIe := true }

theorem primeIntr_ok {s : State} (h : RingInv s) (ht : TableComplete s) (hc : Configured s)
    (hd : s.hw.txmem.length ≤ s.params.hwDepth) (ha : s.drvState = .active) (hwf : s.ring.slots.wf = true) :
    ∃ (r : Ring) (d : Bool) (e : Env) (vs : List (Word × Bool)),
      encoderFill (afterChunk (intrChunk s) s) = .ok (serviced (intrChunk s) r d e s) ∧
      primeIntr s = .ok (primed (intrChunk s) r d e s) ∧ RingInv { s with ring := r } ∧ r.slots.wf = true ∧
      ringCodes { s with ring := r } =
        (ringCodes s).drop (intrChunk s) ++ vs.flatMap (fun p => valueCodes s p.1 ++ trailerCodes s p.2) ∧
      (r.used = 0 → d = false) ∧ (s.hasData = false → d = false) ∧ s.ring.used - intrChunk s ≤ r.used ∧
      (d = true → s.params.ringCap - r.used ≤ s.cfg.slotsPerValue) ∧
      r.ridx = (s.ring.ridx + intrChunk s) % s.params.ringCap := by
  obtain ⟨r, d, e, vs, h0, h1, h2, h3, h4, h5, h6⟩ := driverService_ok h ht hc hd
  refine ⟨r, d, e, vs, h0, ?_, h2, encoderFill_wf (s := afterChunk (intrChunk s) s) hwf h0, h3, h4, h5, h6⟩
  unfold primeIntr
  rw [h1]
  by_cases hu : r.used = 0
  · simp only [bind, Except.bind, hu, if_true, primed]
    rw [if_neg (by simp)]
    simp
  · simp only [bind, Except.bind, hu, if_false, primed]
    rw [if_pos (by simpa [serviced] using ha)]
    rfl

theorem frameBegin_inv {s : State} (hb : BaseInv s) (hl : LiveInv s) (hi : Issued s) (hr : s.chState = .ready)
    (hd : s.drvState = .idle) : (frameBegin s).Leaves Inv id := by
  have hc := hl.configured hr
  have ht := hl.tableComplete hc.tblOk
  obtain ⟨f1, f2, f3, f4⟩ := hl.idleFacts hd
  obtain ⟨r, d, e, vs, h1, h2, h3, h4, h5, h6, -, -⟩ := frameSetup_ok ht hc hd hb.store.slotsWf
  unfold frameBegin
  rw [h1]
  simp only [bind, Except.bind]
  have hcfg : (started r d e s).cfg = s.cfg := rfl
  rw [hcfg]
  cases hs : s.cfg.strategy with
  | intr =>
    obtain ⟨r2, d2, e2, vs2, g0, g1, g2, g3, g4, g5, g6, g7, -, -⟩ := primeIntr_ok (s := started r d e s) (h2.congr rfl rfl)
      (ht.congr rfl rfl) (hc.congr rfl rfl rfl rfl) hl.txmemBound rfl h3
    simp only [g1]
    have hbp : BaseInv (primed (intrChunk (started r d e s)) r2 d2 e2 (started r d e s)) := by
      unfold primed
      split
      · exact hb.of_store (by simp [serviced, started]) (by simp [serviced, started]) (by simp [serviced, started])
          ⟨g2.congr (by simp [serviced]) (by simp [serviced]), by simpa [serviced] using g3,
            by simpa [serviced, started] using hb.store.scratchWf⟩
      · exact hb.of_store rfl rfl rfl ⟨g2.congr rfl rfl, g3, hb.store.scratchWf⟩
    have hnon : 0 < r.used → (started r d e s).hw.txmem ++ (ringCodes (started r d e s)).take (intrChunk (started r d e s)) ≠ [] :=
      fun hu => chunk_nonempty (s := started r d e s) hb.params (.inl hu)
    have hbd := chunk_bound (s := started r d e s) hl.txmemBound
    refine reply_inv hbp ?_ ?_ _ _ _
    · unfold primed
      by_cases hu : r2.used = 0
      · rw [if_pos hu]
        refine LiveInv.quiet (by simp) (by simp) (by simp) (by simp) (by simpa [serviced, started] using f4) ?_ ?_ ?_ ?_ ?_ ?_ ?_
        · simpa [serviced] using hbd
        · exact fun _ => ht.congr (by simp [serviced, started]) (by simp [serviced, started])
        · exact fun _ => hc.congr (by simp [serviced, started]) (by simp [serviced, started]) (by simp [serviced, started]) (by simp [serviced, started])
        · intro h; simp [serviced, started, hr] at h
        · intro _ h; simp [serviced, started, hs] at h
        · intro p hm hbg
          simp only [endFrameIntr_ports] at hm
          have := hl.waiting p hm hbg
          simpa [serviced, started] using this
        · intro p hm hcm
          simp only [endFrameIntr_ports] at hm
          exact hl.pending p hm hcm
      · rw [if_neg hu]
        have hused : 0 < r.used := by
          by_contra hz
          have hz : r.used = 0 := by omega
          have hd0 := h5 hz
          have hdd2 : d2 = false := g6 hd0
          have hch : intrChunk (started r d e s) = 0 := by
            have h7 := intrChunk_le_used (started r d e s)
            have h8 : (started r d e s).ring.used = r.used := rfl
            omega
          -- nothing staged and no data left: the fill writes nothing
          have hnd : encoderFill (afterChunk (intrChunk (started r d e s)) (started r d e s)) =
              .ok { afterChunk (intrChunk (started r d e s)) (started r d e s) with
                cnt := { (afterChunk (intrChunk (started r d e s)) (started r d e s)).cnt with
                  fills := (afterChunk (intrChunk (started r d e s)) (started r d e s)).cnt.fills + 1 } } := by
            unfold encoderFill
            cases (afterChunk (intrChunk (started r d e s)) (started r d e s)).params.ringCap with
            | zero => rfl
            | succ n =>
              simp only [fillLoop]
              rw [if_neg (by intro hh; have := hh.2; simp only [afterChunk, countEntries, afterAdvance, started, hd0] at this; cases this)]
          rw [hnd] at g0
          have hr2 := congrArg (fun t => match t with | .ok v => v.ring.used | .error _ => 0) g0
          simp only [serviced, afterChunk, countEntries, afterAdvance, started] at hr2
          omega
        constructor
        · exact ⟨fun _ => rfl, fun _ => rfl⟩
        · intro h; cases h
        · exact fun _ => ⟨hr, hc.tblOk⟩
        · exact fun _ => ⟨hs, rfl⟩
        · intro h; exact absurd f4 h
        · exact hbd
        · exact fun _ => ht.congr rfl rfl
        · exact fun _ => hc.congr rfl rfl rfl rfl
        · exact hl.unconfigured
        · intro _ h; exact absurd (hs.symm.trans h) (by decide)
        · intro _ h; exact absurd (hs.symm.trans h) (by decide)
        · intro h; exact absurd (f4.symm.trans h) (by decide)
        · intro _ h; exact absurd h hu
        · intro _ _; exact ⟨rfl, rfl, rfl, Nat.pos_of_ne_zero hu, .inl (hnon hused)⟩
        · exact hl.waiting
        · exact hl.pending
        · intro h; exact absurd f4 h
    · refine hi.congr ?_ ?_ ?_
      · unfold primed; split <;> simp [serviced, started]
      · unfold primed; split <;> simp [serviced, started]
      · intro hne; exfalso; apply hne
        unfold primed; split <;> simpa [serviced, started] using f4
  | cq =>
    have hx := hl.cqTxmem hr hs (by rw [f4]; decide)
    refine (hb.of_store (t := { started r d e s with cq := { s.cq with port := s.seq.cur, phase := .send } })
      rfl rfl rfl ⟨h2.congr rfl rfl, h3, hb.store.scratchWf⟩).inv fun _ => ?_
    constructor
    · exact ⟨fun _ => rfl, fun _ => rfl⟩
    · intro h; cases h
    · exact fun _ => ⟨hr, hc.tblOk⟩
    · intro h; have h' : s.thrIe = true ∨ s.doneIe = true := h; rw [f2, f3] at h'; simp at h'
    · exact fun _ => ⟨hs, rfl⟩
    · exact hl.txmemBound
    · exact fun _ => ht.congr rfl rfl
    · exact fun _ => hc.congr rfl rfl rfl rfl
    · exact hl.unconfigured
    · exact fun _ _ _ => hx
    · intro _ _ h; cases h
    · intro h; cases h
    · exact fun _ h => h5 h
    · intro _ h; exact absurd (hs.symm.trans h) (by decide)
    · exact hl.waiting
    · exact hl.pending
    · intro _
      obtain ⟨p, p1, p2, p3, -⟩ := hi.port
      exact ⟨p, p1, p2, p3⟩

theorem frameStart_inv {s : State} (hb : BaseInv s) (hl : LiveInv s) (hi : Issued s) :
    (whenReady 0x51 s
      (if s.paused then reply .rejPaused .none 0 s
       else if s.drvState = .active then reply .rejBusy .none 0 s
       else frameBegin s)).Leaves Inv id := by
  refine whenReady_inv hb hl hi fun hr => ?_
  split
  · exact reply_inv hb hl hi _ _ _
  · split
    · exact reply_inv hb hl hi _ _ _
    · rename_i hd
      exact frameBegin_inv hb hl hi hr (by cases h : s.drvState <;> simp_all)

/-! ### The completion-queue loop -/

/-- `TX.TRANSMIT` as one update (R311). -/
theorem txTransmit_eq (codes : List Word) (s : State) :
    let d := (s.env.note 0x12 (codes ++ [s.params.timeout])).draw
    txTransmit codes s =
      if d.1.getLsbD 0 then (true, { s with env := d.2, hw := { s.hw with txmem := s.hw.txmem ++ codes, txEn := true } })
      else (false, { s with
        env := d.2.draw.2
        hw := { s.hw with wire := s.hw.wire ++ codes.take (d.2.draw.1.toNat % (codes.length + 1)) } }) := by
  unfold txTransmit
  simp only [drawBit_env, drawWord_env, noteCall_eq]

/-- `TX.AWAIT` as one update (R312, R243). -/
theorem txAwait_eq (s : State) :
    let e := s.env.note 0x13 [s.params.timeout]
    txAwait s =
      if s.hw.txmem.isEmpty then (e.draw.1.getLsbD 0, { s with env := e.draw.2 })
      else (false, { s with env := e, hw := { s.hw with txmem := [] } }) := by
  unfold txAwait
  simp only [drawBit_env, noteCall_eq]

/-- The end of a CQ frame (R245). -/
theorem cqFinish_inv {s u : State} (hb : BaseInv s) (hl : LiveInv s) (hr : s.chState = .ready) (hp : s.cq.phase ≠ .idle)
    (hs : CoreSame s u) (hst : StoreInv u) (hports : u.ports = s.ports) (hport : u.cq.port = s.cq.port)
    (h1 : u.thrIe = s.thrIe) (h2 : u.doneIe = s.doneIe) (hx : u.hw.txmem = []) (rc : ResultCode) (e : ErrCode) :
    Inv (cqFinish rc e u) := by
  obtain ⟨hcq, hd⟩ := hl.cqActive hp
  have hc := hl.configured hr
  have ht := hl.tableComplete hc.tblOk
  have hie : s.thrIe = false ∧ s.doneIe = false := by
    have := hl.enables
    constructor
    · cases ho : s.thrIe <;> simp_all
    · cases ho : s.doneIe <;> simp_all
  have hbf : BaseInv (cqFinish rc e u) := hb.of_store (by simpa using hs.params) (by simpa using congrArg SeqState.invoke hs.seq)
    (by simp [hports]) (cqFinish_storeInv rc e hst)
  refine hbf.inv fun _ => ?_
  refine LiveInv.quiet (by simp) (by simp) (by simpa [h1] using hie.1) (by simpa [h2] using hie.2) (by simp)
    (by simp [hx]) ?_ ?_ ?_ ?_ ?_ ?_
  · exact fun _ => ht.congr (by simpa using hs.cfg) (by simpa using hs.tbl)
  · exact fun _ => hc.congr (by simpa using hs.params) (by simpa using hs.cfg) (by simpa using hs.tblOk) (by simpa using hs.chState)
  · intro h; simp [hs.chState, hr] at h
  · intro _ _; simpa using hx
  · intro p hm hbg
    simp only [cqFinish_ports, hports, hport] at hm
    rcases mem_modify hm with hm | ⟨q, hq, rfl⟩
    · exact absurd (hl.waiting p hm hbg).2.1 (by rw [hcq]; decide)
    · exact absurd (hl.waiting q (List.mem_of_getElem? hq) hbg).2.1 (by rw [hcq]; decide)
  · intro p hm hcm
    simp only [cqFinish_ports, hports, hport] at hm
    rcases mem_modify hm with hm | ⟨q, hq, rfl⟩
    · exact hl.pending p hm hcm
    · obtain ⟨q', g1, -, g3⟩ := hl.cqPort hp
      rw [g1] at hq; cases hq
      simp [g3] at hcm

theorem cqSend_inv {s : State} (hb : BaseInv s) (hl : LiveInv s) (hr : s.chState = .ready) (hp : s.cq.phase = .send) :
    (cqSend s).Leaves Inv id := by
  have hne : s.cq.phase ≠ .idle := by rw [hp]; decide
  obtain ⟨hcq, hd⟩ := hl.cqActive hne
  have hc := hl.configured hr
  have ht := hl.tableComplete hc.tblOk
  have hx := hl.cqTxmem hr hcq (by rw [hp]; decide)
  have hpar := hb.params
  simp only [paramsOk, Bool.and_eq_true, decide_eq_true_eq] at hpar
  unfold cqSend
  split
  · exact cqFinish_inv hb hl hr hne (.refl s) hb.store rfl rfl rfl rfl hx _ _
  · rename_i hdr
    have hused : 0 < s.ring.used := by
      by_contra hz
      have hz : s.ring.used = 0 := by omega
      exact hdr (by simp [frameDrained, hz, hl.drained hd hz])
    dsimp only
    rw [copyChunk_ok (by omega)]
    simp only [bind, Except.bind, List.drop_zero]
    generalize hn : min s.params.maxChunk s.ring.used = n
    have hlen : ((ringCodes s).take n).length = n := by simp; omega
    have hrun : scratchRun (afterCopy 0 ((ringCodes s).take n) s) n = (ringCodes s).take n := by
      have := afterCopy_run ((ringCodes s).take n) s
      rwa [hlen] at this
    have hwf := afterCopy_wf 0 ((ringCodes s).take n) s hb.store.scratchWf
    generalize hsc : (afterCopy 0 ((ringCodes s).take n) s).cq.scratch = sc at hwf
    have hac : afterCopy 0 ((ringCodes s).take n) s = { s with cq := { s.cq with scratch := sc } } := by
      rw [afterCopy_frame, hsc]
    rw [hac] at hrun ⊢
    let u : State := { s with cq := { s.cq with scratch := sc, n := n } }
    have hu : ({ ({ s with cq := { s.cq with scratch := sc } } : State) with
        cq := { ({ s with cq := { s.cq with scratch := sc } } : State).cq with n := n } } : State) = u := rfl
    rw [hu]
    have hrun' : scratchRun u n = (ringCodes s).take n := hrun
    rw [hrun']
    have hbu : BaseInv u := hb.of_store rfl rfl rfl (⟨hb.store.ring.congr rfl rfl, hb.store.slotsWf, hwf⟩)
    have htx := txTransmit_eq ((ringCodes s).take n) u
    dsimp only at htx
    split
    · rename_i hok
      rw [htx] at hok ⊢
      split at hok
      · rename_i hbit
        simp only [hbit, if_true]
        refine (hb.of_store (t := { u with
            hw := { u.hw with txmem := u.hw.txmem ++ (ringCodes s).take n, txEn := true }
            env := ((u.env.note 0x12 ((ringCodes s).take n ++ [u.params.timeout])).draw).2
            cq := { u.cq with phase := .await } }) rfl rfl rfl ⟨hb.store.ring.congr rfl rfl, hb.store.slotsWf, hwf⟩).inv fun _ => ?_
        constructor
        · exact hl.streaming
        · exact hl.notFraming
        · exact hl.activeReady
        · exact hl.enables
        · exact fun _ => ⟨hcq, hd⟩
        · show (s.hw.txmem ++ (ringCodes s).take n).length ≤ s.params.hwDepth
          rw [hx, List.nil_append, hlen]; omega
        · exact fun _ => ht.congr rfl rfl
        · exact fun _ => hc.congr rfl rfl rfl rfl
        · exact hl.unconfigured
        · intro _ _ h; exact absurd rfl h
        · intro _ _ h; cases h
        · intro _
          have h1 : 1 ≤ n := by omega
          have h2 : n ≤ s.ring.used := by omega
          have h3 : n ≤ s.params.maxChunk := by omega
          exact ⟨h1, h2, h3⟩
        · exact hl.drained
        · intro _ h; exact absurd (hcq.symm.trans h) (by decide)
        · exact hl.waiting
        · exact hl.pending
        · exact fun _ => hl.cqPort hne
      · cases hok
    · rename_i hok
      have hfr := txTransmit_frame ((ringCodes s).take n) u
      have hmem : (txTransmit ((ringCodes s).take n) u).2.hw.txmem = [] := by
        by_cases hbit : (u.env.note 0x12 ((ringCodes s).take n ++ [u.params.timeout])).draw.1.getLsbD 0 = true
        · exact absurd (by rw [htx, if_pos hbit]) hok
        · rw [htx, if_neg hbit]; exact hx
      exact cqFinish_inv hb hl hr hne
        (u := recordError .transmitError (BitVec.ofNat 32 n)
          { (txTransmit ((ringCodes s).take n) u).2 with
            cnt := { (txTransmit ((ringCodes s).take n) u).2.cnt with
              txErrs := (txTransmit ((ringCodes s).take n) u).2.cnt.txErrs + 1 } })
        (CoreSame.trans (t := u) ⟨rfl, rfl, rfl, rfl, rfl, rfl, rfl, rfl⟩
          (CoreSame.trans (txTransmit_coreSame ((ringCodes s).take n) u) ⟨rfl, rfl, rfl, rfl, rfl, rfl, rfl, rfl⟩))
        ((txTransmit_storeInv ((ringCodes s).take n) hbu.store).congr rfl rfl rfl)
        (by simp only [recordError_ports]; rw [hfr]) (by simp only [recordError_cq]; rw [hfr])
        (by simp only [recordError_thrIe]; rw [hfr]) (by simp only [recordError_doneIe]; rw [hfr])
        (by simp only [recordError_hw]; exact hmem) _ _

theorem cqAwait_inv {s : State} (hb : BaseInv s) (hl : LiveInv s) (hr : s.chState = .ready) (hp : s.cq.phase = .await) :
    (cqAwait s).Leaves Inv id := by
  have hne : s.cq.phase ≠ .idle := by rw [hp]; decide
  obtain ⟨hcq, hd⟩ := hl.cqActive hne
  have hc := hl.configured hr
  have ht := hl.tableComplete hc.tblOk
  obtain ⟨k1, k2, k3⟩ := hl.cqChunk hp
  have htx := txAwait_eq s
  dsimp only at htx
  unfold cqAwait
  dsimp only
  split
  · rename_i hok
    have hemp : s.hw.txmem = [] := by
      rw [htx] at hok
      split at hok
      · rename_i he; simpa using he
      · cases hok
    rw [htx] at hok ⊢
    rw [if_pos (by simp [hemp])] at hok ⊢
    generalize ((s.env.note 0x13 [s.params.timeout]).draw).2 = e0
    unfold advanceAndFill
    rw [ringAdvance_ok (s := { s with env := e0 }) k2]
    simp only [bind, Except.bind]
    let u : State := { countEntries s.cq.n (afterAdvance s.cq.n { s with env := e0 }) with cq := { s.cq with n := 0 } }
    have hru : RingInv u := (afterAdvance_ringInv (s := { s with env := e0 }) (hb.store.ring.congr rfl rfl) k2).congr rfl rfl
    obtain ⟨r, d, e, vs, g1, g2, g3, g4, -, -, -⟩ := encoderFill_ok (s := u) hru (ht.congr rfl rfl) (hc.congr rfl rfl rfl rfl)
    have hwf : r.slots.wf = true := encoderFill_wf (s := u) hb.store.slotsWf g1
    have g1' := g1
    simp only [u] at g1'
    have hcn : (countEntries s.cq.n (afterAdvance s.cq.n { s with env := e0 })).cq = s.cq := rfl
    simp only [hcn]
    rw [g1']
    simp only [Res.Leaves]
    refine (hb.of_store (t := { u with
        ring := r, hasData := d, env := e, cnt := { u.cnt with fills := u.cnt.fills + 1 }, cq := { u.cq with phase := .send } })
      rfl rfl rfl ⟨g2.congr rfl rfl, hwf, hb.store.scratchWf⟩).inv fun _ => ?_
    constructor
    · exact hl.streaming
    · exact hl.notFraming
    · exact hl.activeReady
    · exact hl.enables
    · exact fun _ => ⟨hcq, hd⟩
    · exact hl.txmemBound
    · exact fun _ => ht.congr rfl rfl
    · exact fun _ => hc.congr rfl rfl rfl rfl
    · exact hl.unconfigured
    · exact fun _ _ _ => hemp
    · intro _ _ h; cases h
    · intro h; cases h
    · intro _ hu
      cases hdd : d with
      | false => rfl
      | true =>
        exfalso
        have hS := hc.slots_lt
        have h7 : s.params.ringCap - r.used ≤ s.cfg.slotsPerValue := g4 hdd
        have h8 : r.used = 0 := hu
        omega
    · intro _ h; exact absurd (hcq.symm.trans h) (by decide)
    · exact hl.waiting
    · exact hl.pending
    · exact fun _ => hl.cqPort hne
  · rename_i hok
    have hfr := txAwait_frame s
    have hmem : (txAwait s).2.hw.txmem = [] := by
      rw [htx]
      split
      · rename_i he; simpa using he
      · rfl
    exact cqFinish_inv hb hl hr hne
      (u := noteTimeout (txAwait s).2.cq.n (txAwait s).2)
      ((txAwait_coreSame s).trans ⟨by simp, by simp, by simp, by simp, by simp, by simp, by simp, by simp⟩)
      ((txAwait_storeInv hb.store).congr (by simp) (by simp) (by simp))
      (by simp only [noteTimeout_ports]; rw [hfr]) (by simp only [noteTimeout_cq]; rw [hfr])
      (by simp only [noteTimeout_thrIe]; rw [hfr]) (by simp only [noteTimeout_doneIe]; rw [hfr])
      (by simp only [noteTimeout_hw]; exact hmem) _ _

theorem cqStep_inv {s : State} (hb : BaseInv s) (hl : LiveInv s) (hr : s.chState = .ready) : (cqStep s).Leaves Inv id := by
  unfold cqStep
  split
  · exact hb.inv fun _ => hl
  · rename_i h; exact cqSend_inv hb hl hr h
  · rename_i h; exact cqAwait_inv hb hl hr h

/-! ### PACER and HWTX -/

/-- A wait that ends (R251), on a state u that has the channel state of s but for a frame's end. -/
theorem endWait_inv {u : State} {k : Nat} (hb : BaseInv u) (hl : LiveInv u) (hk : (portOf u k).bgw = true) (rc : ResultCode)
    (e : ErrCode) : Inv (endWait k rc e u) := by
  have hport : ∃ p, u.ports[k]? = some p ∧ p.bgw = true := by
    unfold portOf at hk
    rw [List.getD_eq_getElem?_getD] at hk
    cases hp : u.ports[k]? with
    | none => rw [hp] at hk; simp [Port.idle] at hk
    | some p => rw [hp] at hk; exact ⟨p, rfl, hk⟩
  obtain ⟨p, hp, hbg⟩ := hport
  have hw := hl.waiting p (List.mem_of_getElem? hp) hbg
  have hcm : p.cmd = none := by
    cases hc : p.cmd with
    | none => rfl
    | some w => exact absurd ((hl.pending p (List.mem_of_getElem? hp) (by rw [hc]; rfl)).2.symm.trans hbg) (by decide)
  have hpi : u.cq.phase = .idle := by
    by_contra hne; have := (hl.cqActive hne).1; rw [hw.2.1] at this; cases this
  have h1 : LiveInv (modPort k (fun p => { p with bgw := false }) u) := by
    refine hl.modify k _ (fun q hq => ?_) (fun h => absurd hpi h)
    rw [hp] at hq; cases hq
    exact ⟨hcm, rfl⟩
  have h2 : LiveInv (endWait k rc e u) := by
    refine h1.modify k _ (fun q hq => ?_) (fun h => absurd hpi h)
    simp only [modPort_ports, List.getElem?_modify, if_true, hp, Option.map_eq_map, Option.map_some, Option.some.injEq] at hq
    rw [← hq]
    exact ⟨hcm, rfl⟩
  exact (hb.congr (t := endWait k rc e u) (by simp) (by simp) (by simp [endWait]) (by simp) (by simp)).inv fun _ => h2

theorem pacerStep_inv {s : State} {k : Nat} (hb : BaseInv s) (hl : LiveInv s) (hk : (portOf s k).bgw = true) :
    Inv (pacerStep k s) := by
  unfold pacerStep
  split
  · exact endWait_inv hb hl hk _ _
  · rename_i hh
    split
    · exact endWait_inv (u := clearNotify s) (hb.congr rfl rfl rfl rfl rfl) (hl.congr rfl) hk _ _
    · split
      · exact endWait_inv hb hl hk _ _
      · rename_i hd
        have hd' : s.drvState = .active := by cases h : s.drvState <;> simp_all
        obtain ⟨hr, hok⟩ := hl.activeReady hd'
        have hc := hl.configured hr
        have hwt : ∃ p ∈ s.ports, p.bgw = true := by
          unfold portOf at hk
          rw [List.getD_eq_getElem?_getD] at hk
          cases hp : s.ports[k]? with
          | none => rw [hp] at hk; simp [Port.idle] at hk
          | some p => rw [hp] at hk; exact ⟨p, List.mem_of_getElem? hp, hk⟩
        obtain ⟨p, hm, hbg⟩ := hwt
        have hi := (hl.waiting p hm hbg).2.1
        have hpi : s.cq.phase = .idle := by
          by_contra hne; have := (hl.cqActive hne).1; rw [hi] at this; cases this
        refine endWait_inv (u := abortFrameIntr s) (hb.congr (by simp) (by simp) (by simp) (by simp) (by simp)) ?_
          (by unfold portOf at hk ⊢; simpa using hk) _ _
        refine LiveInv.quiet (by simp) (by simp) (by simp) (by simp) (by simpa using hpi) (by simp) ?_ ?_ ?_ ?_ ?_ ?_
        · exact fun _ => (hl.tableComplete hok).congr (by simp) (by simp)
        · exact fun _ => hc.congr (by simp) (by simp) (by simp) (by simp)
        · intro h; simp [hr] at h
        · intro _ _; simp
        · intro q hm hb; simpa using hl.waiting q (by simpa using hm) hb
        · intro q hm hb; exact hl.pending q (by simpa using hm) hb

theorem hwtxShift_inv {s : State} (hb : BaseInv s) (hl : LiveInv s) : Inv (hwtxShift s) := by
  have hpar := hb.params
  simp only [paramsOk, Bool.and_eq_true, decide_eq_true_eq] at hpar
  unfold hwtxShift
  cases hx : s.hw.txmem with
  | nil => exact hb.inv fun _ => hl
  | cons c rest =>
    refine (hb.congr (t := { s with hw := pendAfterShift s.params rest { s.hw with txmem := rest, wire := s.hw.wire ++ [c] } })
      rfl rfl rfl rfl rfl).inv fun _ => ?_
    have hlen : s.hw.txmem.length = rest.length + 1 := by rw [hx]; rfl
    have hbd := hl.txmemBound
    constructor
    · exact hl.streaming
    · exact hl.notFraming
    · exact hl.activeReady
    · exact hl.enables
    · exact hl.cqActive
    · show rest.length ≤ s.params.hwDepth; omega
    · exact fun ho => (hl.tableComplete ho).congr rfl rfl
    · exact fun hr => (hl.configured hr).congr rfl rfl rfl rfl
    · exact hl.unconfigured
    · intro hr hq hp
      have := hl.cqTxmem hr hq hp
      rw [hx] at this; cases this
    · exact hl.cqLoop
    · exact hl.cqChunk
    · exact hl.drained
    · intro hd hi
      obtain ⟨i1, i2, i3, i4, i5⟩ := hl.intrLoop hd hi
      refine ⟨i1, i2, i3, i4, ?_⟩
      by_cases he : rest = []
      · right
        show (s.hw.thrPend || decide (rest.length < s.params.watermark)) = true
        subst he
        have : 0 < s.params.watermark := by omega
        simp [this]
      · exact .inl he
    · exact hl.waiting
    · exact hl.pending
    · exact hl.cqPort

end Sys2Proof.Machine
end

