-- ==== Sys2Proof/Laws/PerInstr.lean ====
section
/-! SUPPORT. Per instruction: the encoder's word has the fixed bits of the instruction's row of spec/opcode_table.json. -/

namespace Sys2Proof.Laws

/-- The format, the mask and the fixed bits of an instruction's row (30_encoding.md R112, R130, R131). -/
def tableRow : Instr → Fmt × Word × Word
  | .xlatCfg => (.cmd, 0xFFFFFFFF#32, 0x00000010#32)
  | .xlatVal => (.cmd, 0xFFFFFFFF#32, 0x00000011#32)
  | .xlatLkp _ => (.cmd, 0xFFFFF8FF#32, 0x00000012#32)
  | .ringWr => (.cmd, 0xFFFFFFFF#32, 0x00000020#32)
  | .ringRst => (.cmd, 0xFFFFFFFF#32, 0x00000021#32)
  | .ringAvf => (.cmd, 0xFFFFFFFF#32, 0x00000022#32)
  | .ringAvd => (.cmd, 0xFFFFFFFF#32, 0x00000023#32)
  | .ringPeek _ => (.cmd, 0x0000FFFF#32, 0x00000024#32)
  | .ringAdv _ => (.cmd, 0x0000FFFF#32, 0x00000025#32)
  | .encFill => (.cmd, 0xFFFFFFFF#32, 0x00000030#32)
  | .bgWait => (.cmd, 0xFFFFFFFF#32, 0x00000040#32)
  | .drvService => (.cmd, 0xFFFFFFFF#32, 0x00000041#32)
  | .drvCqstep => (.cmd, 0xFFFFFFFF#32, 0x00000042#32)
  | .chInit => (.cmd, 0xFFFFFFFF#32, 0x00000050#32)
  | .frameStart => (.cmd, 0xFFFFFFFF#32, 0x00000051#32)
  | .pause _ => (.cmd, 0xFFFFFEFF#32, 0x00000052#32)
  | .status _ => (.cmd, 0xFFF8FFFF#32, 0x00000053#32)
  | .chTeardown => (.cmd, 0xFFFFFFFF#32, 0x00000054#32)
  | .evThr => (.ev, 0xFFFFFFFF#32, 0x00000001#32)
  | .evTxdone => (.ev, 0xFFFFFFFF#32, 0x00000002#32)
  | .srcMore => (.xc, 0xFFFFFFFF#32, 0x00000001#32)
  | .srcNext => (.xc, 0xFFFFFFFF#32, 0x00000002#32)
  | .srcFramestart => (.xc, 0xFFFFFFFF#32, 0x00000003#32)
  | .txConfigure => (.xc, 0xFFFFFFFF#32, 0x00000011#32)
  | .txTransmit => (.xc, 0xFFFFFFFF#32, 0x00000012#32)
  | .txAwait => (.xc, 0xFFFFFFFF#32, 0x00000013#32)
  | .txDisable => (.xc, 0xFFFFFFFF#32, 0x00000014#32)
  | .txTeardown => (.xc, 0xFFFFFFFF#32, 0x00000015#32)

/-- The encoding of an instruction has its row's format and fixed bits. -/
def EncodeMatchesTable.Statement (i : Instr) : Prop :=
  (encode i).fmt = (tableRow i).1 ∧ (encode i).word &&& (tableRow i).2.1 = (tableRow i).2.2

/-- A command word whose operand is `IMM16` keeps its low half (R114). -/
theorem commandWord_low (k : BitVec 16) (opc : BitVec 8) :
    commandWord k 0 opc &&& 0x0000FFFF#32 = (0#24 ++ opc : BitVec (24 + 8)) := by
  apply BitVec.eq_of_getLsbD_eq
  intro i hi
  simp only [commandWord, BitVec.getLsbD_and, BitVec.getLsbD_append]
  by_cases h1 : i < 8
  · have : (0x0000FFFF#32).getLsbD i = true := by interval_cases i <;> decide
    simp [h1, this]
  · by_cases h2 : i < 16
    · have h3 : i - 8 < 8 := by omega
      simp [h1, h3]
    · have : (0x0000FFFF#32).getLsbD i = false := by interval_cases i <;> first | omega | decide
      simp [h1, this]

theorem EncodeMatchesTable.xlatCfg : EncodeMatchesTable.Statement .xlatCfg := ⟨rfl, by decide⟩
theorem EncodeMatchesTable.xlatVal : EncodeMatchesTable.Statement .xlatVal := ⟨rfl, by decide⟩
theorem EncodeMatchesTable.xlatLkp (s : BitVec 3) : EncodeMatchesTable.Statement (.xlatLkp s) := by
  revert s; unfold EncodeMatchesTable.Statement; decide
theorem EncodeMatchesTable.ringWr : EncodeMatchesTable.Statement .ringWr := ⟨rfl, by decide⟩
theorem EncodeMatchesTable.ringRst : EncodeMatchesTable.Statement .ringRst := ⟨rfl, by decide⟩
theorem EncodeMatchesTable.ringAvf : EncodeMatchesTable.Statement .ringAvf := ⟨rfl, by decide⟩
theorem EncodeMatchesTable.ringAvd : EncodeMatchesTable.Statement .ringAvd := ⟨rfl, by decide⟩
theorem EncodeMatchesTable.ringPeek (k : BitVec 16) : EncodeMatchesTable.Statement (.ringPeek k) :=
  ⟨rfl, commandWord_low k _⟩
theorem EncodeMatchesTable.ringAdv (n : BitVec 16) : EncodeMatchesTable.Statement (.ringAdv n) :=
  ⟨rfl, commandWord_low n _⟩
theorem EncodeMatchesTable.encFill : EncodeMatchesTable.Statement .encFill := ⟨rfl, by decide⟩
theorem EncodeMatchesTable.bgWait : EncodeMatchesTable.Statement .bgWait := ⟨rfl, by decide⟩
theorem EncodeMatchesTable.drvService : EncodeMatchesTable.Statement .drvService := ⟨rfl, by decide⟩
theorem EncodeMatchesTable.drvCqstep : EncodeMatchesTable.Statement .drvCqstep := ⟨rfl, by decide⟩
theorem EncodeMatchesTable.chInit : EncodeMatchesTable.Statement .chInit := ⟨rfl, by decide⟩
theorem EncodeMatchesTable.frameStart : EncodeMatchesTable.Statement .frameStart := ⟨rfl, by decide⟩
theorem EncodeMatchesTable.pause (p : Bool) : EncodeMatchesTable.Statement (.pause p) := by
  revert p; unfold EncodeMatchesTable.Statement; decide
theorem EncodeMatchesTable.status (n : BitVec 3) : EncodeMatchesTable.Statement (.status n) := by
  revert n; unfold EncodeMatchesTable.Statement; decide
theorem EncodeMatchesTable.chTeardown : EncodeMatchesTable.Statement .chTeardown := ⟨rfl, by decide⟩
theorem EncodeMatchesTable.evThr : EncodeMatchesTable.Statement .evThr := ⟨rfl, by decide⟩
theorem EncodeMatchesTable.evTxdone : EncodeMatchesTable.Statement .evTxdone := ⟨rfl, by decide⟩
theorem EncodeMatchesTable.srcMore : EncodeMatchesTable.Statement .srcMore := ⟨rfl, by decide⟩
theorem EncodeMatchesTable.srcNext : EncodeMatchesTable.Statement .srcNext := ⟨rfl, by decide⟩
theorem EncodeMatchesTable.srcFramestart : EncodeMatchesTable.Statement .srcFramestart := ⟨rfl, by decide⟩
theorem EncodeMatchesTable.txConfigure : EncodeMatchesTable.Statement .txConfigure := ⟨rfl, by decide⟩
theorem EncodeMatchesTable.txTransmit : EncodeMatchesTable.Statement .txTransmit := ⟨rfl, by decide⟩
theorem EncodeMatchesTable.txAwait : EncodeMatchesTable.Statement .txAwait := ⟨rfl, by decide⟩
theorem EncodeMatchesTable.txDisable : EncodeMatchesTable.Statement .txDisable := ⟨rfl, by decide⟩
theorem EncodeMatchesTable.txTeardown : EncodeMatchesTable.Statement .txTeardown := ⟨rfl, by decide⟩

end Sys2Proof.Laws
end

