-- ==== Sys2Proof/Laws/Step.lean ====
section
/-! SUPPORT. The scheduler, the HOST's step and SEQ's taking of a command: what they do, and that they keep the invariant. -/

namespace Sys2Proof.Machine

/-! ### The scheduler -/

theorem freeAgent_mem {as : List Agent} {n : Nat} {a : Agent} (h : freeAgent as n = some a) : a ∈ as := by
  unfold freeAgent at h
  split at h
  · cases h
  · cases h; exact List.mem_singleton.2 rfl
  · exact List.mem_of_getElem? h

/-- The agent that steps is enabled (R90). -/
theorem nextAgent_enabled {s : State} {a : Agent} (h : nextAgent s = some a) : enabled a s = true := by
  have hfree : freeAgent (enabledAgents s) s.env.picked = some a → enabled a s = true := fun hf =>
    (List.mem_filter.1 (freeAgent_mem hf)).2
  unfold nextAgent at h
  split at h
  · split at h
    · rename_i he; cases h; exact he
    · exact hfree h
  · exact hfree h

theorem freeAgent_none {as : List Agent} {n : Nat} (h : freeAgent as n = none) : as = [] := by
  unfold freeAgent at h
  split at h
  · rfl
  · cases h
  · rename_i a b rest
    have := List.getElem?_eq_none_iff.1 h
    have hlt : Config.freePick n % (rest.length + 2) < rest.length + 2 := Nat.mod_lt _ (by omega)
    simp only [List.length_cons] at this
    omega

/-- No agent steps only if none may. -/
theorem nextAgent_none {s : State} (h : nextAgent s = none) : enabledAgents s = [] := by
  unfold nextAgent at h
  split at h
  · split at h
    · cases h
    · exact freeAgent_none h
  · exact freeAgent_none h

/-- An agent lined up steps next, if it may. -/
theorem nextAgent_lined {s : State} {a : Agent} {as : List Agent} (h : s.env.sched = a :: as) (he : enabled a s = true) :
    nextAgent s = some a := by
  unfold nextAgent; rw [h]; simp [he]

/-- A step of a machine with legal parameters and an agent lined up that may step. -/
theorem machineStep_lined {s : State} {a : Agent} {as : List Agent} (hp : paramsOk s.params = true)
    (h : s.env.sched = a :: as) (he : enabled a s = true) : machineStep s = agentStep a (advanceSchedule s) := by
  unfold machineStep; rw [if_pos hp, nextAgent_lined h he]

@[simp] theorem advanceSchedule_portOf (s : State) (k : Nat) : portOf (advanceSchedule s) k = portOf s k := rfl

theorem advanceSchedule_inv {s : State} (h : Inv s) : Inv (advanceSchedule s) :=
  (h.base.congr (t := advanceSchedule s) rfl rfl rfl rfl rfl).inv fun hf => (h.live hf).congr rfl

/-! ### The oracles' own steps -/

/-- SRC's own step changes the environment only (log 30). -/
theorem srcStep_frame (s : State) : srcStep s = { s with env := (srcStep s).env } := rfl

/-- ENV's own step changes the environment only (log 30). -/
theorem envStep_frame (s : State) : envStep s = { s with env := (envStep s).env } := by
  unfold envStep; split <;> rfl

/-- A change of the environment alone keeps the invariant. -/
theorem Inv.env {s : State} (h : Inv s) (e : Env) : Inv { s with env := e } :=
  (h.base.congr (t := { s with env := e }) rfl rfl rfl rfl rfl).inv fun hf => (h.live hf).congr rfl

theorem srcStep_inv {s : State} (h : Inv s) : Inv (srcStep s) := h.env _

theorem envStep_inv {s : State} (h : Inv s) : Inv (envStep s) := by
  rw [envStep_frame]; exact h.env _

/-- The agent that an open wait hands its timeout to may step at once (R251, R243). -/
theorem openWaits_enabled {s : State} (h : oraclesAsked s = true) {a : Agent} (ha : a ∈ openWaits s) :
    enabled a s = true := by
  simp only [oraclesAsked, Bool.and_eq_true, beq_iff_eq] at h
  simp only [openWaits, List.mem_append, List.mem_map, List.mem_filter] at ha
  rcases ha with ha | ⟨k, ⟨-, hk⟩, rfl⟩
  · split at ha
    · rename_i hw
      rw [List.mem_singleton] at ha
      subst ha
      simp [enabled, cqdrvEnabled, h.1, h.2, hw.1]
    · simp at ha
  · simp only [Bool.and_eq_true] at hk
    simp [enabled, pacerEnabled, h.1, hk.1.1]

/-! ### SEQ takes a command -/

theorem portOf_cmd {s : State} {k : Nat} {w : Word} (h : (portOf s k).cmd = some w) :
    ∃ p, s.ports[k]? = some p ∧ p.cmd = some w := by
  unfold portOf at h
  rw [List.getD_eq_getElem?_getD] at h
  cases hp : s.ports[k]? with
  | none => rw [hp] at h; simp [Port.idle] at h
  | some p => rw [hp] at h; exact ⟨p, rfl, h⟩

theorem takeCommand_base {s : State} (k : Nat) (h : BaseInv s) : BaseInv (takeCommand k s) :=
  h.congr (by simp) (by simp) (by simp) (by simp) (by simp)

theorem takeCommand_live {s : State} {k : Nat} {w : Word} (hl : LiveInv s) (hk : (portOf s k).cmd = some w) :
    LiveInv (takeCommand k s) ∧ Issued (takeCommand k s) := by
  obtain ⟨p, hp, hw⟩ := portOf_cmd hk
  have hpend := hl.pending p (List.mem_of_getElem? hp) (by rw [hw]; rfl)
  have hncq : s.cq.phase ≠ .idle → s.cq.port ≠ k := by
    intro hne he
    obtain ⟨q, h1, -, h3⟩ := hl.cqPort hne
    rw [he, hp] at h1; cases h1
    rw [hw] at h3; cases h3
  refine ⟨?_, ?_, ?_⟩
  · have h1 : LiveInv { s with seq := { s.seq with cur := k } } := hl.congr rfl
    refine h1.modify k (fun p => { p with cmd := none, busy := true }) (fun q hq => ?_) hncq
    rw [show ({ s with seq := { s.seq with cur := k } } : State).ports = s.ports from rfl, hp] at hq
    cases hq; exact ⟨rfl, hpend.2⟩
  · refine ⟨{ p with cmd := none, busy := true }, ?_, rfl, rfl, hpend.2⟩
    simp [hp]
  · simpa using hncq

/-! ### HOST -/

theorem portOf_getElem {s : State} {k : Nat} (h : k < s.ports.length) : s.ports[k]? = some (portOf s k) := by
  unfold portOf
  rw [List.getD_eq_getElem?_getD, List.getElem?_eq_getElem h]; rfl

/-- An `ARG` write changes nothing the invariant looks at (R30). -/
theorem writeArg_inv {s : State} (h : Inv s) (k : Nat) (v : Word) : Inv (modPort k (fun p => { p with arg := v }) s) := by
  refine (h.base.congr (by simp) (by simp) (by simp) (by simp) (by simp)).inv fun hf => ?_
  have hl := h.live (by simpa using hf)
  constructor
  · exact hl.streaming
  · exact hl.notFraming
  · exact hl.activeReady
  · exact hl.enables
  · exact hl.cqActive
  · exact hl.txmemBound
  · exact fun ho => (hl.tableComplete ho).congr rfl rfl
  · exact fun hr => (hl.configured hr).congr rfl rfl rfl rfl
  · exact hl.unconfigured
  · exact hl.cqTxmem
  · exact hl.cqLoop
  · exact hl.cqChunk
  · exact hl.drained
  · exact hl.intrLoop
  · intro p hm hb
    rcases mem_modify hm with hm | ⟨q, hq, rfl⟩
    · exact hl.waiting p hm hb
    · exact hl.waiting q (List.mem_of_getElem? hq) hb
  · intro p hm hb
    rcases mem_modify hm with hm | ⟨q, hq, rfl⟩
    · exact hl.pending p hm hb
    · exact hl.pending q (List.mem_of_getElem? hq) hb
  · intro hne
    obtain ⟨p, h1, h2, h3⟩ := hl.cqPort hne
    by_cases hk : k = s.cq.port
    · exact ⟨{ p with arg := v }, by simp [h1, hk], h2, h3⟩
    · exact ⟨p, by simp [h1, hk], h2, h3⟩

/-- A `CMD` write on an idle port (R30, R320). -/
theorem writeCmd_inv {s : State} (h : Inv s) {k : Nat} (w : Word) (hk : k < s.ports.length) (hb : (portOf s k).busy = false)
    (hf : s.err.fault = 0) : Inv (modPort k (fun p => { p with cmd := some w, busy := true }) s) := by
  refine (h.base.congr (by simp) (by simp) (by simp) (by simp) (by simp)).inv fun _ => ?_
  have hl := h.live hf
  have hp := portOf_getElem hk
  have hbg : (portOf s k).bgw = false := by
    cases hg : (portOf s k).bgw with
    | false => rfl
    | true => exact absurd ((hl.waiting _ (List.mem_of_getElem? hp) hg).1.symm.trans hb) (by decide)
  constructor
  · exact hl.streaming
  · exact hl.notFraming
  · exact hl.activeReady
  · exact hl.enables
  · exact hl.cqActive
  · exact hl.txmemBound
  · exact fun ho => (hl.tableComplete ho).congr rfl rfl
  · exact fun hr => (hl.configured hr).congr rfl rfl rfl rfl
  · exact hl.unconfigured
  · exact hl.cqTxmem
  · exact hl.cqLoop
  · exact hl.cqChunk
  · exact hl.drained
  · exact hl.intrLoop
  · intro p hm hb
    rcases mem_modify hm with hm | ⟨q, hq, rfl⟩
    · exact hl.waiting p hm hb
    · rw [hp] at hq; cases hq
      rw [hbg] at hb; cases hb
  · intro p hm hb
    rcases mem_modify hm with hm | ⟨q, hq, rfl⟩
    · exact hl.pending p hm hb
    · rw [hp] at hq; cases hq
      exact ⟨rfl, hbg⟩
  · intro hne
    obtain ⟨p, h1, h2, h3⟩ := hl.cqPort hne
    have hkc : ¬ k = s.cq.port := by
      rintro rfl
      rw [hp] at h1; cases h1
      rw [h2] at hb; cases hb
    exact ⟨p, by simp [h1, hkc], h2, h3⟩

end Sys2Proof.Machine
end

