-- ==== Sys2Proof/Tests/Slice0.lean ====
section
/-! SUPPORT. Tests on single steps: the well-formedness check, every word of the encoding tables, the spec's worked examples,
and a witness for the hypotheses of every statement that has some. Expected values are the spec's own examples, or are worked
by hand from the rule a test names. -/

namespace Sys2Proof.Tests

open Sys2Proof.Machine

/-! ### Well-formedness: the one check, and a term it refuses -/

theorem test_wf_refuses_tag_7 : (Instr.xlatLkp 7).wf = false := by decide

theorem test_wf_accepts_tags : ∀ s : BitVec 3, s.toNat ≤ 6 → (Instr.xlatLkp s).wf = true := by decide

/-! ### Decoding: every word written out from R112 to R114, R130, R131 (fields IMM16, SUB, OPC) -/

theorem test_decode_translation :
    decode ⟨.cmd, 0b0000000000000000_00000000_00010000#32⟩ = some .xlatCfg ∧
    decode ⟨.cmd, 0b0000000000000000_00000000_00010001#32⟩ = some .xlatVal ∧
    decode ⟨.cmd, 0b0000000000000000_00000110_00010010#32⟩ = some (.xlatLkp 6) ∧
    decode ⟨.cmd, 0b0000000000000000_00000111_00010010#32⟩ = none ∧
    decode ⟨.cmd, 0b0000000000000000_00001000_00010010#32⟩ = none := by decide

theorem test_decode_ring :
    decode ⟨.cmd, 0b0000000000000000_00000000_00100000#32⟩ = some .ringWr ∧
    decode ⟨.cmd, 0b0000000000000000_00000000_00100001#32⟩ = some .ringRst ∧
    decode ⟨.cmd, 0b0000000000000000_00000000_00100010#32⟩ = some .ringAvf ∧
    decode ⟨.cmd, 0b0000000000000000_00000000_00100011#32⟩ = some .ringAvd ∧
    decode ⟨.cmd, 0b1000000000000101_00000000_00100100#32⟩ = some (.ringPeek 0x8005) ∧
    decode ⟨.cmd, 0b0000000100000010_00000000_00100101#32⟩ = some (.ringAdv 0x0102) ∧
    decode ⟨.cmd, 0b0000000000000000_00000001_00100101#32⟩ = none := by decide

theorem test_decode_encoder_driver :
    decode ⟨.cmd, 0b0000000000000000_00000000_00110000#32⟩ = some .encFill ∧
    decode ⟨.cmd, 0b0000000000000000_00000000_01000000#32⟩ = some .bgWait ∧
    decode ⟨.cmd, 0b0000000000000000_00000000_01000001#32⟩ = some .drvService ∧
    decode ⟨.cmd, 0b0000000000000000_00000000_01000010#32⟩ = some .drvCqstep ∧
    decode ⟨.cmd, 0b0000000000000001_00000000_01000000#32⟩ = none := by decide

theorem test_decode_orchestrator :
    decode ⟨.cmd, 0b0000000000000000_00000000_01010000#32⟩ = some .chInit ∧
    decode ⟨.cmd, 0b0000000000000000_00000000_01010001#32⟩ = some .frameStart ∧
    decode ⟨.cmd, 0b0000000000000000_00000000_01010010#32⟩ = some (.pause false) ∧
    decode ⟨.cmd, 0b0000000000000000_00000001_01010010#32⟩ = some (.pause true) ∧
    decode ⟨.cmd, 0b0000000000000110_00000000_01010011#32⟩ = some (.status 6) ∧
    decode ⟨.cmd, 0b0000000000001000_00000000_01010011#32⟩ = none ∧
    decode ⟨.cmd, 0b0000000000000000_00000000_01010100#32⟩ = some .chTeardown := by decide

theorem test_decode_events_calls :
    decode ⟨.ev, 0b00000001#32⟩ = some .evThr ∧ decode ⟨.ev, 0b00000010#32⟩ = some .evTxdone ∧
    decode ⟨.xc, 0b00000001#32⟩ = some .srcMore ∧ decode ⟨.xc, 0b00000010#32⟩ = some .srcNext ∧
    decode ⟨.xc, 0b00000011#32⟩ = some .srcFramestart ∧ decode ⟨.xc, 0b00010001#32⟩ = some .txConfigure ∧
    decode ⟨.xc, 0b00010010#32⟩ = some .txTransmit ∧ decode ⟨.xc, 0b00010011#32⟩ = some .txAwait ∧
    decode ⟨.xc, 0b00010100#32⟩ = some .txDisable ∧ decode ⟨.xc, 0b00010101#32⟩ = some .txTeardown ∧
    decode ⟨.xc, 0b00000100#32⟩ = none := by decide

/-! ### Small states -/

/-- What a test asks of the next state; a fault or a refusal fails it. -/
def gives (o : Host.Outcome State Fault Refusal) (p : State → Bool) : Bool :=
  match o with
  | .next t => p t
  | .fault _ => false
  | .refused _ => false

/-- The code of `ZERO` in the spec's examples (R150). -/
def zeroCode : Word := 0x00088004

/-- The code of `ONE` in the spec's examples (R150). -/
def oneCode : Word := 0x00048008

/-- A table with `ZERO` and `ONE`, and the framing symbols. -/
def table : Table :=
  { Table.empty with
    zero := { valid := true, code := zeroCode }
    one := { valid := true, code := oneCode }
    ifg := { valid := true, code := 0x320 }
    frameStart := { valid := true, code := 0x8320 } }

/-- The list of R150's example, and one with framing symbols, and lists that fail. -/
def tables : List (Word × List Word) :=
  [(0x200, [0, zeroCode, 1, oneCode, 7]), (0x201, [0, zeroCode, 9, oneCode, 7]), (0x202, [0, zeroCode, 7]),
   (0x203, [0, 5, 1, oneCode, 0, zeroCode, 7]), (0x204, List.replicate 32 0)]

/-- A READY INTR channel, W = 8, MSB first, no trailers and no framing (R270's example), with a list source. -/
def ready : State :=
  { State.reset with
    cfg := { cfg0 := 0x00000008, cfg1 := 0, cfg2 := 0x300, cfg3 := 0x200 }
    tbl := table, tblOk := true, chState := .ready
    hw := { State.reset.hw with configured := true }
    env := { Env.bare with
      tables := tables
      descs := [(0x100, ⟨0x00000008, 0, 0x300, 0x200⟩)]
      sources := [(0x300, .list [0xB0, 0x01] [0xB0, 0x01])] } }

/-- The ready channel under CQ. -/
def readyCq : State := { ready with cfg := { ready.cfg with cfg0 := 0x00000208 } }

/-- The channel as reset leaves it, with the host objects of `ready`. -/
def unconfigured : State := { State.reset with env := ready.env }

/-- Port 0 is busy with a command whose `ARG` is h. -/
def withArg (h : Word) (s : State) : State := { s with ports := s.ports.set 0 { Port.idle with arg := h, busy := true } }

/-- A ring of four slots (R170 to R177's examples). -/
def ring4 (widx ridx used : Nat) : State :=
  { State.reset with
    params := { Config.params with ringCap := 4 }
    ring := { slots := [(0, 10), (1, 11), (2, 12), (3, 13)], widx := widx, ridx := ridx, used := used } }

/-- Staged codes: u of them, from slot 0 on. -/
def staged (u : Nat) (s : State) : State :=
  { s with ring := { slots := (List.range u).map fun i => (i, BitVec.ofNat 32 (100 + i)), widx := u % s.params.ringCap,
                     ridx := 0, used := u } }

/-- The next step is agent a's. -/
def lineUp (a : Agent) (s : State) : State := { s with env := { s.env with sched := [a] } }

/-- An INTR frame in flight, a shift lined up: two staged codes, one in `TXMEM`, no data left, a threshold event pending. -/
def activeIntr : State :=
  lineUp .hwtx <| staged 2 { ready with
    drvState := .active, orchPhase := .streaming, thrIe := true, doneIe := true
    hw := { ready.hw with txmem := [7], txEn := true, thrPend := true } }

/-- A CQ frame in flight at `CQ_SEND`, six staged codes, started from port 0 (R240's example). -/
def activeCq : State :=
  staged 6 { readyCq with
    drvState := .active, orchPhase := .streaming
    ports := readyCq.ports.set 0 { Port.idle with busy := true }
    cq := { readyCq.cq with phase := .send } }

/-- The same frame awaiting a chunk of four codes, the loop lined up and a success answer. -/
def awaitCq : State :=
  lineUp .cqdrv { activeCq with
    cq := { activeCq.cq with phase := .await, n := 4 }, env := { activeCq.env with draws := [1] } }

/-- The HOST's next action. -/
def hostDoes (a : HostAct) (s : State) : State := lineUp .host { s with env := { s.env with hostq := [a] } }

/-! ### One step per instruction -/

/-- R150's example. -/
theorem test_xlatCfg_example :
    gives (exec .xlatCfg { unconfigured with seq := { State.reset.seq with opnd := 0x200 } }) (fun t =>
      t.seq.answer == [0] && t.tblOk && t.tbl.zero.code == 0x00088004 && t.tbl.one.code == 0x00048008 &&
      !t.tbl.stop.valid) = true := by decide

/-- R150: a tag of 9 fails with info 0x902, the records before it installed. -/
theorem test_xlatCfg_bad_tag :
    gives (exec .xlatCfg { unconfigured with seq := { State.reset.seq with opnd := 0x201 } }) (fun t =>
      t.seq.answer == [1, 0x902] && !t.tblOk && t.tbl.zero.valid && !t.tbl.one.valid) = true := by decide

/-- R155, R152: the list's first record for ZERO differs from the table, which holds the last one. -/
theorem test_xlatVal_logs :
    gives (exec .xlatVal (withArg 0x203 ready)) (fun t =>
      (portOf t 0).rstat == 0x50 && t.err.lastErr == 5 && t.err.log == [⟨5, 0x00000000⟩] && t.err.fault == 0) = true := by
  decide

/-- R158's example. -/
theorem test_xlatLkp_example :
    gives (exec (.xlatLkp 1) ready) (fun t => (portOf t 0).res == 0x00048008 && (portOf t 0).rstat == 0x00) = true := by
  decide

/-- R158: `START` has no entry. -/
theorem test_xlatLkp_untranslated :
    gives (exec (.xlatLkp 2) ready) (fun t => t.err.fault == 0x40 && t.err.log == [⟨11, 2⟩]) = true := by decide

/-- R170's example. -/
theorem test_ringWr_example :
    gives (exec .ringWr { ring4 3 1 2 with seq := { State.reset.seq with opnd := 0x00048008 } }) (fun t =>
      slotWord t 3 == 0x00048008 && t.ring.widx == 0 && t.ring.used == 3 && slotWord t 2 == 12) = true := by decide

/-- R170: a full ring. -/
theorem test_ringWr_full :
    gives (exec .ringWr (ring4 2 2 4)) (fun t =>
      t.cnt.overruns == 1 && t.err.log == [⟨4, 2⟩] && t.err.fault == 0x01 && t.ring.used == 4) = true := by decide

/-- R172's example. -/
theorem test_ringRst_example :
    gives (exec .ringRst (ring4 2 3 3)) (fun t => t.ring.widx == 0 && t.ring.ridx == 0 && t.ring.used == 0 &&
      slotWord t 3 == 13) = true := by decide

/-- R174's example. -/
theorem test_ringAvf_example : gives (exec .ringAvf (staged 11 ready)) (fun t => (portOf t 0).res == 5) = true := by decide

/-- R175's example. -/
theorem test_ringAvd_example : gives (exec .ringAvd (staged 11 ready)) (fun t => (portOf t 0).res == 11) = true := by decide

/-- R176's example: slot 0. -/
theorem test_ringPeek_example : gives (exec (.ringPeek 1) (ring4 1 3 2)) (fun t => t.seq.answer == [10]) = true := by decide

/-- R176: k = USED. -/
theorem test_ringPeek_underflow : gives (exec (.ringPeek 2) (ring4 1 3 2)) (fun t => t.err.log == [⟨6, 2⟩]) = true := by
  decide

/-- R177's example. -/
theorem test_ringAdv_example :
    gives (exec (.ringAdv 2) (ring4 2 3 3)) (fun t => t.ring.ridx == 1 && t.ring.used == 1 && t.ring.widx == 2) = true := by
  decide

/-- R201's example, with the codes of R209. -/
theorem test_encFill_example :
    gives (exec .encFill { ready with hasData := true }) (fun t =>
      ringCodes t == [oneCode, zeroCode, oneCode, oneCode, zeroCode, zeroCode, zeroCode, zeroCode] && t.hasData &&
      t.cnt.fills == 1 && findSource t 0x300 == some (.list [0xB0, 0x01] [0x01])) = true := by decide

/-- R251: an idle channel's wait returns at once. -/
theorem test_bgWait_idle :
    gives (exec .bgWait (withArg 0 ready)) (fun t => (portOf t 0).rstat == 0 && !(portOf t 0).busy && !(portOf t 0).bgw) =
      true := by decide

/-- R251: a frame in flight makes it wait. -/
theorem test_bgWait_waits :
    gives (exec .bgWait (withArg 0 activeIntr)) (fun t => (portOf t 0).bgw && (portOf t 0).busy) = true := by decide

/-- R225's example. -/
theorem test_drvService_example :
    gives (exec .drvService (staged 10 { activeIntr with hw := { activeIntr.hw with txmem := [7] } })) (fun t =>
      t.hw.txmem == [7, 100, 101, 102, 103] && t.ring.used == 6 && t.cnt.entries == 4 && t.cnt.fills == 1) = true := by
  decide

/-- R240's example, step 1: four codes handed over, none consumed. -/
theorem test_drvCqstep_send :
    gives (exec .drvCqstep { activeCq with env := { activeCq.env with draws := [1] } }) (fun t =>
      t.hw.txmem == [100, 101, 102, 103] && t.ring.used == 6 && t.cq.phase == .await && t.cq.n == 4) = true := by decide

/-- R240's example, step 2: the advance. -/
theorem test_drvCqstep_await :
    gives (exec .drvCqstep awaitCq) (fun t =>
      t.ring.used == 2 && t.ring.ridx == 4 && t.cnt.entries == 4 && t.cq.phase == .send && t.cq.n == 0) = true := by decide

/-- R270's example. -/
theorem test_chInit_example :
    gives (exec .chInit (withArg 0x100 unconfigured)) (fun t =>
      (portOf t 0).rstat == 0 && t.chState == .ready && t.tblOk && t.hw.configured && t.registry == [(0, 0)]) = true := by
  decide

/-- R270: an absent descriptor. -/
theorem test_chInit_absent :
    gives (exec .chInit (withArg 0 unconfigured)) (fun t =>
      (portOf t 0).rstat == 0x14 && (portOf t 0).res == 0x10 && t.chState == .halted && t.err.restartReq) = true := by decide

/-- R274's example: `IDLE_BITS` 2, `START_BITS` 1, a source with no data; the frame ends inside the prime. -/
theorem test_frameStart_example :
    gives (exec .frameStart { ready with
        cfg := { ready.cfg with cfg1 := 0x00010002 }
        env := { ready.env with sources := [(0x300, .list [] [])] } }) (fun t =>
      t.hw.txmem == [0x320, 0x320, 0x8320] && t.drvState == .idle && t.notify && (portOf t 0).rstat == 0) = true := by decide

/-- R281's example. -/
theorem test_pause_then_frame :
    gives (exec (.pause true) ready) (fun t => t.paused && gives (exec .frameStart t) fun u => (portOf u 0).rstat == 0x01) =
      true := by decide

/-- R284's example: channel id 3. -/
theorem test_status_example :
    gives (exec (.status 0) { ready with cfg := { ready.cfg with cfg0 := 0x00030008 } }) (fun t =>
      (portOf t 0).res == 0x00030020) = true := by decide

/-- R286's example. -/
theorem test_chTeardown_example :
    gives (exec .chTeardown ready) (fun t => (portOf t 0).rstat == 0 && gives (exec (.status 0) t) fun u =>
      (portOf u 0).res == 0x000000C0) = true := by decide

/-- R231: the handler moves the two staged codes and ends the frame. -/
theorem test_evThr_ends_frame :
    gives (exec .evThr activeIntr) (fun t => t.hw.txmem == [7, 100, 101] && t.drvState == .idle && t.notify &&
      !t.hw.thrPend && !t.thrIe) = true := by decide

/-- R235. -/
theorem test_evTxdone_underrun :
    gives (exec .evTxdone { activeIntr with hw := { activeIntr.hw with txmem := [], donePend := true } }) (fun t =>
      t.err.log == [⟨13, 2⟩] && t.notify && t.drvState == .idle && !t.hw.txEn && t.err.fault == 0) = true := by decide

/-- R304. -/
theorem test_srcMore_list : gives (exec .srcMore ready) (fun t => t.seq.answer == [1]) = true := by decide

/-- R304. -/
theorem test_srcNext_list :
    gives (exec .srcNext ready) (fun t => t.seq.answer == [1, 0xB0] && gives (exec .srcNext t) fun u =>
      u.seq.answer == [1, 0x01] && gives (exec .srcNext u) fun v => v.seq.answer == [0, 0]) = true := by decide

/-- R304: the list starts over. -/
theorem test_srcFramestart_list :
    gives (exec .srcFramestart { ready with env := { ready.env with sources := [(0x300, .list [5, 6] [6])] } }) (fun t =>
      findSource t 0x300 == some (.list [5, 6] [5, 6])) = true := by decide

/-- R310. -/
theorem test_txConfigure : gives (exec .txConfigure activeIntr) (fun t =>
    t.hw.configured && t.hw.txmem == [] && !t.hw.txEn && !t.hw.thrPend) = true := by decide

/-- R311: a rejected chunk leaves a prefix on the wire (here two codes, by draws 0 and 2). -/
theorem test_txTransmit_rejected :
    gives (exec .txTransmit { ready with
        cq := { ready.cq with n := 3, scratch := [(0, 1), (1, 2), (2, 3)] }, env := { ready.env with draws := [0, 2] } })
      (fun t => t.seq.answer == [0] && t.hw.wire == [1, 2] && t.hw.txmem == []) = true := by decide

/-- R312: with codes left, the wait times out and they are dropped. -/
theorem test_txAwait_timeout : gives (exec .txAwait activeIntr) (fun t => t.seq.answer == [0] && t.hw.txmem == []) = true := by
  decide

/-- R313. -/
theorem test_txDisable : gives (exec .txDisable activeIntr) (fun t =>
    t.hw.txmem == [] && !t.hw.txEn && !t.hw.thrPend && t.hw.configured) = true := by decide

/-- R314. -/
theorem test_txTeardown : gives (exec .txTeardown activeIntr) (fun t => !t.hw.configured && t.hw.txmem == [7]) = true := by
  decide

/-- A command word placed for the first step after reset faults as R373 says. -/
theorem test_step_after_reset :
    gives (step (State.reset.withFetchWord 32 0x51)) (fun t => t.err.log == [⟨8, 0x51⟩] && t.err.fault == 0x08) = true := by
  decide

/-! ### Witnesses: each statement's hypotheses are met by a state, clause by clause -/

/-- A READY channel with one code staged at the end of the ring, so that the next codes wrap around. -/
def wrapped : State :=
  { ready with hasData := true, ring := { slots := [(15, 9)], widx := 0, ridx := 15, used := 1 } }

theorem ready_configured : Configured ready :=
  ⟨by decide, by decide, by decide, by decide, by decide, by decide⟩

theorem ready_tableComplete : TableComplete ready := by unfold TableComplete; decide

theorem wrapped_ok : RingInv wrapped ∧ Configured wrapped ∧ TableComplete wrapped :=
  ⟨⟨by decide, by decide, by decide, by decide⟩, ⟨by decide, by decide, by decide, by decide, by decide, by decide⟩,
    by unfold TableComplete; decide⟩

theorem activeIntr_inv : Inv activeIntr := by
  refine ⟨by decide, by decide, by decide, ⟨by decide, by decide, by decide, by decide⟩, by decide, by decide, fun _ => ?_⟩
  constructor
  case configured => exact fun _ => ⟨by decide, by decide, by decide, by decide, by decide, by decide⟩
  case tableComplete => intro _; unfold TableComplete; decide
  case cqPort => intro h; exact absurd rfl h
  all_goals decide

theorem awaitCq_inv : Inv awaitCq := by
  refine ⟨by decide, by decide, by decide, ⟨by decide, by decide, by decide, by decide⟩, by decide, by decide, fun _ => ?_⟩
  constructor
  case configured => exact fun _ => ⟨by decide, by decide, by decide, by decide, by decide, by decide⟩
  case tableComplete => intro _; unfold TableComplete; decide
  case cqPort => exact fun _ => ⟨{ Port.idle with busy := true }, rfl, rfl, rfl⟩
  all_goals decide

theorem witness_DecodeReadsEncode : (Instr.xlatLkp 6).wf = true ∧ (Instr.ringPeek 0xFFFF).wf = true := by decide

theorem witness_EncodeGivesDecodedWord : decode ⟨.cmd, 0x00000612#32⟩ = some (.xlatLkp 6) := by decide

/-- Port 0 holds the word w, not yet taken, and SEQ is lined up. -/
def commanded (w : Word) (s : State) : State :=
  lineUp (.seq 0) { s with ports := s.ports.set 0 { Port.idle with cmd := some w, busy := true } }

theorem witness_HostWordsDecodeOrFault :
    Lined (.seq 0) (commanded 0x10 ready) ∧ (commanded 0x10 ready).err.fault = 0 ∧
    (portOf (commanded 0x10 ready) 0).cmd = some 0x10 ∧ decodeHost 0x10 = none :=
  ⟨⟨by decide, _, rfl⟩, by decide, by decide, by decide⟩

theorem witness_StepRunsHostCommand :
    Lined (.seq 0) (commanded 0x51 ready) ∧ (commanded 0x51 ready).err.fault = 0 ∧
    (portOf (commanded 0x51 ready) 0).cmd = some 0x51 ∧ decodeHost 0x51 = some .frameStart :=
  ⟨⟨by decide, _, rfl⟩, by decide, by decide, by decide⟩

/-- The frame in flight with both events pending. -/
def bothPending : State := { activeIntr with hw := { activeIntr.hw with txmem := [], donePend := true } }

theorem witness_StepRunsEventsAndLoop :
    (Lined .isr (lineUp .isr bothPending) ∧ bothPending.err.fault = 0 ∧ bothPending.chState = .ready ∧
      bothPending.cfg.strategy = .intr ∧ bothPending.hw.donePend = true ∧ bothPending.doneIe = true) ∧
    (Lined .isr (lineUp .isr activeIntr) ∧ activeIntr.err.fault = 0 ∧ activeIntr.chState = .ready ∧
      activeIntr.cfg.strategy = .intr ∧ ¬ (activeIntr.hw.donePend = true ∧ activeIntr.doneIe = true) ∧
      activeIntr.hw.thrPend = true ∧ activeIntr.thrIe = true) ∧
    (Lined .cqdrv (lineUp .cqdrv activeCq) ∧ activeCq.err.fault = 0 ∧ activeCq.chState = .ready ∧ activeCq.cq.phase ≠ .idle) :=
  ⟨⟨⟨by decide, _, rfl⟩, by decide⟩, ⟨⟨by decide, _, rfl⟩, by decide⟩, ⟨⟨by decide, _, rfl⟩, by decide⟩⟩

theorem witness_StepRunsInvocation :
    let s := lineUp .rule { ready with seq := { ready.seq with invoke := some ⟨.cmd, 0x30#32⟩ } }
    Lined .rule s ∧ s.err.fault = 0 ∧ s.seq.invoke = some ⟨.cmd, 0x30#32⟩ ∧ decode ⟨.cmd, 0x30#32⟩ = some .encFill :=
  ⟨⟨by decide, _, rfl⟩, by decide, by decide, by decide⟩

theorem witness_HostRegisterAccess :
    (∀ a, Lined .host (hostDoes a ready) ∧ (hostDoes a ready).ports[1]? = some Port.idle ∧
      (hostDoes a ready).env.hostq = a :: [] ∧ (hostDoes a ready).err.fault = 0 ∧ Port.idle.busy = false) ∧
    (∀ a, Lined .host (hostDoes a activeCq) ∧ (hostDoes a activeCq).env.hostq = a :: [] ∧
      ∃ p, (hostDoes a activeCq).ports[0]? = some p ∧ p.busy = true) :=
  ⟨fun _ => ⟨⟨show paramsOk Config.params = true by decide, _, rfl⟩, rfl, rfl, rfl, rfl⟩,
    fun _ => ⟨⟨show paramsOk Config.params = true by decide, _, rfl⟩, rfl, _, rfl, rfl⟩⟩

/-- An `ARG` write with a `CH.INIT` pending is a step (R30), and duty 4: an `XLAT.VAL` after an `ARG` write, and with none. -/
theorem witness_HostRegisterAccess_duty4 :
    (∃ p, (hostDoes (.write 0 (.arg 9)) (commanded 0x50 ready)).ports[0]? = some p ∧ p.cmd = some 0x50 ∧
      enabled .host (hostDoes (.write 0 (.arg 9)) (commanded 0x50 ready)) = true) ∧
    (let s := hostDoes (.write 1 (.cmd 0x11)) { ready with env := { ready.env with argSet := [1] } }
     s.ports[1]? = some Port.idle ∧ 1 ∈ s.env.argSet ∧ enabled .host s = true) ∧
    (let s := hostDoes (.write 1 (.cmd 0x11)) { ready with env := { ready.env with argSet := [] } }
     s.ports[1]? = some Port.idle ∧ 1 ∉ s.env.argSet ∧ enabled .host s = false) :=
  ⟨⟨_, rfl, rfl, by decide⟩, by decide, by decide⟩

/-- R159: a table read before a table is installed is no untranslated symbol. -/
theorem test_tblRead_notConfigured :
    tblRead .one { ready with tblOk := false } = faulting .notConfigured 1 { ready with tblOk := false } := rfl

/-- R9, R243: SRC's step makes up one answer; with a chunk awaited and not yet out, ENV's step hands CQDRV the timeout. -/
theorem test_oracle_steps :
    (srcStep ready).env.srcDraws.length = ready.env.srcDraws.length + 1 ∧
    (let s := { activeCq with cq := { activeCq.cq with phase := .await }, hw := { activeCq.hw with txmem := [7] } }
     (envStep s).env.sched.head? = some .cqdrv ∧ (txAwait s).1 = false) := by
  refine ⟨rfl, ?_, rfl⟩
  have h : openWaits { activeCq with cq := { activeCq.cq with phase := .await }, hw := { activeCq.hw with txmem := [7] } } =
      [.cqdrv] := by decide
  simp only [envStep, h, List.length_cons, List.length_nil, Nat.zero_add, Nat.mod_one]
  rfl

theorem witness_HwtxShifts :
    Lined .hwtx activeIntr ∧ activeIntr.err.fault = 0 ∧ activeIntr.hw.txEn = true ∧ activeIntr.hw.txmem = 7 :: [] :=
  ⟨⟨by decide, _, rfl⟩, by decide, by decide, by decide⟩

theorem witness_AfterResetOnlyHostSteps :
    enabled .host (State.resetWith Config.params { Env.bare with hostq := [.readRes 0] }) = true ∧
    paramsOk Config.params = true ∧ Env.bare.hostq = [] := by decide

theorem witness_RestartResets :
    Lined .host (hostDoes .restart activeIntr) ∧ (hostDoes .restart activeIntr).env.hostq = .restart :: [] :=
  ⟨⟨by decide, _, rfl⟩, rfl⟩

/-- A faulted channel. -/
def stuck : State := { ready with err := { ready.err with fault := 0x08 } }

theorem witness_FaultStopsChannel :
    ((hostDoes (.write 0 (.arg 5)) stuck).err.fault ≠ 0 ∧
      gives (step (hostDoes (.write 0 (.arg 5)) stuck)) (fun t => (portOf t 0).arg == 5) = true ∧
      ∀ as, (hostDoes (.write 0 (.arg 5)) stuck).env.hostq ≠ .restart :: as) ∧
    (stuck.err.fault ≠ 0 ∧ paramsOk stuck.params = true ∧ stuck.env.hostq = []) :=
  ⟨⟨by decide, by decide, fun _ h => by cases h⟩, by decide⟩

/-- A halted channel. -/
def halted : State := { ready with chState := .halted }

theorem witness_HaltedRefuses :
    (halted.chState = .halted ∧ Instr.chInit.hostIssued = true ∧ ∀ n, Instr.chInit ≠ .status n) ∧
    (gives (exec .chTeardown ready) (fun t => t.chState == .halted) = true ∧
      gives (exec .chInit unconfigured) (fun t => t.chState == .halted) = true ∧
      gives (exec .frameStart halted) (fun t => t.chState == .halted) = true) :=
  ⟨⟨rfl, rfl, fun _ h => by cases h⟩, by decide⟩

theorem witness_ResetRefuses : unconfigured.chState = .reset ∧ (6 : BitVec 3) ≠ 7 := by decide

theorem witness_XlatCfgInstalls :
    findTable ready 0 = none ∧ findTable ready 0x999 = none ∧
    (let n := fun h => listedCount h ((findTable ready h).getD []) ready.params.maxTableEntries
     n 0x204 = ready.params.maxTableEntries ∧ n 0x201 = 1 ∧ recordTag 0x201 [0, zeroCode, 9, oneCode, 7] 1 = 9 ∧
     n 0x200 = 2 ∧ recordTag 0x200 [0, zeroCode, 1, oneCode, 7] 2 = 7) ∧
    gives (exec .xlatCfg { unconfigured with seq := { State.reset.seq with opnd := 0x202 } }) (fun t =>
      t.seq.answer == [1, 0x103]) = true := by decide

theorem witness_XlatValLogs :
    ready.chState = .ready ∧ findTable (withArg 0 ready) (portOf (withArg 0 ready) 0).arg = none ∧
    findTable (withArg 0x203 ready) (portOf (withArg 0x203 ready) 0).arg = some [0, 5, 1, oneCode, 0, zeroCode, 7] := by decide

theorem witness_SelfCheckLogsOverridden :
    gives (exec .xlatCfg { unconfigured with seq := { State.reset.seq with opnd := 0x203 } }) (fun t =>
      t.seq.answer == [0] && mismatches t.tbl 0x203 [0, 5, 1, oneCode, 0, zeroCode, 7] 16 == [0]) = true ∧
    findTable unconfigured 0x203 = some [0, 5, 1, oneCode, 0, zeroCode, 7] := by decide

theorem witness_XlatLkpReads :
    (0 : BitVec 3).toNat = BitSymbol.zero.tag.toNat ∧ (6 : BitVec 3).toNat = BitSymbol.eof.tag.toNat := by decide

theorem witness_RingCountsReported :
    unconfigured.chState = .reset ∧ halted.chState = .halted ∧ ready.chState = .ready := by decide

theorem witness_RingWrWrites :
    (ring4 2 2 4).ring.used = (ring4 2 2 4).params.ringCap ∧ (ring4 3 0 3).ring.used ≠ (ring4 3 0 3).params.ringCap ∧
    (ring4 3 0 3).ring.widx < (ring4 3 0 3).params.ringCap ∧ 2 % (ring4 3 0 3).params.ringCap ≠ (ring4 3 0 3).ring.widx := by
  decide

theorem witness_RingRstEmpties : activeIntr.drvState = .active ∧ (ring4 2 3 3).drvState = .idle := by decide

theorem witness_RingPeekReads :
    (ring4 1 3 2).ring.used ≤ (2 : BitVec 16).toNat ∧ (1 : BitVec 16).toNat < (ring4 1 3 2).ring.used := by decide

theorem witness_RingAdvConsumes :
    (ring4 1 3 2).ring.used < (3 : BitVec 16).toNat ∧ (2 : BitVec 16).toNat ≤ (ring4 1 3 2).ring.used := by decide

theorem witness_RingIsFifo :
    RingInv (ring4 0 3 1) ∧
    (ringRun [.put 5, .put 6, .take, .take, .put 7] (ring4 0 3 1)).map (·.1) = some [13, 5] :=
  ⟨⟨by decide, by decide, by decide, by decide⟩, by decide⟩

theorem witness_EncFillCompletes :
    (RingInv wrapped ∧ Configured wrapped ∧ TableComplete wrapped) ∧ ready.hasData = false ∧
    gives (exec .encFill wrapped) (fun t => t.hasData && t.ring.used == 9) = true :=
  ⟨wrapped_ok, by decide, by decide⟩

theorem witness_EncFillWritesListValues :
    (RingInv wrapped ∧ Configured wrapped ∧ TableComplete wrapped) ∧
    findSource wrapped wrapped.cfg.srcHandle = some (.list [0xB0, 0x01] [0xB0, 0x01]) ∧
    wrapped.hasData = !([0xB0, 0x01] : List Word).isEmpty ∧ ([0xB0, 0x01] : List Word) ≠ [] ∧
    wrapped.cfg.slotsPerValue < wrapped.params.ringCap - wrapped.ring.used :=
  ⟨wrapped_ok, by decide⟩

theorem witness_EncodedValueDecodes :
    (RingInv wrapped ∧ Configured wrapped ∧ TableComplete wrapped) ∧
    findSource wrapped wrapped.cfg.srcHandle = some (.list [0xB0, 0x01] (0xB0 :: [0x01])) ∧ wrapped.hasData = true ∧
    wrapped.cfg.slotsPerValue < wrapped.params.ringCap - wrapped.ring.used ∧ wrapped.tbl.one.code ≠ wrapped.tbl.zero.code ∧
    7 < wrapped.cfg.width :=
  ⟨wrapped_ok, by decide⟩

theorem witness_DrvServiceMovesChunk :
    RingInv activeIntr ∧ Configured activeIntr ∧ TableComplete activeIntr ∧
    activeIntr.hw.txmem.length ≤ activeIntr.params.hwDepth :=
  ⟨activeIntr_inv.ring, (activeIntr_inv.live rfl).configured rfl, (activeIntr_inv.live rfl).tableComplete rfl, by decide⟩

theorem witness_EvThrServices :
    RingInv activeIntr ∧ Configured activeIntr ∧ TableComplete activeIntr ∧
    activeIntr.hw.txmem.length ≤ activeIntr.params.hwDepth := witness_DrvServiceMovesChunk

theorem witness_InterruptPathKeepsOrder :
    Inv activeIntr ∧ activeIntr.err.fault = 0 ∧ activeIntr.drvState = .active ∧ activeIntr.cfg.strategy = .intr :=
  ⟨activeIntr_inv, by decide⟩

theorem witness_CqSendHandsOver :
    (activeCq.cq.phase = .send ∧ ¬ (activeCq.ring.used = 0 ∧ activeCq.hasData = false)) ∧
    ((staged 0 activeCq).cq.phase = .send ∧ (staged 0 activeCq).ring.used = 0 ∧ (staged 0 activeCq).hasData = false) := by
  decide

/-- The awaited chunk has been shifted out, and the answer is success. -/
theorem witness_CqAwaitConfirmsOrTimesOut :
    RingInv awaitCq ∧ Configured awaitCq ∧ TableComplete awaitCq ∧ awaitCq.cq.phase = .await ∧
    awaitCq.cq.n ≤ awaitCq.ring.used :=
  ⟨awaitCq_inv.ring, (awaitCq_inv.live rfl).configured rfl, (awaitCq_inv.live rfl).tableComplete rfl, by decide, by decide⟩

theorem witness_BgWaitStarts :
    unconfigured.chState = .reset ∧ halted.chState = .halted ∧ readyCq.cfg.strategy = .cq ∧
    ({ ready with notify := true } : State).notify = true ∧ ready.drvState = .idle ∧ activeIntr.drvState = .active := by decide

/-- The channel with a wait on port 1. -/
def waiting (s : State) : State :=
  lineUp (.pacer 1) { s with ports := s.ports.set 1 { Port.idle with busy := true, bgw := true } }

theorem witness_PacerEndsWait :
    (∀ s ∈ [halted, ready, { activeIntr with notify := true }, activeIntr],
      paramsOk (waiting s).params = true ∧ (waiting s).env.sched = .pacer 1 :: [] ∧ (waiting s).err.fault = 0 ∧
      (portOf (waiting s) 1).bgw = true) ∧
    gives (step (waiting activeIntr)) (fun t => (portOf t 1).rstat == 0x33 && t.cnt.timeouts == 1) = true := by decide

theorem witness_ListSourceAnswers :
    findSource ready ready.cfg.srcHandle = some (.list [0xB0, 0x01] [0xB0, 0x01]) ∧
    (let s := { ready with env := { ready.env with sources := [(0x300, .list [5] [])] } }
     findSource s s.cfg.srcHandle = some (.list [5] [])) := by decide

/-- The unconfigured channel with another descriptor. -/
def describing (d : Descriptor) : State :=
  withArg 0x100 { unconfigured with env := { unconfigured.env with descs := [(0x100, d)] } }

theorem witness_ChInitChecks :
    ready.chState = .ready ∧ halted.chState = .halted ∧
    findDesc (withArg 0 unconfigured) (portOf (withArg 0 unconfigured) 0).arg = none ∧
    ([(⟨0x00, 0, 0x300, 0x200⟩, 0x11), (⟨0x21, 0, 0x300, 0x200⟩, 0x11), (⟨0x408, 0, 0x300, 0x200⟩, 0x12),
      (⟨0x08, 0, 0x999, 0x200⟩, 0x14), (⟨0x10, 0, 0x300, 0x200⟩, 0x15), (⟨0x8F, 0, 0x300, 0x200⟩, 0x15),
      (⟨0x0F, 0x00080009, 0x300, 0x200⟩, 0x16), (⟨0x01, 0x00100001, 0x300, 0x200⟩, 0x16)] : List (Descriptor × Word)).all
      (fun c => findDesc (describing c.1) (portOf (describing c.1) 0).arg == some c.1 &&
        gives (exec .chInit (describing c.1)) fun t => (portOf t 0).res == c.2 && t.chState == .halted) = true ∧
    (let s := { describing ⟨0x208, 0, 0x300, 0x200⟩ with params := { Config.params with cqSupported := false } }
     s.params.cqSupported = false ∧ gives (exec .chInit s) (fun t => (portOf t 0).res == 0x13) = true) := by decide

theorem witness_ChInitConfigures :
    ([(⟨0x08, 0, 0x300, 0x202⟩, 0x103), (⟨0x08, 0, 0x300, 0⟩, 0), (⟨0x08, 0, 0x300, 0x201⟩, 0x902)] : List (Descriptor × Word)).all
      (fun c => configCheck (latchConfig c.1 (describing c.1)) == none &&
        gives (exec .xlatCfg { describing c.1 with seq := { State.reset.seq with opnd := c.1.word3 } }) fun t =>
          t.seq.answer == [1, c.2]) = true ∧
    (let s := describing ⟨0x08, 0, 0x300, 0x203⟩
     let ws := [0, 5, 1, oneCode, 0, zeroCode, 7]
     findTable s 0x203 = some ws ∧ configCheck (latchConfig ⟨0x08, 0, 0x300, 0x203⟩ s) = none ∧
     listedCount 0x203 ws s.params.maxTableEntries = 3 ∧ recordTag 0x203 ws 3 = 7 ∧
     recordTag 0x203 ws 0 = BitSymbol.zero.tag ∧ recordTag 0x203 ws 1 = BitSymbol.one.tag) := by decide

theorem witness_FrameStartRefusals :
    unconfigured.chState = .reset ∧ halted.chState = .halted ∧
    (let s := { ready with paused := true }; s.chState = .ready ∧ s.paused = true) ∧
    (activeIntr.chState = .ready ∧ activeIntr.paused = false ∧ activeIntr.drvState = .active) := by decide

theorem witness_FrameStartIntr :
    paramsOk ready.params = true ∧ ready.ring.slots.wf = true ∧ ready.chState = .ready ∧ Configured ready ∧
    TableComplete ready ∧ ready.paused = false ∧ ready.drvState = .idle ∧ ready.cfg.strategy = .intr ∧
    ready.hw.txmem.length ≤ ready.params.hwDepth :=
  ⟨by decide, by decide, by decide, ready_configured, ready_tableComplete, by decide⟩

theorem witness_FrameStartCq :
    readyCq.ring.slots.wf = true ∧ readyCq.chState = .ready ∧ Configured readyCq ∧ TableComplete readyCq ∧
    readyCq.paused = false ∧ readyCq.drvState = .idle ∧ readyCq.cfg.strategy = .cq :=
  ⟨by decide, by decide, ⟨by decide, by decide, by decide, by decide, by decide, by decide⟩, by unfold TableComplete; decide, by decide⟩

theorem witness_FrameOfListSource :
    (readyCq.ring.slots.wf = true ∧ readyCq.chState = .ready ∧ Configured readyCq ∧ TableComplete readyCq ∧
      readyCq.paused = false ∧ readyCq.drvState = .idle ∧ readyCq.cfg.strategy = .cq) ∧
    findSource readyCq readyCq.cfg.srcHandle = some (.list [0xB0, 0x01] [0xB0, 0x01]) ∧
    (let s := { readyCq with env := { ready.env with sources := [(0x300, .list [] [])] } }
     findSource s s.cfg.srcHandle = some (.list [] [])) :=
  ⟨witness_FrameStartCq, by decide⟩

theorem witness_StatusReadsSnapshot :
    gives (exec (.status 7) activeIntr) (fun t => (portOf t 0).res == 2) = true ∧
    gives (exec (.status 0) activeIntr) (fun t => (portOf t 0).res == 0x00000038) = true := by decide

theorem witness_ChTeardownHalts :
    ready.chState = .ready ∧ ready.cq.phase = .idle ∧ activeCq.chState = .ready ∧ activeCq.cq.phase ≠ .idle := by decide

theorem witness_OnlyTheseWrite :
    gives (exec (.pause true) ready) (fun t => t.paused != ready.paused) = true ∧
    gives (exec .chInit (withArg 0x100 unconfigured)) (fun t => t.cfg != unconfigured.cfg && t.tblOk != unconfigured.tblOk &&
      t.registry != unconfigured.registry) = true ∧
    gives (exec .chTeardown ready) (fun t => t.err.restartReq != ready.err.restartReq) = true := by decide

theorem witness_TracesOnlyGrow :
    gives (step activeIntr) (fun t => t.hw.wire == [7]) = true ∧
    ∀ as, activeIntr.env.hostq ≠ .restart :: as :=
  ⟨by decide, fun _ h => by cases h⟩

theorem witness_StepKeepsRing :
    RingInv (lineUp .isr activeIntr) ∧ gives (step (lineUp .isr activeIntr)) (fun t => t.ring.used == 0) = true :=
  ⟨⟨by decide, by decide, by decide, by decide⟩, by decide⟩

theorem witness_StepKeepsInvariant :
    Inv activeIntr ∧ Inv awaitCq ∧ gives (step activeIntr) (fun t => t.hw.wire == [7]) = true ∧
    gives (step awaitCq) (fun t => t.ring.used == 2) = true :=
  ⟨activeIntr_inv, awaitCq_inv, by decide, by decide⟩

theorem witness_InternalFaultsUnreachable :
    Inv awaitCq ∧ Safe awaitCq ∧ gives (step awaitCq) (fun t => t.ring.used == 2) = true :=
  ⟨awaitCq_inv, by unfold Safe; decide, by decide⟩

theorem witness_ActiveFrameCanStep :
    (Inv activeIntr ∧ activeIntr.err.fault = 0 ∧ activeIntr.drvState = .active ∧ activeIntr.cfg.strategy = .intr) ∧
    (Inv awaitCq ∧ awaitCq.err.fault = 0 ∧ awaitCq.drvState = .active ∧ awaitCq.cfg.strategy = .cq) :=
  ⟨⟨activeIntr_inv, by decide⟩, ⟨awaitCq_inv, by decide⟩⟩

theorem witness_PulseCodeFields : (3 : Nat) < 4 ∧ (pulseBytes 0x00048008)[3]? = some 0x00 ∧
    (pulseBytes 0x00048008)[0]? = some 0x08 := by decide

end Sys2Proof.Tests
end

section
/-! PROOFS. What one step of the machine can be, said once, and that every step keeps the invariant of R56. -/

namespace Sys2Proof.Machine

/-! ### What a step can be -/

/-- What the step of one agent leaves of a state s in which that agent is enabled: one constructor per thing an agent does
(R9, R16, R30, R111, R221, R240, R246, R251). -/
inductive Move (s : State) : State → Prop
  /-- A register read of the HOST, and the own steps of the two oracles. -/
  | environment (e : Env) : Move s { s with env := e }
  /-- The HOST writes `ARG[k]`. -/
  | writeArg (e : Env) (k : Nat) (v : Word) : Move s (modPort k (fun p => { p with arg := v }) { s with env := e })
  /-- The HOST writes `CMD[k]`. -/
  | writeCmd (e : Env) {k : Nat} (w : Word) (live : s.err.fault = 0) (port : k < s.ports.length)
      (idle : (portOf s k).busy = false) :
      Move s (modPort k (fun p => { p with cmd := some w, busy := true }) { s with env := e })
  | restart (e : Env) {as : List HostAct} (first : s.env.hostq = .restart :: as) : Move s (State.resetWith s.params e)
  /-- SEQ executes the host command it takes from port k. -/
  | command {k : Nat} {w : Word} {i : Instr} {t : State} (live : s.err.fault = 0) (held : (portOf s k).cmd = some w)
      (issued : i.hostIssued = true) (run : exec i (takeCommand k s) = .next t) : Move s t
  /-- The word SEQ takes from port k spells no host command (R128). -/
  | badCommand {k : Nat} {w : Word} (held : (portOf s k).cmd = some w) :
      Move s (raiseFault .illegalCommand w (takeCommand k s))
  /-- ISR handles `EV.THR`. -/
  | threshold {t : State} (live : s.err.fault = 0) (ready : s.chState = .ready) (intr : s.cfg.strategy = .intr)
      (armed : s.thrIe = true) (run : exec .evThr s = .next t) : Move s t
  /-- ISR handles `EV.TXDONE`. -/
  | txdone {t : State} (live : s.err.fault = 0) (ready : s.chState = .ready) (intr : s.cfg.strategy = .intr)
      (run : exec .evTxdone s = .next t) : Move s t
  /-- CQDRV steps. -/
  | loop {t : State} (live : s.err.fault = 0) (ready : s.chState = .ready) (run : exec .drvCqstep s = .next t) : Move s t
  /-- PACER ends the wait of port k. -/
  | pacer {k : Nat} (live : s.err.fault = 0) (waits : (portOf s k).bgw = true) : Move s (pacerStep k s)
  /-- HWTX shifts. -/
  | shift (live : s.err.fault = 0) : Move s (hwtxShift s)
  /-- The rule-level latch runs its operation (log 6). -/
  | invocation {c : Code} {i : Instr} {t : State} (held : s.seq.invoke = some c) (run : exec i (takeInvocation s) = .next t) :
      Move s t
  /-- The rule-level latch holds a command word that spells no operation (log 6). -/
  | badInvocation {c : Code} (held : s.seq.invoke = some c) :
      Move s (raiseFault .illegalCommand c.word (takeInvocation s))

theorem notFaulted_iff {s : State} : notFaulted s = true ↔ s.err.fault = 0 := by simp [notFaulted]

/-- An agent that may step may step still when the step has been scheduled. -/
theorem enabled_advanceSchedule (a : Agent) (s : State) : enabled a (advanceSchedule s) = enabled a s := by
  cases a <;> rfl

theorem decodeHost_hostIssued {w : Word} {i : Instr} (h : decodeHost w = some i) : i.hostIssued = true := by
  unfold decodeHost at h
  split at h
  · split at h
    · rename_i hi; cases h; exact hi
    · cases h
  · cases h

theorem hostStep_move {s t : State} (he : hostEnabled s = true) (h : hostStep s = .next t) : Move s t := by
  unfold hostStep at h
  split at h
  · cases h; exact .environment s.env
  · rename_i a as hq
    unfold hostAction at h
    split at h
    · cases h; exact .restart _ hq
    · split at h <;> cases h
      exact .writeArg _ _ _
    · rename_i k w
      simp only [hostEnabled, hq, Bool.and_eq_true, Bool.not_eq_true'] at he
      split at h <;> cases h
      rename_i hk
      exact .writeCmd _ w (notFaulted_iff.1 he.1.1) hk he.1.2
    · split at h <;> cases h
      exact .environment _
    · split at h <;> cases h
      exact .environment _
    · split at h <;> cases h
      exact .environment _
    · split at h <;> cases h

theorem seqStep_move {s t : State} {k : Nat} (he : seqEnabled k s = true) (h : seqStep k s = .next t) : Move s t := by
  simp only [seqEnabled, Bool.and_eq_true] at he
  unfold seqStep at h
  split at h
  · rename_i hc; rw [hc] at he; cases he.2
  · rename_i w hc
    split at h
    · rename_i i hd; exact .command (notFaulted_iff.1 he.1) hc (decodeHost_hostIssued hd) h
    · cases h; exact .badCommand hc

/-- The handler takes an event of a READY, unfaulted INTR channel, `EV.THR` only when it is enabled (R221). -/
theorem eventTaken_some {s : State} {e : Event} (h : eventTaken s = some e) :
    s.err.fault = 0 ∧ s.chState = .ready ∧ s.cfg.strategy = .intr ∧ (e = .thr → s.thrIe = true) := by
  unfold eventTaken at h
  split at h
  · rename_i hd
    cases h
    simp only [txdoneDeliverable, isrOpen, Bool.and_eq_true, beq_iff_eq] at hd
    obtain ⟨⟨⟨⟨hf, hr⟩, hi⟩, -⟩, -⟩ := hd
    exact ⟨hf, hr, hi, fun h => by cases h⟩
  · split at h
    · rename_i hd
      cases h
      simp only [thrDeliverable, isrOpen, Bool.and_eq_true, beq_iff_eq] at hd
      obtain ⟨⟨⟨⟨hf, hr⟩, hi⟩, -⟩, hm⟩ := hd
      exact ⟨hf, hr, hi, fun _ => hm⟩
    · cases h

theorem isrStep_move {s t : State} (he : isrEnabled s = true) (h : isrStep s = .next t) : Move s t := by
  cases hev : eventTaken s with
  | none => simp [isrEnabled, hev] at he
  | some e =>
    obtain ⟨hf, hr, hi, hm⟩ := eventTaken_some hev
    cases e with
    | thr =>
      have hd : decode { fmt := .ev, word := Event.thr.number } = some .evThr := by decide
      simp only [isrStep, hev, hd] at h
      exact .threshold hf hr hi (hm rfl) h
    | txdone =>
      have hd : decode { fmt := .ev, word := Event.txdone.number } = some .evTxdone := by decide
      simp only [isrStep, hev, hd] at h
      exact .txdone hf hr hi h

theorem ruleStep_move {s t : State} (he : ruleEnabled s = true) (h : ruleStep s = .next t) : Move s t := by
  simp only [ruleEnabled, Bool.and_eq_true] at he
  unfold ruleStep at h
  split at h
  · rename_i hc; rw [hc] at he; cases he.2
  · rename_i c hc
    split at h
    · exact .invocation hc h
    · split at h
      · cases h; exact .badInvocation hc
      · cases h
      · cases h

/-- The step of an enabled agent (R9, R90). -/
theorem agentStep_move {s t : State} {a : Agent} (he : enabled a s = true) (h : agentStep a s = .next t) : Move s t := by
  cases a with
  | host => exact hostStep_move he h
  | seq k => exact seqStep_move he h
  | isr => exact isrStep_move he h
  | cqdrv =>
    simp only [enabled, cqdrvEnabled, Bool.and_eq_true, beq_iff_eq] at he
    exact .loop (notFaulted_iff.1 he.1.1) he.2 h
  | pacer k =>
    simp only [enabled, pacerEnabled, Bool.and_eq_true] at he
    cases h; exact .pacer (notFaulted_iff.1 he.1) he.2
  | hwtx =>
    simp only [enabled, hwtxEnabled, Bool.and_eq_true] at he
    cases h; exact .shift (notFaulted_iff.1 he.1.1)
  | src => cases h; rw [srcStep_frame]; exact .environment _
  | env => cases h; rw [envStep_frame]; exact .environment _
  | rule => exact ruleStep_move he h

/-- A step of the machine: none, on a channel that waits for the HOST, or the move of an enabled agent (R90, R371). -/
theorem step_move {s t : State} (h : step s = .next t) : t = s ∨ Move (advanceSchedule s) t := by
  unfold step machineStep at h
  split at h
  · split at h
    · rename_i a ha
      exact .inr (agentStep_move ((enabled_advanceSchedule a s).trans (nextAgent_enabled ha)) h)
    · split at h <;> cases h
      exact .inl rfl
  · cases h

/-! ### The invariant at reset -/

/-- The ring of a reset channel is empty (R55, R180). -/
theorem resetWith_ringInv {p : Params} (e : Env) (h : 0 < p.ringCap) : RingInv (State.resetWith p e) :=
  RingInv.of_widx (Nat.zero_le _) h (by simp [State.resetWith])

/-- The reset state of legal parameters meets the invariant (R12, R55, R56). -/
theorem resetWith_inv {p : Params} (e : Env) (h : paramsOk p = true) : Inv (State.resetWith p e) := by
  have hcap : 0 < p.ringCap := by
    simp only [paramsOk, Bool.and_eq_true, decide_eq_true_eq] at h
    omega
  have hidle : ∀ q ∈ (State.resetWith p e).ports, q = Port.idle := fun q hq => List.eq_of_mem_replicate hq
  refine ⟨h, rfl, List.length_replicate, resetWith_ringInv e hcap, rfl, rfl, fun _ => ?_⟩
  refine LiveInv.quiet rfl rfl rfl rfl rfl (Nat.zero_le _) ?_ ?_ (fun _ => rfl) (fun _ _ => rfl) ?_ ?_
  · intro h; cases h
  · intro h; cases h
  · intro q hq hb; rw [hidle q hq] at hb; cases hb
  · intro q hq hc; rw [hidle q hq] at hc; cases hc

/-- Settles O55: reset is the rest state of legal parameters. -/
theorem invAtReset : Obligations.InvAtReset := by
  unfold Obligations.InvAtReset Safe
  exact ⟨resetWith_inv Env.bare (by decide), by decide⟩

/-- Settles O11, item by item. -/
theorem resetState : Obligations.ResetState := by
  unfold Obligations.ResetState
  refine ⟨⟨Config.params, Env.bare, rfl⟩, fun p e => ?_⟩
  have hports : ∀ q ∈ (State.resetWith p e).ports, q.arg = 0 ∧ q.res = 0 ∧ q.rstat = 0 ∧ q.busy = false ∧ q.bgw = false := by
    intro q hq
    rw [List.eq_of_mem_replicate hq]
    exact ⟨rfl, rfl, rfl, rfl, rfl⟩
  have htbl : ∀ b, ((State.resetWith p e).tbl.get b).valid = false := by
    intro b; cases b <;> rfl
  refine ⟨rfl, rfl, List.length_replicate, rfl, hports, rfl, htbl, ?_⟩
  and_intros <;> rfl

/-! ### Every step keeps the invariant -/

theorem Res.Leaves.map {P : State → Prop} {f : State → State} {r : Res State} (h : r.Leaves P id)
    (hf : ∀ t, P t → P (f t)) : Res.Leaves P id (r.map f) := by
  cases r with
  | ok t => exact hf t h
  | error t => exact h

/-- A host command keeps the invariant (R111). -/
theorem exec_hostIssued_inv {i : Instr} {s t : State} (hb : BaseInv s) (hl : LiveInv s) (hi : Issued s)
    (hh : i.hostIssued = true) (ht : exec i s = .next t) : Inv t := by
  cases i with
  | xlatVal => exact settle_next (whenReady_inv hb hl hi fun _ => validate_inv hb hl hi _) ht
  | xlatLkp b => exact settle_next (lookup_inv hb hl hi b) ht
  | ringAvf => exact settle_next (ringCount_inv hb hl hi _ _) ht
  | ringAvd => exact settle_next (ringCount_inv hb hl hi _ _) ht
  | bgWait => exact settle_next (whenReady_inv hb hl hi fun hr => bgWaitFirst_inv hb hl hi hr) ht
  | chInit => exact settle_next (channelInit_inv hb hl hi) ht
  | frameStart => exact settle_next (frameStart_inv hb hl hi) ht
  | pause p => exact settle_next (pause_inv hb hl hi p) ht
  | status n => exact settle_next (reply_inv hb hl hi _ _ _) ht
  | chTeardown => exact settle_next (whenReady_inv hb hl hi fun _ => teardown_inv hb hl hi) ht
  | xlatCfg | ringWr | ringRst | ringPeek | ringAdv | encFill | drvService | drvCqstep | evThr | evTxdone | srcMore | srcNext
  | srcFramestart | txConfigure | txTransmit | txAwait | txDisable | txTeardown => cases hh

/-- The handler of `EV.THR` keeps the invariant: while its mask is set a frame is in flight (R56 item 5, R231). -/
theorem execEvThr_inv {s t : State} (hb : BaseInv s) (hl : LiveInv s) (hi : s.cfg.strategy = .intr) (hm : s.thrIe = true)
    (ht : execEvThr s = .next t) : Inv t :=
  settle_next (Res.Leaves.map (serviceActive_inv hb hl (hl.enables (.inl hm)).2 hi) fun _ hu => hu) ht

/-- Every move of an agent keeps the invariant. -/
theorem Move.inv {s t : State} (h : Inv s) (m : Move s t) : Inv t := by
  cases m with
  | environment e => exact h.env e
  | writeArg e k v => exact writeArg_inv (h.env e) k v
  | writeCmd e w live port idle => exact writeCmd_inv (h.env e) w port idle live
  | restart e first => exact resetWith_inv e h.params
  | command live held issued run =>
    obtain ⟨hl, hi⟩ := takeCommand_live (h.live live) held
    exact exec_hostIssued_inv (takeCommand_base _ h.base) hl hi issued run
  | badCommand held => exact raiseFault_inv _ _ (takeCommand_base _ h.base)
  | threshold live ready intr armed run => exact execEvThr_inv h.base (h.live live) intr armed run
  | txdone live ready intr run => exact execEvTxdone_inv h.base (h.live live) intr run
  | loop live ready run => exact settle_next (cqStep_inv h.base (h.live live) ready) run
  | pacer live waits => exact pacerStep_inv h.base (h.live live) waits
  | shift live => exact hwtxShift_inv h.base (h.live live)
  | invocation held run => rw [h.noInvocation] at held; cases held
  | badInvocation held => rw [h.noInvocation] at held; cases held

/-- Settles O57: a step is no change or one agent's move, and every move keeps the invariant. -/
theorem stepKeepsInvariant : Obligations.StepKeepsInvariant := by
  unfold Obligations.StepKeepsInvariant
  intro s t hs ht
  rcases step_move ht with rfl | m
  · exact hs
  · exact m.inv (advanceSchedule_inv hs)

end Sys2Proof.Machine
end

section
/-! PROOFS. The HOST's accesses to its port registers (R30). -/

namespace Sys2Proof.Machine

/-- Changing a port that exists is writing its new registers. -/
theorem modPort_eq_set {s : State} {k : Nat} {p : Port} (hp : s.ports[k]? = some p) (f : Port → Port) :
    modPort k f s = { s with ports := s.ports.set k (f p) } := by
  unfold modPort
  rw [List.modify_eq_set_getElem?, hp]
  rfl

theorem portOf_of_getElem? {s : State} {k : Nat} {p : Port} (hp : s.ports[k]? = some p) : portOf s k = p := by
  unfold portOf
  rw [List.getD_eq_getElem?_getD, hp]; rfl

/-- With the HOST lined up and its next action possible, a step is that action, taken off the list (R30, R90). -/
theorem step_host {s : State} {a : HostAct} {as : List HostAct} (hl : Lined .host s) (hq : s.env.hostq = a :: as)
    (he : hostEnabled s = true) : step s = hostAction a (actionTaken s) := by
  obtain ⟨hp, rest, hs⟩ := hl
  have hstep : hostStep (advanceSchedule s) = hostAction a (actionTaken s) := by
    have hq' : (advanceSchedule s).env.hostq = a :: as := hq
    unfold hostStep
    rw [hq']
    simp only [actionTaken, hq]
    rfl
  unfold step
  rw [machineStep_lined hp hs he]
  exact hstep

/-- The `CMD` writes that get a step: those that break no duty of R320, on a channel that has not faulted (R333). -/
theorem hostEnabled_writeCmd {s : State} {k : Nat} {w : Word} {p : Port} {as : List HostAct} (hp : s.ports[k]? = some p)
    (hq : s.env.hostq = .write k (.cmd w) :: as) :
    hostEnabled s = true ↔ s.err.fault = 0 ∧ p.busy = false ∧ (w = 0x11 ∨ w = 0x50 → k ∈ s.env.argSet) := by
  have harg : (wordTakesArg w = false ∨ k ∈ s.env.argSet) ↔ (w = 0x11 ∨ w = 0x50 → k ∈ s.env.argSet) := by
    have hw : wordTakesArg w = true ↔ w = 0x11 ∨ w = 0x50 := wordTakesArg_iff w
    rw [← hw]
    cases wordTakesArg w <;> simp
  unfold hostEnabled
  rw [hq]
  simp only [Bool.and_eq_true, Bool.or_eq_true, Bool.not_eq_true', notFaulted_iff, portOf_of_getElem? hp,
    List.contains_iff_mem, and_assoc, harg]

/-- Settles O9: each access is the HOST's action on a port that exists. -/
theorem hostRegisterAccess : Obligations.HostRegisterAccess := by
  unfold Obligations.HostRegisterAccess
  intro s k p as hl hp
  have hk : k < (actionTaken s).ports.length := (List.getElem?_eq_some_iff.1 hp).1
  have hp' : (actionTaken s).ports[k]? = some p := hp
  refine ⟨fun v hq => ⟨?_, ?_⟩, fun w hq => ⟨?_, fun hf hb ha => ?_, fun hd => ?_⟩, fun hq => ?_, fun hq => ?_, fun hq => ?_⟩
  · simp [actionTaken, hq, argSetAfter]
  · rw [step_host hl hq (by simp [hostEnabled, hq]), hostAction, if_pos hk, modPort_eq_set hp']; rfl
  · simp [actionTaken, hq, argSetAfter]
  · rw [step_host hl hq ((hostEnabled_writeCmd hp hq).2 ⟨hf, hb, ha⟩), hostAction, if_pos hk, modPort_eq_set hp']; rfl
  · refine Bool.eq_false_iff.2 fun he => ?_
    obtain ⟨-, hb, ha⟩ := (hostEnabled_writeCmd hp hq).1 he
    rcases hd with hd | ⟨hw, hn⟩
    · rw [hb] at hd; cases hd
    · exact hn (ha hw)
  · rw [step_host hl hq (by simp [hostEnabled, hq]), hostAction, if_pos hk, portOf_of_getElem? hp']; rfl
  · rw [step_host hl hq (by simp [hostEnabled, hq]), hostAction, if_pos hk, portOf_of_getElem? hp']; rfl
  · rw [step_host hl hq (by simp [hostEnabled, hq]), hostAction, if_pos hk, portOf_of_getElem? hp']; rfl

end Sys2Proof.Machine
end

section
/-! PROOFS. What every operation keeps, said once for all parts of a step, completed or ended by a fault: the traces and the
sticky faults only grow, the ring property is kept, and no operation of a frame writes the control registers. -/

namespace Sys2Proof.Machine

/-- `WIRE` and `LOG` of t begin with those of s, no `FAULT` bit is cleared, and the ring property of R180 is kept. -/
structure Advance (s t : State) : Prop where
  wire : s.hw.wire <+: t.hw.wire
  log : s.err.log <+: t.err.log
  fault : s.err.fault &&& t.err.fault = s.err.fault
  ring : RingInv s → RingInv t

/-- The registers that only `PAUSE`, `XLAT.CFG`, `CH.INIT` and `CH.TEARDOWN` write (R36, R37, R43, R45, R361). -/
def controlView (s : State) :=
  (s.params, s.cfg, s.tbl, s.tblOk, s.chState, s.paused, s.registry, s.err.restartReq)

/-- From s to t no control register was written (R36, R37, R43, R45, R361), and the traces advanced. -/
structure Ordinary (s t : State) : Prop where
  control : controlView t = controlView s
  advance : Advance s t

/-- All that `Ordinary` looks at. -/
def ordinaryView (s : State) := (controlView s, s.err, s.hw.wire, s.ring)

theorem Advance.trans {s t u : State} (h : Advance s t) (g : Advance t u) : Advance s u := by
  refine ⟨h.wire.trans g.wire, h.log.trans g.log, ?_, fun hr => g.ring (h.ring hr)⟩
  calc s.err.fault &&& u.err.fault
      = s.err.fault &&& t.err.fault &&& u.err.fault := by rw [h.fault]
    _ = s.err.fault &&& (t.err.fault &&& u.err.fault) := BitVec.and_assoc ..
    _ = s.err.fault := by rw [g.fault, h.fault]

theorem Advance.of_ring {s t : State} (hw : t.hw.wire = s.hw.wire) (he : t.err = s.err) (hr : RingInv s → RingInv t) :
    Advance s t :=
  ⟨by rw [hw], by rw [he], by rw [he, BitVec.and_self], hr⟩

/-- A change that reaches neither the traces, nor `FAULT`, nor the ring; `RESTART_REQ` and `LAST_ERR` may differ. -/
theorem Advance.of_same {s t : State} (hw : t.hw.wire = s.hw.wire) (hl : t.err.log = s.err.log)
    (hf : t.err.fault = s.err.fault) (hr : t.ring = s.ring) (hp : t.params = s.params) : Advance s t :=
  ⟨by rw [hw], by rw [hl], by rw [hf, BitVec.and_self], fun h => h.congr hr hp⟩

theorem Ordinary.of_same {s t : State} (e : ordinaryView t = ordinaryView s) : Ordinary s t := by
  have hp : t.params = s.params := congrArg (fun v => v.1.1) e
  simp only [ordinaryView, Prod.mk.injEq] at e
  obtain ⟨hc, he, hw, hr⟩ := e
  exact ⟨hc, .of_ring hw he fun h => h.congr hr hp⟩

theorem Ordinary.refl (s : State) : Ordinary s s := .of_same rfl

theorem Ordinary.trans {s t u : State} (h : Ordinary s t) (g : Ordinary t u) : Ordinary s u :=
  ⟨g.control.trans h.control, h.advance.trans g.advance⟩

theorem Ordinary.leaves_trans {s t : State} {r : Res State} (h : Ordinary s t) (g : r.Leaves (Ordinary t) id) :
    r.Leaves (Ordinary s) id := g.mono fun _ hu => h.trans hu

theorem Ordinary.from_same {s t u : State} (h : Ordinary t u) (e : ordinaryView t = ordinaryView s) : Ordinary s u :=
  (Ordinary.of_same e).trans h

theorem Ordinary.leaves_from_same {s t : State} {r : Res State} (h : r.Leaves (Ordinary t) id)
    (e : ordinaryView t = ordinaryView s) : r.Leaves (Ordinary s) id := (Ordinary.of_same e).leaves_trans h

/-- An error is recorded at the end of the log (R338). -/
theorem recordError_ordinary (e : ErrCode) (i : Word) (s : State) : Ordinary s (recordError e i s) :=
  ⟨rfl, List.prefix_refl _, List.prefix_append _ _, BitVec.and_self, fun h => h.congr rfl rfl⟩

/-- A fault sets a bit and clears none (R47, R333). -/
theorem raiseFault_ordinary (k : FaultKind) (i : Word) (s : State) : Ordinary s (raiseFault k i s) := by
  refine ⟨rfl, List.prefix_refl _, List.prefix_append _ _, ?_, fun h => h.congr rfl rfl⟩
  show s.err.fault &&& (s.err.fault ||| k.mask) = s.err.fault
  ext i hi
  simp only [BitVec.getElem_and, BitVec.getElem_or]
  cases s.err.fault[i] <;> rfl

/-! ### Single updates -/

theorem env_ordinary (e : Env) (s : State) : Ordinary s { s with env := e } := .of_same rfl

theorem modPort_ordinary (k : Nat) (f : Port → Port) (s : State) : Ordinary s (modPort k f s) := .of_same rfl

theorem answering_ordinary (ws : List Word) (s : State) : Ordinary s (answering ws s) := .of_same rfl

theorem clearNotify_ordinary (s : State) : Ordinary s (clearNotify s) := .of_same rfl

theorem takeCommand_ordinary (k : Nat) (s : State) : Ordinary s (takeCommand k s) := .of_same rfl

theorem takeInvocation_ordinary (s : State) : Ordinary s (takeInvocation s) := .of_same rfl

theorem eventEntry_ordinary (e : Event) (s : State) : Ordinary s (eventEntry e s) := by
  cases e <;> exact .of_same rfl

theorem srcMore_ordinary (s : State) : Ordinary s (srcMore s).2 := by
  rw [srcMore_frame]; exact env_ordinary _ s

theorem srcNext_ordinary (s : State) : Ordinary s (srcNext s).2 := by
  rw [srcNext_frame]; exact env_ordinary _ s

theorem srcFrameStart_ordinary (s : State) : Ordinary s (srcFrameStart s) := by
  rw [srcFrameStart_frame]; exact env_ordinary _ s

theorem txConfigure_ordinary (s : State) : Ordinary s (txConfigure s) := .of_same rfl

theorem txTeardown_ordinary (s : State) : Ordinary s (txTeardown s) := .of_same rfl

theorem txDisable_ordinary (s : State) : Ordinary s (txDisable s) := .of_same rfl

theorem maskEvents_ordinary (s : State) : Ordinary s (maskEvents s) := .of_same rfl

theorem toIdle_ordinary (s : State) : Ordinary s (toIdle s) := .of_same rfl

/-- A frame ends with the events masked and the transmitter disabled; what is on the wire stays (R235, R251, R313). -/
theorem frameAborted_ordinary (s : State) : Ordinary s (toIdle (txDisable (maskEvents s))) :=
  ((maskEvents_ordinary s).trans (txDisable_ordinary _)).trans (toIdle_ordinary _)

/-! ### The ring and the encoder -/

theorem ringWrite_ordinary (c : Word) (s : State) : (ringWrite c s).Leaves (Ordinary s) id := by
  by_cases hu : s.ring.used = s.params.ringCap
  · rw [ringWrite_full c hu]
    exact (raiseFault_ordinary _ _ _).from_same rfl
  · rw [ringWrite_ok c hu]
    exact ⟨rfl, .of_ring rfl rfl fun h => afterWrite_ringInv c h (lt_of_le_of_ne h.used_le hu)⟩

theorem ringAdvance_ordinary (n : Nat) (s : State) : (ringAdvance n s).Leaves (Ordinary s) id := by
  by_cases hn : n ≤ s.ring.used
  · rw [ringAdvance_ok hn]
    exact ⟨rfl, .of_ring rfl rfl fun h => afterAdvance_ringInv h hn⟩
  · rw [ringAdvance_fault (by omega)]
    exact raiseFault_ordinary _ _ _

theorem ringReset_ordinary (s : State) : (ringReset s).Leaves (Ordinary s) id := by
  cases hd : s.drvState with
  | idle =>
    rw [ringReset_ok hd]
    exact ⟨rfl, .of_ring rfl rfl fun h => afterReset_ringInv (Nat.zero_lt_of_lt h.ridx_lt)⟩
  | active =>
    rw [ringReset_fault hd]
    exact raiseFault_ordinary _ _ _

theorem emitSymbol_ordinary (b : BitSymbol) (s : State) : (emitSymbol b s).Leaves (Ordinary s) id := by
  unfold emitSymbol
  rcases tblRead_cases b s with ⟨c, h⟩ | ⟨k, h⟩ <;> rw [h]
  · exact ringWrite_ordinary _ s
  · exact raiseFault_ordinary _ _ _

theorem emitSymbols_ordinary (bs : List BitSymbol) (s : State) : (emitSymbols bs s).Leaves (Ordinary s) id := by
  induction bs generalizing s with
  | nil => exact .refl s
  | cons b bs ih => exact Res.Leaves.bind (emitSymbol_ordinary b s) fun t ht => ht.leaves_trans (ih t)

theorem emitValue_ordinary (v : Word) (s : State) : (emitValue v s).Leaves (Ordinary s) id :=
  Res.Leaves.bind (emitSymbols_ordinary _ s) fun _ ht =>
    (ht.trans (srcMore_ordinary _)).leaves_trans (Ordinary.leaves_from_same (emitSymbols_ordinary _ _) rfl)

theorem fillLoop_ordinary (n : Nat) (s : State) : (fillLoop n s).Leaves (Ordinary s) id := by
  induction n generalizing s with
  | zero => exact .refl s
  | succ n ih =>
    have hnext := srcNext_ordinary s
    simp only [fillLoop]
    split
    · split
      · exact hnext.leaves_trans (Res.Leaves.bind (emitValue_ordinary _ _) fun t ht => ht.leaves_trans (ih t))
      · exact hnext.trans (.of_same rfl)
    · exact .refl s

theorem encoderFill_ordinary (s : State) : (encoderFill s).Leaves (Ordinary s) id :=
  Ordinary.leaves_from_same (fillLoop_ordinary _ _) rfl

/-! ### The driver -/

theorem push_ordinary (c : Word) (s : State) : (push c s).Leaves (Ordinary s) id := by
  unfold push
  split
  · exact raiseFault_ordinary _ _ _
  · exact .of_same rfl

theorem pushChunk_ordinary (m j : Nat) (s : State) : (pushChunk m j s).Leaves (Ordinary s) id := by
  induction m generalizing j s with
  | zero => exact .refl s
  | succ m ih =>
    unfold pushChunk
    by_cases hj : j < s.ring.used
    · rw [ringPeek_ok hj]
      exact Res.Leaves.bind (push_ordinary _ s) fun t ht => ht.leaves_trans (ih _ t)
    · rw [ringPeek_fault (by omega)]
      exact raiseFault_ordinary _ _ _

theorem copyChunk_ordinary (m j : Nat) (s : State) : (copyChunk m j s).Leaves (Ordinary s) id := by
  induction m generalizing j s with
  | zero => exact .refl s
  | succ m ih =>
    unfold copyChunk
    by_cases hj : j < s.ring.used
    · rw [ringPeek_ok hj]
      exact Ordinary.leaves_from_same (ih _ _) rfl
    · rw [ringPeek_fault (by omega)]
      exact raiseFault_ordinary _ _ _

theorem driverService_ordinary (s : State) : (driverService s).Leaves (Ordinary s) id := by
  unfold driverService
  refine Res.Leaves.bind (pushChunk_ordinary _ _ s) fun t ht => ?_
  refine Res.Leaves.bind (ht.leaves_trans (ringAdvance_ordinary _ t)) fun u hu => ?_
  refine Res.Leaves.bind (hu.leaves_trans (Ordinary.leaves_from_same (encoderFill_ordinary _) rfl)) fun v hv => ?_
  split
  · exact hv.trans (.of_same rfl)
  · exact hv

theorem primeIntr_ordinary (s : State) : (primeIntr s).Leaves (Ordinary s) id := by
  unfold primeIntr
  refine Res.Leaves.bind (driverService_ordinary s) fun t ht => ?_
  dsimp only
  split
  · exact ht.trans (.of_same rfl)
  · exact ht.trans (.of_same rfl)

/-- Accepted codes leave `WIRE` as it is; of rejected ones the first few are appended (R311). -/
theorem txTransmit_ordinary (codes : List Word) (s : State) : Ordinary s (txTransmit codes s).2 := by
  rw [txTransmit_eq]
  split
  · exact .of_same rfl
  · exact ⟨rfl, List.prefix_append _ _, List.prefix_refl _, BitVec.and_self, fun h => h.congr rfl rfl⟩

theorem txAwait_ordinary (s : State) : Ordinary s (txAwait s).2 := by
  rw [txAwait_eq]
  split
  · exact .of_same rfl
  · exact .of_same rfl

theorem cqFinish_ordinary (rc : ResultCode) (e : ErrCode) (s : State) : Ordinary s (cqFinish rc e s) := .of_same rfl

theorem noteTimeout_ordinary (n : Nat) (s : State) : Ordinary s (noteTimeout n s) :=
  (recordError_ordinary _ _ _).from_same rfl

theorem transmitFailed_ordinary (n : Nat) (s : State) : Ordinary s (transmitFailed n s) :=
  ((recordError_ordinary _ _ _).trans (cqFinish_ordinary _ _ _)).from_same rfl

theorem cqSend_ordinary (s : State) : (cqSend s).Leaves (Ordinary s) id := by
  unfold cqSend
  split
  · exact cqFinish_ordinary _ _ s
  · refine Res.Leaves.bind (copyChunk_ordinary _ _ s) fun t ht => ?_
    dsimp only
    generalize hu : ({ t with cq := { t.cq with n := min s.params.maxChunk s.ring.used } } : State) = u
    have hr := (ht.trans (.of_same (t := u) (by rw [← hu]; rfl))).trans
      (txTransmit_ordinary (scratchRun u (min s.params.maxChunk s.ring.used)) u)
    split
    · exact hr.trans (.of_same rfl)
    · exact hr.trans (transmitFailed_ordinary _ _)

theorem advanceAndFill_ordinary (s : State) : (advanceAndFill s).Leaves (Ordinary s) id := by
  unfold advanceAndFill
  exact Res.Leaves.bind (ringAdvance_ordinary _ s) fun t ht =>
    ht.leaves_trans (Ordinary.leaves_from_same (encoderFill_ordinary _) rfl)

theorem cqAwait_ordinary (s : State) : (cqAwait s).Leaves (Ordinary s) id := by
  have hr := txAwait_ordinary s
  unfold cqAwait
  dsimp only
  split
  · exact Res.Leaves.bind (hr.leaves_trans (advanceAndFill_ordinary _)) fun t ht => ht.trans (.of_same rfl)
  · exact (hr.trans (noteTimeout_ordinary _ _)).trans (cqFinish_ordinary _ _ _)

theorem cqStep_ordinary (s : State) : (cqStep s).Leaves (Ordinary s) id := by
  unfold cqStep
  split
  · exact .refl s
  · exact cqSend_ordinary s
  · exact cqAwait_ordinary s

/-! ### The table and the frame -/

/-- A self-check adds to the log only (R155). -/
theorem validateTable_ordinary (h : Word) (s : State) : Ordinary s (validateTable h s).2 := by
  cases hf : findTable s h with
  | none => rw [validateTable_none hf]; exact recordError_ordinary _ _ _
  | some ws =>
    rw [validateTable_some hf]
    exact ⟨rfl, List.prefix_refl _, List.prefix_append _ _, BitVec.and_self, fun h => h.congr rfl rfl⟩

theorem frameCounters_ordinary (s : State) : Ordinary s (frameCounters s) := by
  unfold frameCounters
  split
  · exact .of_same rfl
  · exact .refl s

theorem frameReset_ordinary (s : State) : (frameReset s).Leaves (Ordinary s) id :=
  Res.Leaves.bind (ringReset_ordinary s) fun t ht =>
    (ht.trans (clearNotify_ordinary t)).trans (frameCounters_ordinary _)

theorem frameSetup_ordinary (s : State) : (frameSetup s).Leaves (Ordinary s) id := by
  unfold frameSetup
  refine Res.Leaves.bind (Ordinary.leaves_from_same (frameReset_ordinary _) rfl) fun t ht => ?_
  have hm := (ht.trans (srcFrameStart_ordinary t)).trans (srcMore_ordinary _)
  refine Res.Leaves.bind (hm.leaves_trans (Ordinary.leaves_from_same (emitSymbols_ordinary _ _) rfl)) fun u hu => ?_
  exact Res.Leaves.bind (hu.leaves_trans (encoderFill_ordinary u)) fun v hv => hv.trans (.of_same rfl)

theorem frameBegin_ordinary (s : State) : (frameBegin s).Leaves (Ordinary s) id := by
  unfold frameBegin
  refine Res.Leaves.bind (frameSetup_ordinary s) fun t ht => ?_
  split
  · exact Res.Leaves.bind (ht.leaves_trans (primeIntr_ordinary t)) fun u hu => hu.trans (.of_same rfl)
  · exact ht.trans (.of_same rfl)

end Sys2Proof.Machine
end

section
/-! PROOFS. What each instruction may write, over all states, and what follows for every step: who writes the control registers,
that the traces only grow, and that the ring property is kept. -/

namespace Sys2Proof.Machine

/-- What an instruction may do to the control registers (R36, R37, R43, R45, R361), and what every instruction keeps. -/
structure Effect (i : Instr) (s t : State) : Prop where
  params : t.params = s.params
  paused : t.paused ≠ s.paused → ∃ p, i = .pause p
  cfg : t.cfg ≠ s.cfg → i = .chInit ∧ s.chState = .reset
  table : t.tbl ≠ s.tbl ∨ t.tblOk ≠ s.tblOk → i = .xlatCfg ∨ (i = .chInit ∧ s.chState = .reset)
  channel : t.chState ≠ s.chState ∨ t.err.restartReq ≠ s.err.restartReq ∨ t.registry ≠ s.registry →
    (i = .chInit ∧ s.chState = .reset) ∨ (i = .chTeardown ∧ s.chState = .ready)
  advance : Advance s t

/-- Every instruction may do what is ordinary. -/
theorem Ordinary.effect {s t : State} (h : Ordinary s t) (i : Instr) : Effect i s t := by
  obtain ⟨hc, ha⟩ := h
  simp only [controlView, Prod.mk.injEq] at hc
  obtain ⟨hp, hcfg, htbl, hok, hch, hpa, hreg, hrr⟩ := hc
  exact ⟨hp, fun h => absurd hpa h, fun h => absurd hcfg h, fun h => h.elim (absurd htbl) (absurd hok),
    fun h => h.elim (absurd hch) fun h => h.elim (absurd hrr) (absurd hreg), ha⟩

theorem Ordinary.settle {r : Res State} {s t : State} (h : r.Leaves (Ordinary s) id) (ht : settle r = .next t) (i : Instr) :
    Effect i s t := Ordinary.effect (settle_next h ht) i

/-! ### Host commands -/

theorem reply_ordinary {s u : State} (h : Ordinary s u) (rc : ResultCode) (e : ErrCode) (r : Word) :
    (reply rc e r u).Leaves (Ordinary s) id := h.trans (.of_same rfl)

/-- The checks that start a host command: a fault in RESET, a reply in HALTED, else the command (R273, R287). -/
theorem whenReady_leaves {P : State → Prop} {opc : Word} {s : State} {body : Res State} (hp : ∀ t, Ordinary s t → P t)
    (hb : s.chState = .ready → body.Leaves P id) : (whenReady opc s body).Leaves P id := by
  unfold whenReady
  split
  · exact hp _ (raiseFault_ordinary _ _ s)
  · exact (reply_ordinary (.refl s) _ _ _).mono hp
  · rename_i hr; exact hb hr

theorem whenReady_ordinary {opc : Word} {s : State} {body : Res State} (hb : body.Leaves (Ordinary s) id) :
    (whenReady opc s body).Leaves (Ordinary s) id := whenReady_leaves (fun _ h => h) fun _ => hb

theorem drawWord_ordinary (s : State) : Ordinary s (drawWord s).2 := by
  rw [drawWord_env]; exact .of_same rfl

theorem bgWaitFirst_ordinary (s : State) : (bgWaitFirst s).Leaves (Ordinary s) id := by
  unfold bgWaitFirst
  split
  · exact reply_ordinary (.refl s) _ _ _
  · split
    · exact reply_ordinary (clearNotify_ordinary s) _ _ _
    · split
      · exact reply_ordinary (.refl s) _ _ _
      · exact .of_same rfl

theorem execXlatLkp_ordinary {b : BitVec 3} {s t : State} (h : execXlatLkp b s = .next t) : Ordinary s t := by
  refine settle_next (P := Ordinary s) ?_ h
  split
  · exact reply_ordinary (.refl s) _ _ _
  · split
    · exact raiseFault_ordinary _ _ s
    · rcases tblRead_cases _ s with ⟨c, he⟩ | ⟨k, he⟩ <;> rw [he]
      · exact reply_ordinary (.refl s) _ _ _
      · exact raiseFault_ordinary _ _ s

theorem ringPeek_ordinary (k : Nat) (s : State) :
    Res.Leaves (Ordinary s) id ((ringPeek k s).map fun c => answering [c] s) := by
  by_cases hk : k < s.ring.used
  · rw [ringPeek_ok hk]; exact .of_same rfl
  · rw [ringPeek_fault (by omega)]; exact raiseFault_ordinary _ _ s

theorem frameStart_ordinary (s : State) :
    (if s.paused then reply .rejPaused .none 0 s
      else if s.drvState = .active then reply .rejBusy .none 0 s
      else frameBegin s : Res State).Leaves (Ordinary s) id := by
  split
  · exact reply_ordinary (.refl s) _ _ _
  · split
    · exact reply_ordinary (.refl s) _ _ _
    · exact frameBegin_ordinary s

/-- An underrun is recorded and ends the frame (R235). -/
theorem execEvTxdone_ordinary {s t : State} (h : execEvTxdone s = .next t) : Ordinary s t := by
  cases h
  have hrec := (eventEntry_ordinary .txdone s).trans (recordError_ordinary .txCompleteUnderrun
    (BitVec.ofNat 32 (eventEntry .txdone s).ring.used) _)
  exact hrec.trans ((frameAborted_ordinary _).from_same rfl)

/-! ### The instructions that write control registers -/

/-- What `CH.INIT` keeps in RESET: the parameters, the pause flag, the ring, and that the traces grow. -/
structure SetUp (s t : State) : Prop where
  params : t.params = s.params
  paused : t.paused = s.paused
  advance : Advance s t

theorem SetUp.trans {s t u : State} (h : SetUp s t) (g : SetUp t u) : SetUp s u :=
  ⟨g.params.trans h.params, g.paused.trans h.paused, h.advance.trans g.advance⟩

theorem SetUp.effect {s t : State} (h : SetUp s t) (hr : s.chState = .reset) : Effect .chInit s t :=
  ⟨h.params, fun hp => absurd h.paused hp, fun _ => ⟨rfl, hr⟩, fun _ => .inr ⟨rfl, hr⟩, fun _ => .inl ⟨rfl, hr⟩, h.advance⟩

theorem configFail_setUp (info : Word) (s : State) : SetUp s (configFail info s) :=
  ⟨rfl, rfl, (recordError_ordinary .configurationError info s).advance.trans (.of_same rfl rfl rfl rfl rfl)⟩

theorem installTable_setUp (h : Word) (s : State) : SetUp s (installTable h s).2 := by
  rw [installTable_frame]
  exact ⟨rfl, rfl, .of_same rfl rfl rfl rfl rfl⟩

theorem finishInit_setUp (s : State) : SetUp s (finishInit s) := by
  have hv := (validateTable_ordinary s.cfg.tblHandle s).advance
  rw [finishInit_eq]
  exact ⟨rfl, rfl, List.prefix_refl _, hv.log, hv.fault, fun h => h.congr rfl rfl⟩

theorem checkAndInstall_setUp (s : State) : SetUp s (checkAndInstall s) := by
  have hi := installTable_setUp s.cfg.tblHandle s
  unfold checkAndInstall
  split
  · exact configFail_setUp _ s
  · split
    · rename_i heq; rw [heq] at hi; exact hi.trans (configFail_setUp _ _)
    · rename_i heq; rw [heq] at hi; exact hi.trans (finishInit_setUp _)

theorem latchConfig_setUp (d : Descriptor) (s : State) : SetUp s (latchConfig d s) :=
  ⟨rfl, rfl, .of_same rfl rfl rfl rfl rfl⟩

theorem channelInit_effect (s : State) : (channelInit s).Leaves (Effect .chInit s) id := by
  unfold channelInit
  split
  · exact (raiseFault_ordinary _ _ s).effect _
  · exact (reply_ordinary (.refl s) _ _ _).mono fun _ h => h.effect _
  · rename_i hr
    split
    · exact (configFail_setUp _ s).effect hr
    · exact ((latchConfig_setUp _ s).trans (checkAndInstall_setUp _)).effect hr

theorem teardown_effect {s : State} (hr : s.chState = .ready) :
    (reply .ok .none 0 (teardown s)).Leaves (Effect .chTeardown s) id := by
  rw [teardown_eq]
  exact ⟨rfl, fun h => absurd rfl h, fun h => absurd rfl h, fun h => h.elim (absurd rfl) (absurd rfl),
    fun _ => .inr ⟨rfl, hr⟩, .of_same rfl rfl rfl rfl rfl⟩

theorem pause_effect (p : Bool) (s : State) : (reply .ok .none 0 { s with paused := p }).Leaves (Effect (.pause p) s) id :=
  ⟨rfl, fun _ => ⟨p, rfl⟩, fun h => absurd rfl h, fun h => h.elim (absurd rfl) (absurd rfl),
    fun h => h.elim (absurd rfl) fun h => h.elim (absurd rfl) (absurd rfl), .of_same rfl rfl rfl rfl rfl⟩

theorem execXlatCfg_effect {s t : State} (h : execXlatCfg s = .next t) : Effect .xlatCfg s t := by
  cases h
  rw [installTable_frame]
  exact ⟨rfl, fun h => absurd rfl h, fun h => absurd rfl h, fun _ => .inl rfl,
    fun h => h.elim (absurd rfl) fun h => h.elim (absurd rfl) (absurd rfl), .of_same rfl rfl rfl rfl rfl⟩

/-! ### Every instruction -/

/-- Every instruction, in every state, keeps to its `Effect`. -/
theorem exec_effect {i : Instr} {s t : State} (h : exec i s = .next t) : Effect i s t := by
  cases i with
  | xlatCfg => exact execXlatCfg_effect h
  | xlatVal =>
    exact Ordinary.settle (whenReady_ordinary (reply_ordinary
      ((validateTable_ordinary _ s).trans (drawWord_ordinary _)) _ _ _)) h _
  | xlatLkp b => exact (execXlatLkp_ordinary h).effect _
  | ringWr => exact Ordinary.settle (ringWrite_ordinary _ s) h _
  | ringRst => exact Ordinary.settle (ringReset_ordinary s) h _
  | ringAvf => exact Ordinary.settle (whenReady_ordinary (reply_ordinary (.refl s) _ _ _)) h _
  | ringAvd => exact Ordinary.settle (whenReady_ordinary (reply_ordinary (.refl s) _ _ _)) h _
  | ringPeek k => exact Ordinary.settle (ringPeek_ordinary _ s) h _
  | ringAdv n => exact Ordinary.settle (ringAdvance_ordinary _ s) h _
  | encFill => exact Ordinary.settle (encoderFill_ordinary s) h _
  | bgWait => exact Ordinary.settle (whenReady_ordinary (bgWaitFirst_ordinary s)) h _
  | drvService => exact Ordinary.settle (driverService_ordinary s) h _
  | drvCqstep => exact Ordinary.settle (cqStep_ordinary s) h _
  | chInit => exact settle_next (channelInit_effect s) h
  | frameStart => exact Ordinary.settle (whenReady_ordinary (frameStart_ordinary s)) h _
  | pause p => exact settle_next (whenReady_leaves (fun _ ho => ho.effect _) fun _ => pause_effect p s) h
  | status n => exact Ordinary.settle (reply_ordinary (.refl s) _ _ _) h _
  | chTeardown => exact settle_next (whenReady_leaves (fun _ ho => ho.effect _) fun hr => teardown_effect hr) h
  | evThr =>
    exact Ordinary.settle (Res.Leaves.map
      ((eventEntry_ordinary .thr s).leaves_trans (driverService_ordinary _)) fun _ hu => hu) h _
  | evTxdone => exact (execEvTxdone_ordinary h).effect _
  | srcMore => cases h; exact ((srcMore_ordinary s).trans (answering_ordinary _ _)).effect _
  | srcNext => cases h; exact ((srcNext_ordinary s).trans (answering_ordinary _ _)).effect _
  | srcFramestart => cases h; exact (srcFrameStart_ordinary s).effect _
  | txConfigure => cases h; exact (txConfigure_ordinary s).effect _
  | txTransmit => cases h; exact ((txTransmit_ordinary _ s).trans (answering_ordinary _ _)).effect _
  | txAwait => cases h; exact ((txAwait_ordinary s).trans (answering_ordinary _ _)).effect _
  | txDisable => cases h; exact (txDisable_ordinary s).effect _
  | txTeardown => cases h; exact (txTeardown_ordinary s).effect _

/-- Settles O53: it is what `Effect` says of the control registers. -/
theorem onlyTheseWrite : Obligations.OnlyTheseWrite := by
  unfold Obligations.OnlyTheseWrite
  intro i s t h
  obtain ⟨hp, hpa, hc, ht, hch, -⟩ := exec_effect h
  exact ⟨hp, hpa, hc, ht, hch⟩

/-! ### Every step -/

theorem endWait_ordinary (k : Nat) (rc : ResultCode) (e : ErrCode) (s : State) : Ordinary s (endWait k rc e s) :=
  (modPort_ordinary _ _ s).trans (modPort_ordinary _ _ _)

theorem pacerStep_ordinary (k : Nat) (s : State) : Ordinary s (pacerStep k s) := by
  unfold pacerStep
  split
  · exact endWait_ordinary _ _ _ s
  · split
    · exact (clearNotify_ordinary s).trans (endWait_ordinary _ _ _ _)
    · split
      · exact endWait_ordinary _ _ _ s
      · exact ((noteTimeout_ordinary _ s).trans (frameAborted_ordinary _)).trans (endWait_ordinary _ _ _ _)

/-- A shift appends one code to the wire (R246). -/
theorem hwtxShift_ordinary (s : State) : Ordinary s (hwtxShift s) := by
  unfold hwtxShift
  split
  · exact .refl s
  · exact ⟨rfl, List.prefix_append _ _, List.prefix_refl _, BitVec.and_self, fun h => h.congr rfl rfl⟩

/-- Every move but a restart lets the traces grow and keeps the ring property. -/
theorem Move.advance {s t : State} (m : Move s t) :
    (∃ e as, s.env.hostq = .restart :: as ∧ t = State.resetWith s.params e) ∨ Advance s t := by
  cases m with
  | restart e first => exact .inl ⟨e, _, first, rfl⟩
  | environment e => exact .inr (env_ordinary e s).advance
  | writeArg e k v => exact .inr ((env_ordinary e s).trans (modPort_ordinary _ _ _)).advance
  | writeCmd e w live port idle => exact .inr ((env_ordinary e s).trans (modPort_ordinary _ _ _)).advance
  | command live held issued run => exact .inr ((takeCommand_ordinary _ s).advance.trans (exec_effect run).advance)
  | badCommand held => exact .inr ((takeCommand_ordinary _ s).trans (raiseFault_ordinary _ _ _)).advance
  | threshold live ready intr armed run => exact .inr (exec_effect run).advance
  | txdone live ready intr run => exact .inr (exec_effect run).advance
  | loop live ready run => exact .inr (exec_effect run).advance
  | pacer live waits => exact .inr (pacerStep_ordinary _ s).advance
  | shift live => exact .inr (hwtxShift_ordinary s).advance
  | invocation held run => exact .inr ((takeInvocation_ordinary s).advance.trans (exec_effect run).advance)
  | badInvocation held => exact .inr ((takeInvocation_ordinary s).trans (raiseFault_ordinary _ _ _)).advance

/-- Every step but a restart lets the traces grow and keeps the ring property (R47, R50, R52, R180). -/
theorem step_advance {s t : State} (h : step s = .next t) :
    (∃ e as, s.env.hostq = .restart :: as ∧ t = State.resetWith s.params e) ∨ Advance s t := by
  rcases step_move h with rfl | m
  · exact .inr (Ordinary.refl t).advance
  · have hs : Ordinary s (advanceSchedule s) := env_ordinary _ s
    rcases m.advance with hr | ha
    · exact .inl hr
    · exact .inr (hs.advance.trans ha)

/-- Settles O54: the one step after which a trace may be shorter is a restart. -/
theorem tracesOnlyGrow : Obligations.TracesOnlyGrow := by
  unfold Obligations.TracesOnlyGrow
  intro s t h hq
  rcases step_advance h with ⟨-, as, hr, -⟩ | ha
  · exact absurd hr (hq as)
  · exact ⟨ha.wire, ha.log, ha.fault⟩

/-- Settles O56: a restart empties the ring, and every other step keeps its property. -/
theorem stepKeepsRing : Obligations.StepKeepsRing := by
  unfold Obligations.StepKeepsRing
  intro s t hs h
  rcases step_advance h with ⟨e, -, -, rfl⟩ | ha
  · exact resetWith_ringInv e (Nat.zero_lt_of_lt hs.ridx_lt)
  · exact ha.ring hs

end Sys2Proof.Machine
end

section
/-! PROOFS. The encoding (30_encoding.md): decoding and encoding are inverse of each other on the well-formed instructions, and the
words of R128 are what a host may write. -/

namespace Sys2Proof

/-! ### The fields of a command word -/

@[simp] theorem fieldOpc_commandWord (imm : BitVec 16) (sub opc : BitVec 8) : fieldOpc (commandWord imm sub opc) = opc :=
  BitVec.extractLsb'_append_eq_right

@[simp] theorem fieldSub_commandWord (imm : BitVec 16) (sub opc : BitVec 8) : fieldSub (commandWord imm sub opc) = sub :=
  (BitVec.extractLsb'_append_eq_of_le (Nat.le_refl 8)).trans BitVec.extractLsb'_append_eq_right

@[simp] theorem fieldImm_commandWord (imm : BitVec 16) (sub opc : BitVec 8) : fieldImm (commandWord imm sub opc) = imm :=
  (BitVec.extractLsb'_append_eq_of_le (by decide)).trans BitVec.extractLsb'_append_eq_left

/-- The number a command word is (R132). -/
theorem commandWord_toNat (imm : BitVec 16) (sub opc : BitVec 8) :
    (commandWord imm sub opc).toNat = opc.toNat + 0x100 * sub.toNat + 0x10000 * imm.toNat := by
  have hsub := sub.isLt
  have hopc := opc.isLt
  simp only [commandWord, BitVec.toNat_append]
  rw [← Nat.shiftLeft_add_eq_or_of_lt hsub, ← Nat.shiftLeft_add_eq_or_of_lt hopc, Nat.shiftLeft_eq, Nat.shiftLeft_eq]
  omega

/-- A field whose bits from n up are 0 is its low n bits. -/
theorem zero_append_low {m n : Nat} {x : BitVec (m + n)} (h : x.extractLsb' n m = 0) : 0#m ++ x.extractLsb' 0 n = x := by
  calc 0#m ++ x.extractLsb' 0 n
      = x.extractLsb' n m ++ x.extractLsb' 0 n := by rw [h]; rfl
    _ = x := BitVec.extractLsb'_append_extractLsb'

/-- A bit, as a field of one bit. -/
theorem ofBool_getLsbD {w : Nat} (x : BitVec w) (k : Nat) : BitVec.ofBool (x.getLsbD k) = x.extractLsb' k 1 := by
  ext i hi
  obtain rfl : i = 0 := by omega
  simp

theorem zero_append_toNat (m : Nat) {n : Nat} (x : BitVec n) : (0#m ++ x).toNat = x.toNat := by
  simp [BitVec.toNat_append]

/-! ### Encoded, then decoded -/

/-- Decoding reads back every well-formed instruction. The operand fields of `RING.PEEK` and `RING.ADV` take any value; the other
operands have a few values each. -/
theorem decode_encode {i : Instr} (h : i.wf = true) : decode (encode i) = some i := by
  cases i with
  | ringPeek k => simp [decode, encode, decodeCmd]
  | ringAdv n => simp [decode, encode, decodeCmd]
  | xlatLkp s => revert s; decide
  | pause p => revert p; decide
  | status n => revert n; decide
  | _ => decide

/-- Settles O3: one direction of the correspondence of codes and well-formed instructions. -/
theorem decodeReadsEncode : Obligations.DecodeReadsEncode := by
  unfold Obligations.DecodeReadsEncode
  exact fun i h => decode_encode h

/-! ### Decoded, then encoded -/

/-- Whatever instruction a decoder's answer holds is well-formed and is encoded as c. -/
def Spells (c : Code) (x : Option Instr) : Prop := ∀ i, x = some i → i.wf = true ∧ encode i = c

theorem Spells.none (c : Code) : Spells c none := nofun

theorem Spells.some {c : Code} {i : Instr} (hw : i.wf = true) (he : encode i = c) : Spells c (some i) := by
  rintro _ ⟨⟩
  exact ⟨hw, he⟩

/-- A decoder that tests p answers what is encoded as c if each of its two arms does. -/
theorem Spells.ite {c : Code} {p : Prop} [Decidable p] {x y : Option Instr} (hx : p → Spells c x) (hy : Spells c y) :
    Spells c (if p then x else y) := by
  by_cases hp : p
  · rw [if_pos hp]; exact hx hp
  · rw [if_neg hp]; exact hy

/-- A row of the table with no operand field: its word has `SUB` and `IMM16` 0 (R113, R114). -/
theorem Spells.plain {w : Word} {opc : BitVec 8} {j : Instr} (hw : j.wf = true) (he : encode j = ⟨.cmd, commandWord 0 0 opc⟩)
    (ho : fieldOpc w = opc) : Spells ⟨.cmd, w⟩ (plainCommand (fieldSub w) (fieldImm w) j) := by
  intro i hi
  obtain ⟨rfl, hsub, himm⟩ := plainCommand_some hi
  exact ⟨hw, by rw [he, ← commandWord_fields w, ho, hsub, himm]⟩

/-- A row of the table with an operand field, decoded where the bits beside the operand are as the row has them (R113, R114). -/
theorem Spells.operand {w : Word} {opc sub : BitVec 8} {imm : BitVec 16} {p : Prop} [Decidable p] {j : Instr}
    (he : encode j = ⟨.cmd, commandWord imm sub opc⟩) (ho : fieldOpc w = opc)
    (hp : p → j.wf = true ∧ sub = fieldSub w ∧ imm = fieldImm w) :
    Spells ⟨.cmd, w⟩ (if p then Option.some j else Option.none) := by
  refine .ite (fun h => ?_) (.none _)
  obtain ⟨hw, rfl, rfl⟩ := hp h
  exact .some hw (by rw [he, ← ho, commandWord_fields])

/-- The decoder of commands row by row (R112). -/
theorem decodeCmd_spells (w : Word) : Spells ⟨.cmd, w⟩ (decodeCmd w) := by
  unfold decodeCmd
  refine .ite (.plain rfl rfl) <| .ite (.plain rfl rfl) <| .ite (fun ho => .operand rfl ho ?lookup) <|
    .ite (.plain rfl rfl) <| .ite (.plain rfl rfl) <| .ite (.plain rfl rfl) <| .ite (.plain rfl rfl) <|
    .ite (fun ho => .operand rfl ho fun hs => ⟨rfl, hs.symm, rfl⟩) <|
    .ite (fun ho => .operand rfl ho fun hs => ⟨rfl, hs.symm, rfl⟩) <|
    .ite (.plain rfl rfl) <| .ite (.plain rfl rfl) <| .ite (.plain rfl rfl) <| .ite (.plain rfl rfl) <|
    .ite (.plain rfl rfl) <| .ite (.plain rfl rfl) <| .ite (fun ho => .operand rfl ho ?pause) <|
    .ite (fun ho => .operand rfl ho ?status) <| .ite (.plain rfl rfl) <| .none _
  case lookup =>
    rintro ⟨hhigh, htag, himm⟩
    exact ⟨bne_iff_ne.2 htag, zero_append_low hhigh, himm.symm⟩
  case pause =>
    rintro ⟨hhigh, himm⟩
    exact ⟨rfl, by rw [ofBool_getLsbD]; exact zero_append_low hhigh, himm.symm⟩
  case status =>
    rintro ⟨hsub, hhigh⟩
    exact ⟨rfl, hsub.symm, zero_append_low hhigh⟩

/-- The event numbers (R130). -/
theorem decodeEv_spells (w : Word) : Spells ⟨.ev, w⟩ (decodeEv w) :=
  .ite (fun h => .some rfl (h ▸ rfl)) <| .ite (fun h => .some rfl (h ▸ rfl)) <| .none _

/-- The call ids (R131). -/
theorem decodeXc_spells (w : Word) : Spells ⟨.xc, w⟩ (decodeXc w) :=
  .ite (fun h => .some rfl (h ▸ rfl)) <| .ite (fun h => .some rfl (h ▸ rfl)) <| .ite (fun h => .some rfl (h ▸ rfl)) <|
    .ite (fun h => .some rfl (h ▸ rfl)) <| .ite (fun h => .some rfl (h ▸ rfl)) <| .ite (fun h => .some rfl (h ▸ rfl)) <|
    .ite (fun h => .some rfl (h ▸ rfl)) <| .ite (fun h => .some rfl (h ▸ rfl)) <| .none _

theorem decode_spells (c : Code) : Spells c (decode c) := by
  obtain ⟨fmt, w⟩ := c
  cases fmt with
  | cmd => exact decodeCmd_spells w
  | ev => exact decodeEv_spells w
  | xc => exact decodeXc_spells w

/-- The codes that decode are the encodings of the well-formed instructions. -/
theorem decode_eq_some_iff {c : Code} {i : Instr} : decode c = some i ↔ i.wf = true ∧ encode i = c := by
  refine ⟨decode_spells c i, ?_⟩
  rintro ⟨hw, rfl⟩
  exact decode_encode hw

/-- Settles O4: the other direction. -/
theorem encodeGivesDecodedWord : Obligations.EncodeGivesDecodedWord := by
  unfold Obligations.EncodeGivesDecodedWord
  exact fun c i h => decode_eq_some_iff.1 h

/-! ### The words of a host -/

/-- The words a host may write are the encodings of the well-formed host commands (R128). -/
theorem decodeHost_eq_some_iff {w : Word} {i : Instr} :
    decodeHost w = some i ↔ i.hostIssued = true ∧ i.wf = true ∧ encode i = ⟨.cmd, w⟩ := by
  have hdec : decodeCmd w = some i ↔ i.wf = true ∧ encode i = ⟨.cmd, w⟩ := decode_eq_some_iff (c := ⟨.cmd, w⟩)
  have hhost : decodeHost w = (decodeCmd w).filter Instr.hostIssued := by
    unfold decodeHost
    cases decodeCmd w <;> rfl
  rw [hhost, Option.filter_eq_some_iff, hdec, and_comm]

theorem commandWord_eq_iff {w : Word} {imm : BitVec 16} {sub opc : BitVec 8} :
    commandWord imm sub opc = w ↔ w.toNat = opc.toNat + 0x100 * sub.toNat + 0x10000 * imm.toNat := by
  rw [← commandWord_toNat, BitVec.toNat_inj, eq_comm]

/-- The number that a host command's word is (R128, R132). -/
theorem decodeHost_iff_toNat {w : Word} {i : Instr} {imm : BitVec 16} {sub opc : BitVec 8} (hh : i.hostIssued = true)
    (he : encode i = ⟨.cmd, commandWord imm sub opc⟩) :
    decodeHost w = some i ↔ i.wf = true ∧ w.toNat = opc.toNat + 0x100 * sub.toNat + 0x10000 * imm.toNat := by
  rw [decodeHost_eq_some_iff, he, Code.mk.injEq, commandWord_eq_iff]
  exact ⟨fun ⟨_, hw, _, hn⟩ => ⟨hw, hn⟩, fun ⟨hw, hn⟩ => ⟨hh, hw, rfl, hn⟩⟩

/-- No host may write an internal operation, an event or a call (R117). -/
theorem decodeHost_ne {i : Instr} (hh : i.hostIssued = false) (w : Word) : decodeHost w ≠ some i := by
  intro h
  rw [decodeHost_eq_some_iff, hh] at h
  exact Bool.false_ne_true h.1

theorem tagIsSymbol_iff (t : BitVec 3) : tagIsSymbol t = true ↔ t.toNat ≤ 6 := by
  revert t; decide

end Sys2Proof
end

section
/-! PROOFS. The step of SEQ on the word in its port and the step of the rule-level latch (log 6), what follows
of the words a host may write, the words written out in the encoding chapter, and PulseCodes. -/

namespace Sys2Proof.Machine

/-! ### SEQ and the rule-level latch -/

/-- SEQ's step on a word that spells a host command (R111). -/
theorem seqStep_decoded {s : State} {k : Nat} {w : Word} {i : Instr} (hc : (portOf s k).cmd = some w)
    (hd : decodeHost w = some i) : seqStep k s = exec i (takeCommand k s) := by
  simp only [seqStep, hc, hd]

/-- SEQ's step on any other word (R128, R333). -/
theorem seqStep_undecoded {s : State} {k : Nat} {w : Word} (hc : (portOf s k).cmd = some w) (hd : decodeHost w = none) :
    seqStep k s = .next (faulted 0x10 9 w (takeCommand k s)) := by
  simp only [seqStep, hc, hd]
  rfl

theorem takeCommand_advanceSchedule (k : Nat) (s : State) : takeCommand k (advanceSchedule s) = commandTaken k s := rfl

/-- With SEQ of port k lined up and a word in `CMD[k]`, a step is SEQ's (R90, R111). -/
theorem step_seq {s : State} {k : Nat} {w : Word} (hl : Lined (.seq k) s) (hf : s.err.fault = 0)
    (hc : (portOf s k).cmd = some w) : step s = seqStep k (advanceSchedule s) := by
  obtain ⟨hp, rest, hs⟩ := hl
  have he : enabled (.seq k) s = true := by simp [enabled, seqEnabled, notFaulted_iff, hf, hc]
  exact machineStep_lined hp hs he

/-- The rule-level latch runs the operation its word decodes to (log 6). -/
theorem ruleStep_decoded {s : State} {c : Code} {i : Instr} (hv : s.seq.invoke = some c) (hd : decode c = some i) :
    ruleStep s = exec i (takeInvocation s) := by
  simp only [ruleStep, hv, hd]

theorem takeInvocation_advanceSchedule (s : State) : takeInvocation (advanceSchedule s) = invocationTaken s := rfl

/-- With the rule-level latch lined up and holding a code, a step is the latch's (log 6). -/
theorem step_rule {s : State} {c : Code} (hl : Lined .rule s) (hf : s.err.fault = 0) (hv : s.seq.invoke = some c) :
    step s = ruleStep (advanceSchedule s) := by
  obtain ⟨hp, rest, hs⟩ := hl
  have he : enabled .rule s = true := by simp [enabled, ruleEnabled, notFaulted_iff, hf, hv]
  exact machineStep_lined hp hs he

/-- Settles O5: the words by the number each one is, and the fault by SEQ's step. -/
theorem hostWordsDecodeOrFault : Obligations.HostWordsDecodeOrFault := by
  unfold Obligations.HostWordsDecodeOrFault
  refine ⟨fun w i => ?_, fun s k w hl hf hc hd => by
    rw [step_seq hl hf hc, seqStep_undecoded (s := advanceSchedule s) hc hd, takeCommand_advanceSchedule]⟩
  cases i with
  | xlatLkp t => rw [decodeHost_iff_toNat rfl rfl, zero_append_toNat 5 t]; simp [Instr.wf, tagIsSymbol_iff]
  | pause p => rw [decodeHost_iff_toNat rfl rfl, zero_append_toNat 7 (BitVec.ofBool p)]; simp [Instr.wf]
  | status n => rw [decodeHost_iff_toNat rfl rfl, zero_append_toNat 13 n]; simp [Instr.wf]
  | xlatVal | ringAvf | ringAvd | bgWait | chInit | frameStart | chTeardown =>
    rw [decodeHost_iff_toNat rfl rfl]; simp [Instr.wf]
  | _ => exact iff_false_intro (decodeHost_ne rfl w)

/-- Settles O6: the step is SEQ's, and its state is the one that took the word. -/
theorem stepRunsHostCommand : Obligations.StepRunsHostCommand := by
  unfold Obligations.StepRunsHostCommand
  intro s k w i hl hf hc hd
  rw [step_seq hl hf hc, seqStep_decoded (s := advanceSchedule s) hc hd, takeCommand_advanceSchedule]

/-- Settles O8: the step is the latch's, and its state is the one with the latch emptied. -/
theorem stepRunsInvocation : Obligations.StepRunsInvocation := by
  unfold Obligations.StepRunsInvocation
  intro s c i hl hf hv hd
  rw [step_rule hl hf hv, ruleStep_decoded (s := advanceSchedule s) hv hd, takeInvocation_advanceSchedule]

/-! ### Words written out -/

/-- Settles O1: what the assembler lists, with the encoder's words evaluated. -/
theorem pseudoInstructionsExpand : Obligations.PseudoInstructionsExpand := by
  unfold Obligations.PseudoInstructionsExpand
  refine ⟨by decide, by decide, fun h => ?_, fun h => ?_, by decide, by decide, ?checks⟩
  · rw [Pseudo.expand, show (encode .xlatVal).word = 0x00000011#32 by decide]
  · rw [Pseudo.expand, show (encode .chInit).word = 0x00000050#32 by decide]
  case checks => decide

/-- Settles O2: the decoder evaluated on each word. -/
theorem wordsDecode : Obligations.WordsDecode := by
  unfold Obligations.WordsDecode
  decide

/-! ### The fields and bytes of a PulseCode -/

/-- A code is its four fields, from the top bit down (R120). -/
theorem pulseCode_fields (c : Word) : pulseCode (pulseLvl1 c) (pulseDur1 c) (pulseLvl0 c) (pulseDur0 c) = c := by
  have high : c.extractLsb' 31 1 ++ c.extractLsb' 16 15 = c.extractLsb' 16 16 :=
    BitVec.extractLsb'_append_extractLsb'_eq_extractLsb' rfl
  have upper : c.extractLsb' 16 16 ++ c.extractLsb' 15 1 = c.extractLsb' 15 17 :=
    BitVec.extractLsb'_append_extractLsb'_eq_extractLsb' rfl
  unfold pulseCode pulseLvl1 pulseDur1 pulseLvl0 pulseDur0
  rw [ofBool_getLsbD, ofBool_getLsbD, high, upper]
  exact BitVec.extractLsb'_append_extractLsb'

section
variable (l1 l0 : Bool) (d1 d0 : BitVec 15)

@[simp] theorem pulseDur0_pulseCode : pulseDur0 (pulseCode l1 d1 l0 d0) = d0 := BitVec.extractLsb'_append_eq_right

@[simp] theorem pulseLvl0_pulseCode : pulseLvl0 (pulseCode l1 d1 l0 d0) = l0 := by
  simp only [pulseLvl0, pulseCode, BitVec.getLsbD_append]
  simp

@[simp] theorem pulseDur1_pulseCode : pulseDur1 (pulseCode l1 d1 l0 d0) = d1 := by
  unfold pulseDur1 pulseCode
  rw [BitVec.extractLsb'_append_eq_of_le (by decide), BitVec.extractLsb'_append_eq_of_le (by decide),
    BitVec.extractLsb'_append_eq_right]

@[simp] theorem pulseLvl1_pulseCode : pulseLvl1 (pulseCode l1 d1 l0 d0) = l1 := by
  simp only [pulseLvl1, pulseCode, BitVec.getLsbD_append]
  simp

end

/-- Byte k of a code (R84). -/
theorem pulseBytes_getElem? (c : Word) {k : Nat} (hk : k < 4) : (pulseBytes c)[k]? = some (c.extractLsb' (8 * k) 8) := by
  interval_cases k <;> rfl

/-- The byte from bit 8k up, as a digit in base 256. -/
theorem extractLsb'_byte (c : Word) (k : Nat) : c.extractLsb' (8 * k) 8 = BitVec.ofNat 8 (c.toNat / 256 ^ k) := by
  rw [BitVec.extractLsb', Nat.shiftRight_eq_div_pow, Nat.pow_mul]

/-- Settles O60: a code's fields split it, and its bytes are its digits in base 256. -/
theorem pulseCodeFields : Obligations.PulseCodeFields := by
  unfold Obligations.PulseCodeFields
  refine fun c => ⟨pulseCode_fields c, fun l1 d1 l0 d0 => by simp, rfl, fun k hk => ?_⟩
  rw [pulseBytes_getElem? c hk, extractLsb'_byte]

end Sys2Proof.Machine
end

section
/-! PROOFS. The translation table (41_translation_table.md): the required symbols, `XLAT.CFG` with each of its answers, the
self-check against the list just installed, and the lookup of one symbol. -/

namespace Sys2Proof.Machine

/-! ### The required symbols (R151) -/

/-- Settles O17: membership, symbol by symbol. -/
theorem requiredSymbols : Obligations.RequiredSymbols := by
  unfold Obligations.RequiredSymbols
  intro c b
  rw [mem_required]
  cases b <;> simp

/-- `REQ(cfg)` stands in increasing tag order: it leaves out symbols of a list that does. -/
theorem required_sorted (c : Cfg) : c.required.Pairwise fun b d => b.tag < d.tag := by
  have optional (p : Prop) [Decidable p] (b : BitSymbol) : (if p then [b] else []).Sublist [b] := by
    split
    · exact .refl _
    · exact List.nil_sublist _
  have hsub : c.required.Sublist ([.zero, .one] ++ [.stop] ++ [.ifg] ++ [.frameStart] ++ [.eof]) := by
    unfold Cfg.required
    exact (((List.Sublist.refl _).append (optional _ _)).append (optional _ _)).append (optional _ _)
      |>.append (optional _ _)
  exact List.Pairwise.sublist hsub (by decide)

theorem missingSymbol_eq_none {c : Cfg} {t : Table} :
    missingSymbol c t = none ↔ ∀ b ∈ c.required, (t.get b).valid = true := by
  simp [missingSymbol]

/-- The missing symbol is the required one of least tag that has no valid entry (R150). -/
theorem missingSymbol_eq_some {c : Cfg} {t : Table} {b : BitSymbol} (h : missingSymbol c t = some b) :
    b ∈ c.required ∧ (t.get b).valid = false ∧ ∀ d ∈ c.required, d.tag < b.tag → (t.get d).valid = true := by
  obtain ⟨hb, before, after, hc, hbefore⟩ := List.find?_eq_some_iff_append.1 h
  have hsorted := required_sorted c
  rw [hc] at hsorted ⊢
  obtain ⟨-, hsuffix, -⟩ := List.pairwise_append.1 hsorted
  refine ⟨by simp, by simpa using hb, fun d hd hlt => ?_⟩
  rcases List.mem_append.1 hd with hd | hd
  · simpa using hbefore d hd
  · rcases List.mem_cons.1 hd with rfl | hd
    · exact absurd hlt (BitVec.lt_irrefl _)
    · exact absurd hlt (BitVec.lt_asymm (List.rel_of_pairwise_cons hsuffix hd))

/-! ### The last record of a symbol (R152) -/

theorem lastRecord_succ (h : Word) (ws : List Word) (n : Nat) (b : BitSymbol) :
    lastRecord h ws (n + 1) b = if recordTag h ws n = b.tag then some n else lastRecord h ws n b := by
  unfold lastRecord
  rw [List.range_succ, List.filter_append]
  by_cases ht : recordTag h ws n = b.tag <;> simp [ht]

theorem lastRecord_eq_none {h : Word} {ws : List Word} {n : Nat} {b : BitSymbol} :
    lastRecord h ws n b = none ↔ ∀ j < n, recordTag h ws j ≠ b.tag := by
  simp [lastRecord]

theorem lastRecord_eq_some {h : Word} {ws : List Word} {n j : Nat} {b : BitSymbol} :
    lastRecord h ws n b = some j ↔
      j < n ∧ recordTag h ws j = b.tag ∧ ∀ i, j < i → i < n → recordTag h ws i ≠ b.tag := by
  induction n with
  | zero => simp [lastRecord]
  | succ n ih =>
    rw [lastRecord_succ]
    by_cases ht : recordTag h ws n = b.tag
    · rw [if_pos ht, Option.some_inj]
      refine ⟨by rintro rfl; exact ⟨by omega, ht, by omega⟩, fun ⟨hj, _, hlast⟩ => ?_⟩
      by_contra hne
      exact hlast n (by omega) (by omega) ht
    · rw [if_neg ht, ih]
      refine ⟨fun ⟨hj, hb, hlast⟩ => ⟨by omega, hb, fun i hi hn => ?_⟩, fun ⟨hj, hb, hlast⟩ => ?_⟩
      · rcases Nat.lt_succ_iff_lt_or_eq.1 hn with hn | rfl
        · exact hlast i hi hn
        · exact ht
      · have hne : j ≠ n := by rintro rfl; exact ht hb
        exact ⟨by omega, hb, fun i hi hn => hlast i hi (by omega)⟩

/-! ### The answers of the install (R150) -/

/-- A small number beside a tag, as one number. -/
theorem or_tag_eq (k t : BitVec 8) :
    k.setWidth 32 ||| (t.setWidth 32 <<< 8) = BitVec.ofNat 32 (k.toNat + 0x100 * t.toNat) := by
  have hinfo := mismatchInfo_eq t.toNat k
  rwa [mismatchInfo, BitVec.ofNat_toNat, BitVec.or_comm, Nat.add_comm] at hinfo

section
variable {h : Word} {ws : List Word} {s : State}

/-- Whatever the answer, the table is the one with the listed records installed. -/
theorem installTable_tbl (hf : findTable s h = some ws) :
    (installTable h s).2.tbl = installAll h ws s.tbl (List.range (listedCount h ws s.params.maxTableEntries)) := by
  rw [installTable_some hf]
  split
  · rfl
  · split
    · split <;> rfl
    · rfl

theorem installTable_get (hf : findTable s h = some ws) (b : BitSymbol) :
    (installTable h s).2.tbl.get b =
      match lastRecord h ws (listedCount h ws s.params.maxTableEntries) b with
      | some j => { valid := true, code := recordCode h ws j }
      | none => s.tbl.get b := by
  rw [installTable_tbl hf]
  exact installAll_get h ws s.tbl _ b

/-- A list that does not end. -/
theorem installTable_endless (hf : findTable s h = some ws)
    (hn : listedCount h ws s.params.maxTableEntries = s.params.maxTableEntries) :
    (installTable h s).1 = some 0x00000001 := by
  rw [installTable_some hf, if_pos hn]

/-- A list that ends at a malformed tag. -/
theorem installTable_malformed (hf : findTable s h = some ws)
    (hn : listedCount h ws s.params.maxTableEntries ≠ s.params.maxTableEntries)
    (ht : recordTag h ws (listedCount h ws s.params.maxTableEntries) ≠ listEndTag) :
    (installTable h s).1 =
      some (BitVec.ofNat 32 (2 + 0x100 * (recordTag h ws (listedCount h ws s.params.maxTableEntries)).toNat)) := by
  rw [installTable_some hf, if_neg hn, if_neg ht]
  exact congrArg some (or_tag_eq 2 _)

/-- A list that ends at the sentinel: what is left to answer is the first required symbol that is missing. -/
theorem installTable_ended (hf : findTable s h = some ws)
    (hn : listedCount h ws s.params.maxTableEntries ≠ s.params.maxTableEntries)
    (ht : recordTag h ws (listedCount h ws s.params.maxTableEntries) = listEndTag) :
    (installTable h s).1 =
      (missingSymbol s.cfg (installTable h s).2.tbl).map fun b => BitVec.ofNat 32 (3 + 0x100 * b.tag.toNat) := by
  rw [installTable_tbl hf, installTable_some hf, if_neg hn, if_pos ht]
  generalize missingSymbol s.cfg _ = m
  cases m with
  | none => rfl
  | some b => exact congrArg some (or_tag_eq 3 b.tag)

/-- Only a list that ends in time, at the sentinel, is installed with success. -/
theorem installTable_success_ends (hf : findTable s h = some ws) (hi : (installTable h s).1 = none) :
    listedCount h ws s.params.maxTableEntries < s.params.maxTableEntries ∧
      recordTag h ws (listedCount h ws s.params.maxTableEntries) = listEndTag := by
  have hn : listedCount h ws s.params.maxTableEntries ≠ s.params.maxTableEntries := fun hn => by
    rw [installTable_endless hf hn] at hi; cases hi
  refine ⟨lt_of_le_of_ne (listedCount_le _ _ _) hn, ?_⟩
  by_contra ht
  rw [installTable_malformed hf hn ht] at hi; cases hi

end

/-! ### XLAT.CFG (R150, R152) -/

theorem exec_xlatCfg_success {s : State} (hi : (installTable s.seq.opnd s).1 = none) :
    exec .xlatCfg s = .next (answering [0] (installTable s.seq.opnd s).2) := by
  change execXlatCfg s = _
  unfold execXlatCfg; rw [hi]

theorem exec_xlatCfg_fail {s : State} {info : Word} (hi : (installTable s.seq.opnd s).1 = some info) :
    exec .xlatCfg s = .next (answering [1, info] (installTable s.seq.opnd s).2) := by
  change execXlatCfg s = _
  unfold execXlatCfg; rw [hi]

/-- The answer 0 is SUCCESS, and the state is then the one the install left. -/
theorem installed_of_answer {s t : State} (he : exec .xlatCfg s = .next t) (ha : t.seq.answer = [0]) :
    (installTable s.seq.opnd s).1 = none ∧ t.tbl = (installTable s.seq.opnd s).2.tbl := by
  cases hi : (installTable s.seq.opnd s).1 with
  | none =>
    rw [exec_xlatCfg_success hi] at he
    cases he; exact ⟨rfl, rfl⟩
  | some info =>
    rw [exec_xlatCfg_fail hi] at he
    cases he; cases ha

/-- `XLAT.CFG` writes the table, `TBL_OK` and the answer, with an answer that is the outcome of the install. -/
theorem exec_xlatCfg (s : State) : ∃ t : State, exec .xlatCfg s = .next t ∧
    t = { s with tbl := t.tbl, tblOk := t.tblOk, seq := { s.seq with answer := t.seq.answer } } ∧
    t.tbl = (installTable s.seq.opnd s).2.tbl ∧
    ((installTable s.seq.opnd s).1 = none → t.seq.answer = [0] ∧ t.tblOk = true) ∧
    (∀ info, (installTable s.seq.opnd s).1 = some info → t.seq.answer = [1, info] ∧ t.tblOk = s.tblOk) := by
  cases hi : (installTable s.seq.opnd s).1 with
  | none =>
    refine ⟨_, exec_xlatCfg_success hi, ?_, rfl, fun _ => ⟨rfl, (installTable_ok hi).1⟩, fun _ h => by cases h⟩
    rw [installTable_frame]; rfl
  | some info =>
    refine ⟨_, exec_xlatCfg_fail hi, ?_, rfl, (fun h => by cases h), fun _ h => ?_⟩
    · rw [installTable_frame]; rfl
    · cases h; exact ⟨rfl, installTable_fail hi⟩

/-- Settles O18: the install's table and its outcome, one per way the list ends. -/
theorem xlatCfgInstalls : Obligations.XlatCfgInstalls := by
  unfold Obligations.XlatCfgInstalls
  refine ⟨fun s hf => ?_, fun s ws hf => ?_⟩
  · have hi := installTable_none hf
    rw [exec_xlatCfg_fail (congrArg Prod.fst hi), hi]; rfl
  · obtain ⟨t, he, hframe, htbl, hdone, hfail⟩ := exec_xlatCfg s
    refine ⟨t, he, hframe, fun b => by rw [htbl]; exact installTable_get hf b, ?_⟩
    dsimp only
    split
    · rename_i hn
      exact hfail _ (installTable_endless hf hn)
    · rename_i hn
      split
      · rename_i ht
        exact hfail _ (installTable_malformed hf hn fun h => ht (by rw [h]; rfl))
      · rename_i ht
        have hi := installTable_ended hf hn (BitVec.eq_of_toNat_eq (not_not.1 ht))
        rw [← htbl] at hi
        cases hm : missingSymbol s.cfg t.tbl with
        | none =>
          rw [hm] at hi
          obtain ⟨hans, hok⟩ := hdone hi
          exact .inl ⟨hans, hok, missingSymbol_eq_none.1 hm⟩
        | some b =>
          rw [hm] at hi
          obtain ⟨hans, hok⟩ := hfail _ hi
          obtain ⟨hb, hinvalid, hfirst⟩ := missingSymbol_eq_some hm
          exact .inr ⟨hok, b, hb, hinvalid, hans, hfirst⟩

/-! ### The self-check after an install (R157) -/

/-- The records a self-check logs of a list that ends at the sentinel: those before its end that disagree. -/
theorem mem_mismatches_of_ended {tbl : Table} {h : Word} {ws : List Word} {max j : Nat} (hn : listedCount h ws max < max)
    (ht : recordTag h ws (listedCount h ws max) = listEndTag) :
    j ∈ mismatches tbl h ws max ↔ j < listedCount h ws max ∧ recordAgrees tbl h ws j = false := by
  have hsymbol (hj : j < listedCount h ws max) : recordTag h ws j ≠ listEndTag := fun hend => by
    have hlt := listedCount_lt hj
    rw [hend] at hlt
    exact absurd hlt (by decide)
  unfold mismatches
  rw [Nat.min_eq_left hn, List.mem_filter, List.mem_range]
  simp only [Bool.and_eq_true, bne_iff_ne, Bool.not_eq_true']
  constructor
  · rintro ⟨hj, hne, ha⟩
    refine ⟨lt_of_le_of_ne (Nat.le_of_lt_succ hj) ?_, ha⟩
    rintro rfl; exact hne ht
  · exact fun ⟨hj, ha⟩ => ⟨Nat.lt_succ_of_lt hj, hsymbol hj, ha⟩

theorem recordAgrees_of_tag {tbl : Table} {h : Word} {ws : List Word} {j : Nat} {b : BitSymbol}
    (hb : recordTag h ws j = b.tag) :
    recordAgrees tbl h ws j = ((tbl.get b).valid && (tbl.get b).code == recordCode h ws j) := by
  unfold recordAgrees
  rw [symbolOfTag_eq_some.2 hb]

/-- Against the table an install left, a listed record disagrees if the last record of its symbol has another code. -/
theorem recordAgrees_installed {s : State} {h : Word} {ws : List Word} {j last : Nat} {b : BitSymbol}
    (hf : findTable s h = some ws) (hb : recordTag h ws j = b.tag)
    (hlast : lastRecord h ws (listedCount h ws s.params.maxTableEntries) b = some last) :
    recordAgrees (installTable h s).2.tbl h ws j = false ↔ recordCode h ws last ≠ recordCode h ws j := by
  have hget := installTable_get hf b
  rw [hlast] at hget
  rw [recordAgrees_of_tag hb, hget]
  simp

/-- Settles O20: of a listed record's symbol there is a last record, whose code the table holds. -/
theorem selfCheckLogsOverridden : Obligations.SelfCheckLogsOverridden := by
  unfold Obligations.SelfCheckLogsOverridden
  intro s t ws he ha hf h n j
  obtain ⟨hi, htbl⟩ := installed_of_answer he ha
  obtain ⟨hn, hend⟩ := installTable_success_ends hf hi
  rw [htbl, mem_mismatches_of_ended hn hend]
  refine and_congr_right fun hj => ?_
  obtain ⟨b, hb⟩ : ∃ b : BitSymbol, recordTag h ws j = b.tag := by
    cases hs : symbolOfTag (recordTag h ws j) with
    | none => exact absurd (listedCount_lt hj) (symbolOfTag_eq_none.1 hs)
    | some b => exact ⟨b, symbolOfTag_eq_some.1 hs⟩
  obtain ⟨last, hlast⟩ : ∃ last, lastRecord h ws n b = some last := by
    cases hl : lastRecord h ws n b with
    | none => exact absurd hb (lastRecord_eq_none.1 hl j hj)
    | some last => exact ⟨last, rfl⟩
  rw [recordAgrees_installed hf hb hlast, hb]
  constructor
  · intro hne
    obtain ⟨hlt, htag, hafter⟩ := lastRecord_eq_some.1 hlast
    have hle : j ≤ last := by
      by_contra hgt
      exact hafter j (by omega) hj hb
    have hjne : j ≠ last := by rintro rfl; exact hne rfl
    exact ⟨last, by omega, hlt, htag, hne, hafter⟩
  · rintro ⟨j', -, hlt, htag, hne, hafter⟩
    have hl : lastRecord h ws n b = some j' := lastRecord_eq_some.2 ⟨hlt, htag, hafter⟩
    obtain rfl : last = j' := Option.some_inj.1 (hlast.symm.trans hl)
    exact hne

/-! ### XLAT.VAL (R155, R156) -/

theorem whenReady_of_ready {opc : Word} {s : State} {body : Res State} (hr : s.chState = .ready) :
    whenReady opc s body = body := by
  unfold whenReady; rw [hr]

theorem rstatByte_mismatchCode (clean : Bool) :
    rstatByte .ok (mismatchCode (!clean)) = if clean then 0x00 else 0x50 := by
  cases clean <;> rfl

/-- A draw commutes with recording an error, which is no part of the environment. -/
theorem drawWord_recordError (e : ErrCode) (info : Word) (s : State) :
    drawWord (recordError e info s) = ((drawWord s).1, recorded e.code info (drawWord s).2) := by
  rw [drawWord_env, drawWord_env]; rfl

theorem drawWord_mismatchesLogged (h : Word) (ws : List Word) (js : List Nat) (s : State) :
    drawWord (mismatchesLogged h ws js s) = ((drawWord s).1, mismatchesLogged h ws js (drawWord s).2) := by
  rw [drawWord_env, drawWord_env]; rfl

/-- `XLAT.VAL` in READY: the self-check, then a draw as the result. -/
theorem exec_xlatVal_of_ready {s : State} (hr : s.chState = .ready) :
    exec .xlatVal s =
      let v := validateTable (argOperand s) s
      .next (replied s.seq.cur (rstatByte .ok (mismatchCode v.1)) (drawWord v.2).1 (drawWord v.2).2) := by
  have hseq : (drawWord (validateTable (argOperand s) s).2).2.seq = s.seq := by
    rw [drawWord_seq, validateTable_frame]
  change settle (whenReady 0x11 s _) = _
  rw [whenReady_of_ready hr]
  dsimp only
  rw [← hseq]
  rfl

/-- Settles O19: the self-check of an absent and of a present list, with the draw after it. -/
theorem xlatValLogs : Obligations.XlatValLogs := by
  unfold Obligations.XlatValLogs
  refine fun s hr => ⟨fun hf => ?_, fun ws hf => ?_⟩
  · rw [exec_xlatVal_of_ready hr, argOperand, validateTable_none hf]
    dsimp only
    rw [drawWord_recordError]
    rfl
  · dsimp only
    rw [exec_xlatVal_of_ready hr, argOperand, validateTable_some hf]
    dsimp only
    rw [rstatByte_mismatchCode, drawWord_mismatchesLogged]

/-! ### XLAT.LKP (R158) -/

/-- A table read before a table is installed. -/
theorem tblRead_unready {b : BitSymbol} {s : State} (h : s.chState = .reset ∨ s.tblOk = false) :
    tblRead b s = faulting .notConfigured (BitSymbol.tagWord b) s := by
  unfold tblRead; rw [if_pos h]

/-- A table read of an entry that is not valid. -/
theorem tblRead_untranslated {b : BitSymbol} {s : State} (h : ¬ (s.chState = .reset ∨ s.tblOk = false))
    (hv : (s.tbl.get b).valid = false) : tblRead b s = faulting .untranslated (BitSymbol.tagWord b) s := by
  unfold tblRead; rw [if_neg h, hv]; rfl

/-- A lookup that names a symbol is refused in HALTED, else it is a table read. -/
theorem exec_xlatLkp {k : BitVec 3} {b : BitSymbol} (hk : k.setWidth 8 = b.tag) (s : State) :
    exec (.xlatLkp k) s =
      if s.chState = .halted then .next (replied s.seq.cur 0x05 0 s)
      else settle (tblRead b s >>= fun c => reply .ok .none c s) := by
  change execXlatLkp k s = _
  unfold execXlatLkp
  rw [symbolOfTag_eq_some.2 hk]
  split <;> rfl

/-- Settles O21: the outcomes of a table read, HALTED apart. -/
theorem xlatLkpReads : Obligations.XlatLkpReads := by
  unfold Obligations.XlatLkpReads
  intro b k s hk
  have hwidth (n : Nat) : k.setWidth n = b.tag.setWidth n :=
    BitVec.eq_of_toNat_eq (by rw [BitVec.toNat_setWidth, BitVec.toNat_setWidth, hk])
  have htag : k.setWidth 8 = b.tag := (hwidth 8).trans (BitVec.setWidth_eq _)
  have hword : k.setWidth 32 = BitSymbol.tagWord b := hwidth 32
  rw [exec_xlatLkp htag, hword]
  refine if_congr Iff.rfl rfl ?_
  by_cases hr : s.chState = .reset ∨ s.tblOk = false
  · rw [if_pos hr, tblRead_unready hr]; rfl
  · rw [if_neg hr]
    by_cases hv : (s.tbl.get b).valid = false
    · rw [if_pos hv, tblRead_untranslated hr hv]; rfl
    · have hread : CanRead s b := ⟨hr, by simpa using hv⟩
      rw [if_neg hv, tblRead_ok hread]; rfl

end Sys2Proof.Machine
end

section
/-! PROOFS. The ring buffer (42_ring_buffer.md): each ring operation as an instruction, what a slot reads after it, the ring as
a first-in first-out queue, and the order of the codes on the interrupt path. -/

namespace Sys2Proof.Machine

/-! ### RING.AVF and RING.AVD (R174, R175) -/

theorem whenReady_of_reset {opc : Word} {s : State} {body : Res State} (hr : s.chState = .reset) :
    whenReady opc s body = .error (faulted 0x08 8 opc s) := by
  unfold whenReady; rw [hr]; rfl

theorem whenReady_of_halted {opc : Word} {s : State} {body : Res State} (hh : s.chState = .halted) :
    whenReady opc s body = .ok (replied s.seq.cur 0x05 0 s) := by
  unfold whenReady; rw [hh]; rfl

theorem exec_ringAvf (s : State) :
    exec .ringAvf s = settle (whenReady 0x22 s
      (.ok (replied s.seq.cur 0x00 (BitVec.ofNat 32 (s.params.ringCap - s.ring.used)) s))) := rfl

theorem exec_ringAvd (s : State) :
    exec .ringAvd s = settle (whenReady 0x23 s (.ok (replied s.seq.cur 0x00 (BitVec.ofNat 32 s.ring.used) s))) := rfl

/-- Settles O22: the three channel states of a command that needs a READY channel. -/
theorem ringCountsReported : Obligations.RingCountsReported := by
  unfold Obligations.RingCountsReported
  intro s
  rw [exec_ringAvf, exec_ringAvd]
  refine ⟨fun hr => ?_, fun hh => ?_, fun hr => ?_⟩
  · rw [whenReady_of_reset hr, whenReady_of_reset hr]; exact ⟨rfl, rfl⟩
  · rw [whenReady_of_halted hh, whenReady_of_halted hh]; exact ⟨rfl, rfl⟩
  · rw [whenReady_of_ready hr, whenReady_of_ready hr]; exact ⟨rfl, rfl⟩

/-! ### RING.WR (R170) -/

/-- A write changes what one slot reads, the slot at `WIDX`. -/
theorem slotWord_afterWrite (c : Word) (s : State) (i : Nat) :
    slotWord (afterWrite c s) i = if i % s.params.ringCap = s.ring.widx then c else slotWord s i := by
  change ((s.ring.slots.write s.ring.widx c).read (i % s.params.ringCap)).getD _ = _
  split
  · rename_i hi
    rw [hi, Memory.read_write_same]; rfl
  · rename_i hi
    rw [Memory.read_write_other _ _ hi]; rfl

theorem exec_ringWr_ok {s : State} (h : s.ring.used ≠ s.params.ringCap) :
    exec .ringWr s = .next (afterWrite s.seq.opnd s) := by
  change settle (ringWrite s.seq.opnd s) = _
  rw [ringWrite_ok _ h]; rfl

theorem exec_ringWr_full {s : State} (h : s.ring.used = s.params.ringCap) :
    exec .ringWr s = .next (faulted 0x01 4 (BitVec.ofNat 32 s.ring.widx)
      { s with cnt := { s.cnt with overruns := s.cnt.overruns + 1 } }) := by
  change settle (ringWrite s.seq.opnd s) = _
  rw [ringWrite_full _ h]; rfl

/-- Settles O23: a write into a ring with room, and the overrun of a full one. -/
theorem ringWrWrites : Obligations.RingWrWrites := by
  unfold Obligations.RingWrWrites
  intro s
  refine ⟨exec_ringWr_full, fun hroom => ⟨_, exec_ringWr_ok hroom, rfl, rfl, rfl, rfl, fun hlt => ?_, fun i hi => ?_⟩⟩
  · rw [slotWord_afterWrite, if_pos (Nat.mod_eq_of_lt hlt)]
  · rw [slotWord_afterWrite, if_neg hi]

/-! ### RING.RST (R172) -/

theorem exec_ringRst_idle {s : State} (h : s.drvState = .idle) : exec .ringRst s = .next (afterReset s) := by
  change settle (ringReset s) = _
  rw [ringReset_ok h]; rfl

theorem exec_ringRst_active {s : State} (h : s.drvState = .active) :
    exec .ringRst s = .next (faulted 0x04 7 (BitVec.ofNat 32 s.ring.used) s) := by
  change settle (ringReset s) = _
  rw [ringReset_fault h]; rfl

/-- Settles O24: a reset moves the indices only, so that every slot reads as before. -/
theorem ringRstEmpties : Obligations.RingRstEmpties := by
  unfold Obligations.RingRstEmpties
  exact fun s => ⟨exec_ringRst_active, fun hidle => ⟨_, exec_ringRst_idle hidle, rfl, rfl, rfl, rfl, slotWord_congr rfl rfl⟩⟩

/-! ### RING.PEEK (R176) -/

theorem exec_ringPeek_ok {s : State} {k : BitVec 16} (h : k.toNat < s.ring.used) :
    exec (.ringPeek k) s = .next (answering [slotWord s (s.ring.ridx + k.toNat)] s) := by
  change settle ((ringPeek k.toNat s).map _) = _
  rw [ringPeek_ok h]; rfl

theorem exec_ringPeek_underflow {s : State} {k : BitVec 16} (h : s.ring.used ≤ k.toNat) :
    exec (.ringPeek k) s = .next (faulted 0x02 6 (k.setWidth 32) s) := by
  change settle ((ringPeek k.toNat s).map _) = _
  rw [ringPeek_fault h, BitVec.ofNat_toNat]; rfl

/-- Settles O25: the code read is the k-th of the queue. -/
theorem ringPeekReads : Obligations.RingPeekReads := by
  unfold Obligations.RingPeekReads
  refine fun s k => ⟨exec_ringPeek_underflow, fun hk => ⟨_, ?_, rfl, exec_ringPeek_ok hk⟩⟩
  rw [ringCodes_getElem?, if_pos hk]

/-! ### RING.ADV (R177) -/

theorem exec_ringAdv_ok {s : State} {n : BitVec 16} (h : n.toNat ≤ s.ring.used) :
    exec (.ringAdv n) s = .next (afterAdvance n.toNat s) := by
  change settle (ringAdvance n.toNat s) = _
  rw [ringAdvance_ok h]; rfl

theorem exec_ringAdv_underflow {s : State} {n : BitVec 16} (h : s.ring.used < n.toNat) :
    exec (.ringAdv n) s = .next (faulted 0x02 6 (n.setWidth 32) s) := by
  change settle (ringAdvance n.toNat s) = _
  rw [ringAdvance_fault h, BitVec.ofNat_toNat]; rfl

/-- Settles O26: an advance drops the n oldest codes of the queue and writes no slot. -/
theorem ringAdvConsumes : Obligations.RingAdvConsumes := by
  unfold Obligations.RingAdvConsumes
  exact fun s n => ⟨exec_ringAdv_underflow, fun hn =>
    ⟨_, exec_ringAdv_ok hn, rfl, rfl, rfl, rfl, ringCodes_afterAdvance hn, slotWord_congr rfl rfl⟩⟩

/-! ### The ring as a first-in first-out queue (R179) -/

/-- The oldest staged code stands at `RIDX`, and an advance by one leaves the others. -/
theorem ringCodes_eq_cons {s : State} (h : 0 < s.ring.used) :
    ringCodes s = slotWord s s.ring.ridx :: ringCodes (afterAdvance 1 s) := by
  have hfront : (ringCodes s)[0]? = some (slotWord s s.ring.ridx) := by rw [ringCodes_getElem?, if_pos h]; rfl
  rw [ringCodes_afterAdvance h, List.drop_one]
  exact (List.cons_head?_tail (by rw [List.head?_eq_getElem?]; exact hfront)).symm

/-- The state after `RING.WR c` with c placed in the operand latch. -/
def afterPut (c : Word) (s : State) : State := afterWrite c { s with seq := { s.seq with opnd := c } }

/-- The state after `RING.PEEK 0` and `RING.ADV 1`. -/
def afterTake (s : State) : State := afterAdvance 1 (answering [slotWord s s.ring.ridx] s)

theorem afterPut_ringInv {s : State} (c : Word) (h : RingInv s) (hlt : s.ring.used < s.params.ringCap) :
    RingInv (afterPut c s) :=
  afterWrite_ringInv c (h.congr rfl rfl) hlt

theorem afterTake_ringInv {s : State} (h : RingInv s) (hpos : 0 < s.ring.used) : RingInv (afterTake s) :=
  afterAdvance_ringInv (s := answering _ s) (h.congr rfl rfl) hpos

theorem ringCodes_afterPut {s : State} (c : Word) (h : RingInv s) (hlt : s.ring.used < s.params.ringCap) :
    ringCodes (afterPut c s) = ringCodes s ++ [c] :=
  ringCodes_afterWrite (s := { s with seq := { s.seq with opnd := c } }) c (h.congr rfl rfl) hlt

theorem ringCodes_afterTake {s : State} (hpos : 0 < s.ring.used) :
    ringCodes s = slotWord s s.ring.ridx :: ringCodes (afterTake s) :=
  ringCodes_eq_cons (s := answering [slotWord s s.ring.ridx] s) hpos

theorem ringRun_put (c : Word) (ops : List RingOp) (s : State) :
    ringRun (.put c :: ops) s = if s.ring.used < s.params.ringCap then ringRun ops (afterPut c s) else none := by
  rw [ringRun]
  refine ite_congr rfl (fun hlt => ?_) fun _ => rfl
  rw [exec_ringWr_ok (s := { s with seq := { s.seq with opnd := c } }) (Nat.ne_of_lt hlt)]; rfl

theorem ringRun_take (ops : List RingOp) (s : State) :
    ringRun (.take :: ops) s = if 0 < s.ring.used then
      (ringRun ops (afterTake s)).map fun r => (slotWord s s.ring.ridx :: r.1, r.2) else none := by
  rw [ringRun]
  refine ite_congr rfl (fun hpos => ?_) fun _ => rfl
  have hpeek : exec (.ringPeek 0) s = .next (answering [slotWord s s.ring.ridx] s) := exec_ringPeek_ok hpos
  have hadv : exec (.ringAdv 1) (answering [slotWord s s.ring.ridx] s) = .next (afterTake s) := exec_ringAdv_ok hpos
  rw [hpeek]
  dsimp only
  rw [hadv]; rfl

/-- Settles O27, by induction on the sequence: a write appends to the queue, a take removes its head. -/
theorem ringIsFifo : Obligations.RingIsFifo := by
  unfold Obligations.RingIsFifo
  intro s t ops
  induction ops generalizing s with
  | nil =>
    rintro out - hrun
    cases hrun
    simp [RingOp.puts]
  | cons op ops ih =>
    intro out hinv hrun
    cases op with
    | put c =>
      rw [ringRun_put] at hrun
      obtain ⟨hlt, hrun⟩ := Option.ite_none_right_eq_some.1 hrun
      rw [ih _ _ (afterPut_ringInv c hinv hlt) hrun, ringCodes_afterPut c hinv hlt, List.append_assoc]
      rfl
    | take =>
      rw [ringRun_take] at hrun
      obtain ⟨hpos, hrun⟩ := Option.ite_none_right_eq_some.1 hrun
      obtain ⟨⟨out', u⟩, hrest, heq⟩ := Option.map_eq_some_iff.1 hrun
      cases heq
      rw [ringCodes_afterTake hpos, List.cons_append, List.cons_append, ih _ _ (afterTake_ringInv hinv hpos) hrest]
      rfl

/-! ### The order of the codes on the interrupt path (R179, R227, R246) -/

/-- The stream depends on the wire, `TXMEM`, the ring and the capacity only. -/
theorem intrStream_congr {s t : State} (hw : t.hw.wire = s.hw.wire) (hm : t.hw.txmem = s.hw.txmem) (hr : t.ring = s.ring)
    (hp : t.params = s.params) : intrStream t = intrStream s := by
  unfold intrStream; rw [hw, hm, ringCodes_congr hr hp]

/-- A shift moves the head of `TXMEM` to the end of the wire. -/
theorem intrStream_hwtxShift (s : State) : intrStream (hwtxShift s) = intrStream s := by
  unfold hwtxShift
  split
  · rfl
  · rename_i c rest hm
    unfold intrStream
    rw [hm, ringCodes_congr (s := s) rfl rfl, List.append_cons s.hw.wire c rest]
    rfl

/-- A chunk goes from the queue's front to the end of `TXMEM`, and what the encoder wrote stands behind the rest. -/
theorem intrStream_serviced {n : Nat} {r : Ring} {d : Bool} {e : Env} {s : State} {written : List Word}
    (hr : ringCodes { s with ring := r } = (ringCodes s).drop n ++ written) :
    intrStream (serviced n r d e s) = intrStream s ++ written := by
  have hring : ringCodes (serviced n r d e s) = (ringCodes s).drop n ++ written := (ringCodes_congr rfl rfl).trans hr
  calc intrStream (serviced n r d e s)
      = s.hw.wire ++ (s.hw.txmem ++ (ringCodes s).take n) ++ ((ringCodes s).drop n ++ written) := by
        unfold intrStream; rw [hring]; rfl
    _ = s.hw.wire ++ s.hw.txmem ++ ((ringCodes s).take n ++ (ringCodes s).drop n) ++ written := by
        simp only [List.append_assoc]
    _ = intrStream s ++ written := by rw [List.take_append_drop]; rfl

/-- `DRV.SERVICE` on a configured channel appends whole values to the stream; the wire and the error state stay. -/
theorem driverService_stream {s : State} (h : RingInv s) (ht : TableComplete s) (hc : Configured s)
    (hd : s.hw.txmem.length ≤ s.params.hwDepth) :
    ∃ (t : State) (vs : List (Word × Bool)), driverService s = .ok t ∧ t.hw.wire = s.hw.wire ∧ t.err = s.err ∧
      intrStream t = intrStream s ++ vs.flatMap fun v => valueCodes s v.1 ++ trailerCodes s v.2 := by
  obtain ⟨r, d, e, vs, -, hrun, -, hcodes, -⟩ := driverService_ok h ht hc hd
  have hstream := intrStream_serviced (d := d) (e := e) hcodes
  refine ⟨_, vs, hrun, ?_⟩
  split
  · exact ⟨rfl, rfl, (intrStream_congr rfl rfl rfl rfl).trans hstream⟩
  · exact ⟨rfl, rfl, hstream⟩

/-- Settles O34: a frame in flight is on a configured channel, so that the handler's body completes. -/
theorem interruptPathKeepsOrder : Obligations.InterruptPathKeepsOrder := by
  unfold Obligations.InterruptPathKeepsOrder
  intro s hinv hfault hactive _
  refine ⟨intrStream_hwtxShift s, ?_⟩
  have hlive := hinv.live hfault
  obtain ⟨hready, htbl⟩ := hlive.activeReady hactive
  obtain ⟨t, vs, hrun, hwire, herr, hstream⟩ := driverService_stream (s := eventEntry .thr s) (hinv.ring.congr rfl rfl)
    ((hlive.tableComplete htbl).congr rfl rfl) ((hlive.configured hready).congr rfl rfl rfl rfl) hlive.txmemBound
  refine ⟨t, vs, ?_, hwire, herr, hstream.trans (congrArg (· ++ _) (intrStream_congr rfl rfl rfl rfl))⟩
  change settle ((driverService (eventEntry .thr s)).map eventReturn) = _
  rw [hrun]; rfl

end Sys2Proof.Machine
end

section
/-! PROOFS. The intensity encoder (43_encoder.md): which slots `ENC.FILL` writes, what it writes under any source and under a
list source, and how an encoded value is read back. -/

namespace Sys2Proof.Machine

/-- The fill is counted (R205). -/
def fillCounted (s : State) : State := { s with cnt := { s.cnt with fills := s.cnt.fills + 1 } }

theorem exec_encFill_ok {s t : State} (h : encoderFill s = .ok t) : exec .encFill s = .next t := by
  change settle (encoderFill s) = _
  rw [h]; rfl

/-! ### Which slots are written (R170, R204) -/

/-- From s to t, n codes were put in the slots from `WIDX` on; every other slot reads as before. -/
structure WroteSlots (n : Nat) (s t : State) : Prop where
  params : t.params = s.params
  used : t.ring.used = s.ring.used + n
  widx : t.ring.widx % s.params.ringCap = (s.ring.widx + n) % s.params.ringCap
  slots : ∀ i, (∀ j, j < n → i % s.params.ringCap ≠ (s.ring.widx + j) % s.params.ringCap) → slotWord t i = slotWord s i

/-- From s to t the ring was written at `WIDX` only, each write taking one more slot. -/
def WritesBehind (s t : State) : Prop := ∃ n, WroteSlots n s t

theorem WroteSlots.trans {n m : Nat} {s t u : State} (h : WroteSlots n s t) (g : WroteSlots m t u) :
    WroteSlots (n + m) s u := by
  have hwidx : ∀ j, (t.ring.widx + j) % s.params.ringCap = (s.ring.widx + (n + j)) % s.params.ringCap := fun j => by
    rw [Nat.add_mod, h.widx, ← Nat.add_mod, Nat.add_assoc]
  obtain ⟨gparams, gused, gwidx, gslots⟩ := g
  rw [h.params] at gwidx gslots
  refine ⟨gparams.trans h.params, by rw [gused, h.used, Nat.add_assoc], gwidx.trans (hwidx m), fun i hi => ?_⟩
  rw [gslots i fun j hj => hwidx j ▸ hi (n + j) (by omega), h.slots i fun j hj => hi j (by omega)]

theorem WritesBehind.trans {s t u : State} : WritesBehind s t → WritesBehind t u → WritesBehind s u
  | ⟨n, h⟩, ⟨m, g⟩ => ⟨n + m, h.trans g⟩

/-- An update that leaves the ring and the capacity alone writes no slot. -/
theorem WritesBehind.of_same {s t : State} (hr : t.ring = s.ring) (hp : t.params = s.params) : WritesBehind s t :=
  ⟨0, hp, by rw [hr]; rfl, by rw [hr]; rfl, fun i _ => slotWord_congr (by rw [hr]) hp i⟩

theorem WritesBehind.leaves_trans {s t : State} {r : Res State} (h : WritesBehind s t) (g : r.Leaves (WritesBehind t) id) :
    r.Leaves (WritesBehind s) id := g.mono fun _ => h.trans

theorem afterWrite_writesBehind (c : Word) (s : State) : WritesBehind s (afterWrite c s) := by
  refine ⟨1, rfl, rfl, Nat.mod_mod _ _, fun i hi => ?_⟩
  rw [slotWord_afterWrite, if_neg fun hw => hi 0 Nat.one_pos ?_]
  rw [Nat.add_zero, ← hw, Nat.mod_mod]

theorem ringWrite_writesBehind (c : Word) (s : State) : (ringWrite c s).Leaves (WritesBehind s) id := by
  by_cases hu : s.ring.used = s.params.ringCap
  · rw [ringWrite_full c hu]; exact .of_same rfl rfl
  · rw [ringWrite_ok c hu]; exact afterWrite_writesBehind c s

theorem emitSymbol_writesBehind (b : BitSymbol) (s : State) : (emitSymbol b s).Leaves (WritesBehind s) id := by
  unfold emitSymbol
  rcases tblRead_cases b s with ⟨c, hr⟩ | ⟨k, hr⟩ <;> rw [hr]
  · exact ringWrite_writesBehind c s
  · exact .of_same rfl rfl

theorem emitSymbols_writesBehind (bs : List BitSymbol) (s : State) : (emitSymbols bs s).Leaves (WritesBehind s) id := by
  induction bs generalizing s with
  | nil => exact .of_same rfl rfl
  | cons b bs ih => exact Res.Leaves.bind (emitSymbol_writesBehind b s) fun t ht => ht.leaves_trans (ih t)

theorem emitValue_writesBehind (v : Word) (s : State) : (emitValue v s).Leaves (WritesBehind s) id := by
  refine Res.Leaves.bind (emitSymbols_writesBehind _ s) fun t ht => ?_
  have hmore : WritesBehind t { (srcMore t).2 with hasData := (srcMore t).1 } := .of_same (srcMore_ring t) (srcMore_params t)
  exact (ht.trans hmore).leaves_trans (emitSymbols_writesBehind _ _)

theorem fillLoop_writesBehind (n : Nat) (s : State) : (fillLoop n s).Leaves (WritesBehind s) id := by
  induction n generalizing s with
  | zero => exact .of_same rfl rfl
  | succ n ih =>
    have hnext : WritesBehind s (srcNext s).2 := .of_same (srcNext_ring s) (srcNext_params s)
    simp only [fillLoop]
    split
    · split
      · exact hnext.leaves_trans (Res.Leaves.bind (emitValue_writesBehind _ _) fun t ht => ht.leaves_trans (ih t))
      · exact hnext.trans (.of_same rfl rfl)
    · exact .of_same rfl rfl

theorem encoderFill_writesBehind (s : State) : (encoderFill s).Leaves (WritesBehind s) id :=
  WritesBehind.leaves_trans (t := fillCounted s) (.of_same rfl rfl) (fillLoop_writesBehind _ _)

/-- `ENC.FILL` writes no ring slot but those it takes from `WIDX` on. -/
theorem encoderFill_slots {s t : State} (h : encoderFill s = .ok t) (i : Nat)
    (hi : ∀ j, j < t.ring.used - s.ring.used → i % s.params.ringCap ≠ (s.ring.widx + j) % s.params.ringCap) :
    slotWord t i = slotWord s i := by
  have hleaves := encoderFill_writesBehind s
  rw [h] at hleaves
  obtain ⟨n, hn⟩ := hleaves
  have hused : t.ring.used = s.ring.used + n := hn.used
  exact hn.slots i fun j hj => hi j (by omega)

/-! ### ENC.FILL under any source (R201, R203 to R207) -/

theorem fillLoop_of_no_data {n : Nat} {s : State} (h : s.hasData = false) : fillLoop n s = .ok s := by
  cases n with
  | zero => rfl
  | succ n => rw [fillLoop, if_neg fun hc => Bool.noConfusion (h.symm.trans hc.2)]

theorem encoderFill_of_no_data {s : State} (h : s.hasData = false) : encoderFill s = .ok (fillCounted s) :=
  fillLoop_of_no_data h

/-- Settles O28: the loop's outcome, with the slots it wrote; a ring with at most S < C slots free is not empty. -/
theorem encFillCompletes : Obligations.EncFillCompletes := by
  unfold Obligations.EncFillCompletes
  intro s hinv hcfg htab
  obtain ⟨r, d, e, vs, hrun, hinv', hcodes, hstop, -, hused, hridx⟩ := encoderFill_ok hinv htab hcfg
  refine ⟨_, vs, exec_encFill_ok hrun, rfl, (ringCodes_congr rfl rfl).trans hcodes, hinv'.congr rfl rfl, hridx, hused,
    encoderFill_slots hrun, fun hd => ?_, fun hd => ?_⟩
  · have hfull : s.params.ringCap - r.used ≤ s.cfg.slotsPerValue := hstop hd
    have hroom := hcfg.slots_lt
    exact ⟨hfull, show 1 ≤ r.used by omega⟩
  · exact Except.ok.inj (hrun.symm.trans (encoderFill_of_no_data hd))

/-! ### ENC.FILL under a list source (R202, R207, R208, R304) -/

theorem source_of_findSource {s : State} {h : Word} {src : Source} (hs : findSource s h = some src) :
    s.env.source h = src := congrArg (·.getD .oracle) hs

theorem findSource_of_source_list {s : State} {h : Word} {all rest : List Word} (hs : s.env.source h = .list all rest) :
    findSource s h = some (.list all rest) := by
  obtain ⟨hne, hlookup⟩ := Env.source_list hs
  unfold findSource
  rw [if_neg hne, hlookup]

theorem not_isEmpty_drop (vs : List Word) (k : Nat) : (!(vs.drop k).isEmpty) = decide (k < vs.length) := by
  rw [Bool.eq_iff_iff]
  simp

theorem encodedValues_congr {s t : State} (hc : t.cfg = s.cfg) (ht : t.tbl = s.tbl) (m : Bool) (vs : List Word) :
    encodedValues t m vs = encodedValues s m vs := by
  have hvalue : ∀ v, valueCodes t v = valueCodes s v := fun v => by unfold valueCodes; rw [hc, ht]
  have htrailer : ∀ m, trailerCodes t m = trailerCodes s m := fun m => by unfold trailerCodes; rw [hc, ht]
  induction vs with
  | nil => rfl
  | cons v vs ih =>
    cases vs with
    | nil => simp only [encodedValues, hvalue, htrailer]
    | cons w vs => simp only [encodedValues, hvalue, htrailer, ih]

/-- Under a list source `ENC.FILL` encodes the next k values; with values left, it stopped for want of room. -/
theorem encoderFill_list {s : State} {all vs : List Word} (h : RingInv s) (hc : Configured s) (ht : TableComplete s)
    (hs : findSource s s.cfg.srcHandle = some (.list all vs)) (hd : s.hasData = !vs.isEmpty) :
    ∃ (t : State) (k : Nat), encoderFill s = .ok t ∧ k ≤ vs.length ∧
      ringCodes t = ringCodes s ++ encodedValues s (decide (k < vs.length)) (vs.take k) ∧
      findSource t t.cfg.srcHandle = some (.list all (vs.drop k)) ∧ t.hasData = decide (k < vs.length) ∧
      (k < vs.length → s.params.ringCap - t.ring.used ≤ s.cfg.slotsPerValue) := by
  obtain ⟨r, e, k, hrun, hk, hsrc, hcodes⟩ := fillLoop_list (n := s.params.ringCap) (s := fillCounted s) (h.congr rfl rfl)
    ((hc.table ht).congr rfl rfl rfl rfl) hc.width_pos (Nat.sub_le _ _) (source_of_findSource hs) hd
  obtain ⟨r', d', e', -, hrun', -, -, hstop, -⟩ := encoderFill_ok h ht hc
  have heq := Except.ok.inj (hrun'.symm.trans hrun)
  have hring : r' = r := congrArg State.ring heq
  have hdata : d' = decide (k < vs.length) := (congrArg State.hasData heq).trans (not_isEmpty_drop vs k)
  rw [not_isEmpty_drop, encodedValues_congr (s := s) (t := fillCounted s) rfl rfl,
    ringCodes_congr (s := s) (t := fillCounted s) rfl rfl] at hcodes
  exact ⟨_, k, hrun, hk, (ringCodes_congr rfl rfl).trans hcodes, findSource_of_source_list hsrc, not_isEmpty_drop vs k,
    fun hlt => hring ▸ hstop (hdata.trans (decide_eq_true hlt))⟩

/-- With room and a value left, at least one value is encoded: a fill that stages nothing stops on a ring as free as before. -/
theorem encoded_pos {s t : State} {vs : List Word} {k : Nat}
    (hcodes : ringCodes t = ringCodes s ++ encodedValues s (decide (k < vs.length)) (vs.take k))
    (hstop : k < vs.length → s.params.ringCap - t.ring.used ≤ s.cfg.slotsPerValue) (hne : vs ≠ [])
    (hroom : s.cfg.slotsPerValue < s.params.ringCap - s.ring.used) : 0 < k := by
  by_contra hk
  obtain rfl : k = 0 := by omega
  have hused : t.ring.used = s.ring.used := by simpa [encodedValues] using congrArg List.length hcodes
  have hfull := hstop (List.length_pos_iff.2 hne)
  rw [hused] at hfull
  omega

/-- Settles O29: what the fill encodes, where it stops, and that it makes progress. -/
theorem encFillWritesListValues : Obligations.EncFillWritesListValues := by
  unfold Obligations.EncFillWritesListValues
  intro s all vs hinv hcfg htab hs hd
  obtain ⟨t, k, hrun, hk, hcodes, hsrc, hdata, hstop⟩ := encoderFill_list hinv hcfg htab hs hd
  exact ⟨t, k, exec_encFill_ok hrun, hk, hcodes, hsrc, hdata, hk.eq_or_lt.imp_right hstop, encoded_pos hcodes hstop⟩

/-! ### Decoding an encoded value (R210) -/

/-- What is encoded for a list of values begins with the data codes of the first. -/
theorem valueCodes_prefix_encodedValues (s : State) (m : Bool) (v : Word) (vs : List Word) :
    valueCodes s v <+: encodedValues s m (v :: vs) := by
  cases vs with
  | nil => exact List.prefix_append _ _
  | cons w vs =>
    rw [encodedValues, List.append_assoc]
    exact List.prefix_append _ _

theorem valueCodes_getElem? (s : State) (v : Word) {j : Nat} (hj : j < s.cfg.width) :
    (valueCodes s v)[j]? = some (if v.getLsbD (if s.cfg.lsbFirst then j else s.cfg.width - 1 - j)
      then s.tbl.one.code else s.tbl.zero.code) := by
  unfold valueCodes valueBits
  rw [List.map_map, List.getElem?_map, List.getElem?_range hj]
  rfl

/-- Two distinct codes tell which bit was encoded (R160). -/
theorem some_code_iff {one zero : Word} (hne : one ≠ zero) (b : Bool) :
    (some (if b then one else zero) = some one ↔ b = true) ∧ (some (if b then one else zero) = some zero ↔ b = false) := by
  cases b
  · simp [hne.symm]
  · simp [hne]

/-- Settles O30: behind the codes staged before stand the data codes of the source's next value. -/
theorem encodedValueDecodes : Obligations.EncodedValueDecodes := by
  unfold Obligations.EncodedValueDecodes
  intro s all vs v hinv hcfg htab hs hd hroom hne
  obtain ⟨t, k, hrun, -, hcodes, -, -, hstop⟩ := encoderFill_list hinv hcfg htab hs hd
  refine ⟨t, exec_encFill_ok hrun, fun j hj => ?_⟩
  obtain ⟨k, rfl⟩ := Nat.exists_eq_succ_of_ne_zero (encoded_pos hcodes hstop (List.cons_ne_nil v vs) hroom).ne'
  have hprefix : valueCodes s v <+: (ringCodes t).drop s.ring.used := by
    rw [hcodes, List.drop_left' (ringCodes_length s), List.take_succ_cons]
    exact valueCodes_prefix_encodedValues s _ v _
  have hcode : (ringCodes t)[s.ring.used + j]? = (valueCodes s v)[j]? := by
    rw [← List.getElem?_drop]
    exact (List.prefix_iff_getElem?.1 hprefix j (by simpa using hj)).trans (List.getElem?_eq_getElem _).symm
  rw [hcode, valueCodes_getElem? s v hj]
  exact some_code_iff hne _

end Sys2Proof.Machine
end

section
/-! PROOFS. The transmission driver (44_driver.md): the steps of ISR, CQDRV and HWTX and when they may step, `DRV.SERVICE` and
the two event handlers, the two arms of the completion-queue loop, and the frame pacing of `BG.WAIT`. -/

namespace Sys2Proof.Machine

/-! ### Agents lined up (R90) -/

/-- With an agent lined up that may step, a step is that agent's. -/
theorem step_lined {a : Agent} {s : State} (hl : Lined a s) (he : enabled a s = true) :
    step s = agentStep a (scheduled s) := by
  obtain ⟨hp, rest, hs⟩ := hl
  exact machineStep_lined hp hs he

theorem enabled_cqdrv_iff {s : State} :
    enabled .cqdrv s = true ↔ s.err.fault = 0 ∧ s.cq.phase ≠ .idle ∧ s.chState = .ready := by
  simp [enabled, cqdrvEnabled, notFaulted_iff, and_assoc]

theorem enabled_hwtx_iff {s : State} :
    enabled .hwtx s = true ↔ s.err.fault = 0 ∧ s.hw.txEn = true ∧ s.hw.txmem ≠ [] := by
  simp [enabled, hwtxEnabled, notFaulted_iff, and_assoc]

theorem enabled_pacer_iff {s : State} {k : Nat} :
    enabled (.pacer k) s = true ↔ s.err.fault = 0 ∧ (portOf s k).bgw = true := by
  simp [enabled, pacerEnabled, notFaulted_iff]

/-! ### The events (R221, R222, R224) -/

/-- The instruction that handles an event (R130). -/
def Event.handler : Event → Instr
  | .thr => .evThr
  | .txdone => .evTxdone

theorem decode_event (e : Event) : decode { fmt := .ev, word := e.number } = some e.handler := by
  cases e <;> decide

/-- On an unfaulted READY INTR channel a pending and enabled event is taken, `EV.TXDONE` before `EV.THR`. -/
theorem eventTaken_of_open {s : State} (hf : s.err.fault = 0) (hr : s.chState = .ready) (hi : s.cfg.strategy = .intr) :
    eventTaken s =
      if s.hw.donePend = true ∧ s.doneIe = true then some .txdone
      else if s.hw.thrPend = true ∧ s.thrIe = true then some .thr else none := by
  have hopen : isrOpen s = true := by simp [isrOpen, hf, hr, hi]
  simp [eventTaken, txdoneDeliverable, thrDeliverable, hopen]

/-- With ISR lined up, a step is the handler of the event taken. -/
theorem step_isr {s : State} {e : Event} (hl : Lined .isr s) (ht : eventTaken s = some e) :
    step s = exec e.handler (scheduled s) := by
  have htaken : eventTaken (scheduled s) = some e := ht
  rw [step_lined hl (by simp [enabled, isrEnabled, ht])]
  simp only [agentStep, isrStep, htaken, decode_event]

/-- Settles O7: the event taken under each clause, and CQDRV's step. -/
theorem stepRunsEventsAndLoop : Obligations.StepRunsEventsAndLoop := by
  unfold Obligations.StepRunsEventsAndLoop
  refine ⟨fun s hl hf hr hi => ?_, fun s hl hf hr hp => step_lined hl (enabled_cqdrv_iff.2 ⟨hf, hp, hr⟩)⟩
  have htaken := eventTaken_of_open hf hr hi
  refine ⟨fun hpend hie => ?_, fun hnot hpend hie => ?_⟩
  · rw [if_pos ⟨hpend, hie⟩] at htaken
    exact step_isr hl htaken
  · rw [if_neg hnot, if_pos ⟨hpend, hie⟩] at htaken
    exact step_isr hl htaken

/-- Settles O59: an INTR frame in flight has codes to shift or its threshold event pending; a CQ frame is in its loop. -/
theorem activeFrameCanStep : Obligations.ActiveFrameCanStep := by
  unfold Obligations.ActiveFrameCanStep
  intro s hinv hf hactive
  have hlive := hinv.live hf
  obtain ⟨hready, -⟩ := hlive.activeReady hactive
  refine ⟨fun hintr => ?_, fun hcq => enabled_cqdrv_iff.2 ⟨hf, hlive.cqLoop hactive hcq, hready⟩⟩
  obtain ⟨hen, hthrIe, -, -, hmem | hpend⟩ := hlive.intrLoop hactive hintr
  · exact .inl (enabled_hwtx_iff.2 ⟨hf, hen, hmem⟩)
  · right
    change (eventTaken s).isSome = true
    rw [eventTaken_of_open hf hready hintr, if_pos (c := s.hw.thrPend = true ∧ s.thrIe = true) ⟨hpend, hthrIe⟩]
    split <;> rfl

/-! ### The transmitter's shift (R246, R247) -/

theorem or_decide_eq_ite (b : Bool) (p : Prop) [Decidable p] : (b || decide p) = if p then true else b := by
  by_cases hp : p <;> simp [hp]

theorem hwtxShift_cons {s : State} {c : Word} {rest : List Word} (hm : s.hw.txmem = c :: rest) :
    hwtxShift s = { s with hw := { s.hw with
      txmem := rest
      wire := s.hw.wire ++ [c]
      thrPend := if rest.length < s.params.watermark then true else s.hw.thrPend
      donePend := if rest = [] then true else s.hw.donePend } } := by
  have hempty : rest.isEmpty = decide (rest = []) := by rw [Bool.eq_iff_iff]; simp
  unfold hwtxShift
  simp only [hm, pendAfterShift, hempty, or_decide_eq_ite]

/-- Settles O10: HWTX's step is the shift of a non-empty `TXMEM`. -/
theorem hwtxShifts : Obligations.HwtxShifts := by
  unfold Obligations.HwtxShifts
  intro s c rest hl hf hen hm
  rw [step_lined hl (enabled_hwtx_iff.2 ⟨hf, hen, by simp [hm]⟩)]
  exact congrArg _ (hwtxShift_cons (s := scheduled s) hm)

/-! ### DRV.SERVICE and the handlers (R225, R231, R235) -/

theorem frameDrained_iff {s : State} : frameDrained s = true ↔ s.ring.used = 0 ∧ s.hasData = false := by
  simp [frameDrained]

/-- `DRV.SERVICE` as an instruction, `ENC.FILL` after the chunk having left v: the end test. -/
theorem exec_drvService_of_fill {s v : State} (hd : s.hw.txmem.length ≤ s.params.hwDepth)
    (hv : encoderFill (afterChunk (intrChunk s) s) = .ok v) :
    exec .drvService s = .next (if v.ring.used = 0 ∧ v.hasData = false then endFrameIntr v else v) := by
  change settle (driverService s) = _
  rw [driverService_eq hd, hv]
  simp only [Except.bind, frameDrained_iff]
  split <;> rfl

/-- Settles O31: u is the state in which the chunk has moved and been counted. -/
theorem drvServiceMovesChunk : Obligations.DrvServiceMovesChunk := by
  unfold Obligations.DrvServiceMovesChunk
  intro s hinv hcfg htab hd
  have hn := intrChunk_le_used s
  have hinv' := afterChunk_ringInv hinv hn
  obtain ⟨r, d, e, -, hrun, -⟩ := encoderFill_ok hinv' (htab.congr rfl rfl) (hcfg.congr rfl rfl rfl rfl)
  exact ⟨afterChunk (intrChunk s) s, _, rfl, ringCodes_afterChunk hn, rfl, rfl, rfl, hinv', slotWord_congr rfl rfl,
    exec_encFill_ok hrun, exec_drvService_of_fill hd hrun⟩

theorem exec_drvService_ok {s t : State} (h : driverService s = .ok t) : exec .drvService s = .next t := by
  change settle (driverService s) = _
  rw [h]; rfl

/-- `EV.THR` answers what `DRV.SERVICE` leaves of the state its entry left: the return restores nothing (R343). -/
theorem exec_evThr_ok {s t : State} (h : driverService (eventEntry .thr s) = .ok t) : exec .evThr s = .next t := by
  change settle ((driverService (eventEntry .thr s)).map eventReturn) = _
  rw [h]; rfl

/-- Settles O32: the handler is `DRV.SERVICE` on the state its entry left. -/
theorem evThrServices : Obligations.EvThrServices := by
  unfold Obligations.EvThrServices
  intro s hinv hcfg htab hd
  obtain ⟨r, d, e, -, -, hrun, -⟩ := driverService_ok (s := eventEntry .thr s) (hinv.congr rfl rfl) (htab.congr rfl rfl)
    (hcfg.congr rfl rfl rfl rfl) hd
  have hbound := chunk_bound (s := eventEntry .thr s) hd
  refine ⟨_, exec_drvService_ok hrun, exec_evThr_ok hrun, ?_⟩
  split
  · exact ⟨rfl, rfl, rfl, hbound⟩
  · exact ⟨rfl, rfl, rfl, hbound⟩

/-- Settles O33: the handler's updates, one after the other; `TX.DISABLE` clears the pending bits anyway. -/
theorem evTxdoneEndsFrame : Obligations.EvTxdoneEndsFrame := by
  unfold Obligations.EvTxdoneEndsFrame
  exact fun s => rfl

/-! ### CQ_SEND (R240 to R242, R245) -/

theorem scratchWord_congr {s t : State} (h : t.cq.scratch = s.cq.scratch) (j : Nat) : scratchWord t j = scratchWord s j := by
  unfold scratchWord; rw [h]

/-- The state in which a chunk of n codes has been copied and `CQ_N` set (R241). -/
def chunkCopied (n : Nat) (s : State) : State :=
  { s with cq := { s.cq with scratch := (afterCopy 0 ((ringCodes s).take n) s).cq.scratch, n := n } }

theorem scratchWord_chunkCopied (n j : Nat) (s : State) :
    scratchWord (chunkCopied n s) j = scratchWord (afterCopy 0 ((ringCodes s).take n) s) j := scratchWord_congr rfl j

theorem scratchWord_chunkCopied_lt {n j : Nat} {s : State} (hn : n ≤ s.ring.used) (hj : j < n) :
    some (scratchWord (chunkCopied n s) j) = ((ringCodes s).take n)[j]? := by
  have hlen : j < ((ringCodes s).take n).length := by simp; omega
  rw [scratchWord_chunkCopied, afterCopy_scratch, dif_pos ⟨Nat.zero_le _, hlen⟩, List.getElem?_eq_getElem hlen]
  rfl

theorem scratchWord_chunkCopied_ge {n j : Nat} (s : State) (hj : n ≤ j) :
    scratchWord (chunkCopied n s) j = scratchWord s j := by
  rw [scratchWord_chunkCopied, afterCopy_scratch, dif_neg (by simp only [List.length_take]; omega)]

/-- What is handed over is the chunk (R85, R241). -/
theorem scratchRun_chunkCopied {n : Nat} {s : State} (hn : n ≤ s.ring.used) :
    scratchRun (chunkCopied n s) n = (ringCodes s).take n := by
  have hlen : ((ringCodes s).take n).length = n := by simp; omega
  have hrun := afterCopy_run ((ringCodes s).take n) s
  rw [hlen] at hrun
  exact hrun

/-- `TX.TRANSMIT` accepts the codes, or rejects them with the first p of them on the wire already (R311). -/
theorem txTransmit_cases (codes : List Word) (s : State) : ∃ e : Env,
    txTransmit codes s = (true, { s with env := e, hw := { s.hw with txmem := s.hw.txmem ++ codes, txEn := true } }) ∨
    ∃ p, p ≤ codes.length ∧
      txTransmit codes s = (false, { s with env := e, hw := { s.hw with wire := s.hw.wire ++ codes.take p } }) := by
  have htx := txTransmit_eq codes s
  dsimp only at htx
  split at htx
  · exact ⟨_, .inl htx⟩
  · exact ⟨_, .inr ⟨_, Nat.le_of_lt_succ (Nat.mod_lt _ (Nat.succ_pos _)), htx⟩⟩

/-- The hand-over of a copied chunk of n codes: it is awaited, or the frame is aborted (R240, R242). -/
def handOver (n : Nat) (u : State) : State :=
  let r := txTransmit (scratchRun u n) u
  if r.1 then { r.2 with cq := { r.2.cq with phase := .await } } else transmitFailed n r.2

theorem cqSend_drained {s : State} (h : s.ring.used = 0 ∧ s.hasData = false) : cqSend s = .ok (cqFinish .ok .none s) := by
  unfold cqSend
  rw [if_pos (frameDrained_iff.2 h)]

theorem cqSend_undrained {s : State} (h : ¬ (s.ring.used = 0 ∧ s.hasData = false)) :
    cqSend s = .ok (handOver (min s.params.maxChunk s.ring.used) (chunkCopied (min s.params.maxChunk s.ring.used) s)) := by
  unfold cqSend
  rw [if_neg (mt frameDrained_iff.1 h)]
  dsimp only
  rw [copyChunk_ok (by omega), List.drop_zero, afterCopy_frame]
  exact (apply_ite Except.ok _ _ _).symm

theorem exec_drvCqstep_send {s : State} (hp : s.cq.phase = .send) : exec .drvCqstep s = settle (cqSend s) := by
  change settle (cqStep s) = _
  unfold cqStep
  rw [hp]

/-- Settles O35: a drained frame is finished, else the chunk is accepted or rejected. -/
theorem cqSendHandsOver : Obligations.CqSendHandsOver := by
  unfold Obligations.CqSendHandsOver
  intro s hp
  rw [exec_drvCqstep_send hp]
  refine ⟨fun hused hdata => ?_, fun hnot => ?_⟩
  · rw [cqSend_drained ⟨hused, hdata⟩]; rfl
  · intro n chunk
    have hn : n ≤ s.ring.used := Nat.min_le_right _ _
    refine ⟨_, congrArg settle (cqSend_undrained hnot), ?_⟩
    unfold handOver
    rw [scratchRun_chunkCopied hn]
    obtain ⟨e, htx | ⟨p, hle, htx⟩⟩ := txTransmit_cases chunk (chunkCopied n s)
    · rw [htx]
      exact ⟨fun j => scratchWord_chunkCopied_lt hn, fun j => scratchWord_chunkCopied_ge s, .inl rfl⟩
    · rw [htx]
      exact ⟨fun j => scratchWord_chunkCopied_lt hn, fun j => scratchWord_chunkCopied_ge s,
        .inr ⟨p, hle.trans (List.length_take_le _ _), rfl⟩⟩

/-! ### CQ_AWAIT (R240, R243, R244) -/

theorem Env.draw_sources (e : Env) : e.draw.2.sources = e.sources := by
  unfold Env.draw; split <;> rfl

theorem Env.draw_srcDraws (e : Env) : e.draw.2.srcDraws = e.srcDraws := by
  unfold Env.draw; split <;> rfl

/-- `TX.AWAIT` succeeds, on an empty `TXMEM` and without touching a data source, or fails and empties `TXMEM` (R312). -/
theorem txAwait_cases (s : State) : ∃ e : Env, e.sources = s.env.sources ∧ e.srcDraws = s.env.srcDraws ∧
    ((s.hw.txmem = [] ∧ txAwait s = (true, { s with env := e })) ∨
      txAwait s = (false, { s with env := e, hw := { s.hw with txmem := [] } })) := by
  have htx := txAwait_eq s
  dsimp only at htx
  split at htx
  · rename_i hempty
    have hm : s.hw.txmem = [] := List.isEmpty_iff.1 hempty
    have hhw : ({ s.hw with txmem := [] } : Hwtx) = s.hw := by rw [← hm]
    refine ⟨(s.env.note 0x13 [s.params.timeout]).draw.2, Env.draw_sources _, Env.draw_srcDraws _, ?_⟩
    rw [htx, hhw]
    cases (s.env.note 0x13 [s.params.timeout]).draw.1.getLsbD 0
    · exact .inr rfl
    · exact .inl ⟨hm, rfl⟩
  · exact ⟨s.env.note 0x13 [s.params.timeout], rfl, rfl, .inr htx⟩

/-- The state in which the awaited chunk has been consumed and counted (R244). -/
def chunkConsumed (s : State) : State :=
  { countEntries s.cq.n (afterAdvance s.cq.n s) with cq := { s.cq with n := 0 } }

theorem advanceAndFill_eq {s : State} (h : s.cq.n ≤ s.ring.used) : advanceAndFill s = encoderFill (chunkConsumed s) := by
  unfold advanceAndFill
  rw [ringAdvance_ok h]; rfl

theorem chunkConsumed_ringInv {s : State} (hinv : RingInv s) (h : s.cq.n ≤ s.ring.used) : RingInv (chunkConsumed s) :=
  (afterAdvance_ringInv hinv h).congr rfl rfl

theorem ringCodes_chunkConsumed {s : State} (h : s.cq.n ≤ s.ring.used) :
    ringCodes (chunkConsumed s) = (ringCodes s).drop s.cq.n :=
  (ringCodes_congr rfl rfl).trans (ringCodes_afterAdvance h)

theorem exec_drvCqstep_await {s : State} (hp : s.cq.phase = .await) : exec .drvCqstep s = settle (cqAwait s) := by
  change settle (cqStep s) = _
  unfold cqStep
  rw [hp]

/-- A confirmed chunk is consumed, `ENC.FILL` leaves v, and the loop goes on. -/
theorem cqAwait_confirmed {s a v : State} (hx : txAwait s = (true, a)) (hn : a.cq.n ≤ a.ring.used)
    (hv : encoderFill (chunkConsumed a) = .ok v) : cqAwait s = .ok { v with cq := { v.cq with phase := .send } } := by
  unfold cqAwait
  rw [hx]
  simp only [if_true, advanceAndFill_eq hn, hv]
  rfl

theorem cqAwait_timedOut {s a : State} (hx : txAwait s = (false, a)) :
    cqAwait s = .ok (cqFinish .aborted .timeoutError (noteTimeout a.cq.n a)) := by
  unfold cqAwait
  rw [hx]
  rfl

/-- Settles O36: the two answers of `TX.AWAIT`. -/
theorem cqAwaitConfirmsOrTimesOut : Obligations.CqAwaitConfirmsOrTimesOut := by
  unfold Obligations.CqAwaitConfirmsOrTimesOut
  intro s hinv hcfg htab hp hn
  rw [exec_drvCqstep_await hp]
  obtain ⟨e, hsrc, hdraws, ⟨hm, hx⟩ | hx⟩ := txAwait_cases s
  · have hinv' : RingInv (chunkConsumed { s with env := e }) :=
      chunkConsumed_ringInv (s := { s with env := e }) (hinv.congr rfl rfl) hn
    have hcodes : ringCodes (chunkConsumed { s with env := e }) = (ringCodes s).drop s.cq.n :=
      (ringCodes_chunkConsumed (s := { s with env := e }) hn).trans (congrArg _ (ringCodes_congr rfl rfl))
    obtain ⟨r, d, e', -, hrun, -⟩ := encoderFill_ok hinv' (htab.congr rfl rfl) (hcfg.congr rfl rfl rfl rfl)
    rw [cqAwait_confirmed hx hn hrun]
    exact ⟨_, rfl, .inl ⟨hm, chunkConsumed { s with env := e }, _, rfl, hcodes, rfl, rfl, rfl, hinv', hsrc, hdraws,
      slotWord_congr rfl rfl, exec_encFill_ok hrun, rfl⟩⟩
  · rw [cqAwait_timedOut hx]
    exact ⟨_, rfl, .inr rfl⟩

/-! ### Frame pacing (R251) -/

theorem settle_bgWaitFirst (s : State) :
    settle (bgWaitFirst s) =
      if s.cfg.strategy = .cq then .next (replied s.seq.cur 0x00 0 s)
      else if s.notify = true then .next (replied s.seq.cur 0x00 0 { s with notify := false })
      else if s.drvState = .idle then .next (replied s.seq.cur 0x00 0 s)
      else .next { s with ports := s.ports.modify s.seq.cur fun p => { p with bgw := true } } := by
  unfold bgWaitFirst
  simp only [apply_ite settle]
  rfl

/-- Settles O37: the channel states in which the command is refused, then its first step. -/
theorem bgWaitStarts : Obligations.BgWaitStarts := by
  unfold Obligations.BgWaitStarts
  intro s
  change settle (whenReady 0x40 s (bgWaitFirst s)) = _
  by_cases hreset : s.chState = .reset
  · rw [whenReady_of_reset hreset, if_pos hreset]; rfl
  rw [if_neg hreset]
  by_cases hhalted : s.chState = .halted
  · rw [whenReady_of_halted hhalted, if_pos hhalted]; rfl
  have hready : s.chState = .ready := by cases h : s.chState <;> simp_all
  rw [if_neg hhalted, whenReady_of_ready hready, settle_bgWaitFirst]

/-- The wait's end is one update of its port. -/
theorem endWait_eq (k : Nat) (rc : ResultCode) (e : ErrCode) (s : State) :
    endWait k rc e s = waitEnded k (rstatByte rc e) s := by
  unfold endWait completePort modPort waitEnded
  simp only [List.modify_modify_eq]
  rfl

/-- The timeout abort as one update: the frame's end, the call of `TX.DISABLE` and the record, in any order. -/
theorem abortFrameIntr_eq (s : State) :
    abortFrameIntr s = frameEnded (called 0x14 [] (recorded 3 (BitVec.ofNat 32 s.ring.used) { s with
      cnt := { s.cnt with timeouts := s.cnt.timeouts + 1 }
      thrIe := false, doneIe := false, hw := hwDisabled s.hw })) := rfl

/-- Settles O38: the cases of PACER's step, each the end of the wait on a state of its own. -/
theorem pacerEndsWait : Obligations.PacerEndsWait := by
  unfold Obligations.PacerEndsWait
  intro s k hl hf hw
  rw [step_lined hl (enabled_pacer_iff.2 ⟨hf, hw⟩)]
  change Host.Outcome.next (pacerStep k (scheduled s)) = _
  unfold pacerStep
  simp only [endWait_eq, abortFrameIntr_eq]
  rfl

end Sys2Proof.Machine
end

section
/-! PROOFS. Channel control (45_orchestrator.md): `CH.INIT` with its checks and its outcomes, `PAUSE`, `STATUS` and
`CH.TEARDOWN`, and what halts a channel. -/

namespace Sys2Proof.Machine

/-! ### The fields of a descriptor as numbers (R32 to R34) -/

theorem Cfg.width_eq (c : Cfg) : c.width = c.cfg0.toNat % 64 := by
  simp [Cfg.width]

theorem Cfg.reserved_eq_zero (c : Cfg) : c.reserved = 0 ↔ c.cfg0.toNat / 1024 % 64 = 0 := by
  rw [← BitVec.toNat_inj]
  simp [Cfg.reserved, Nat.shiftRight_eq_div_pow]

/-- A configuration bit as an arithmetic condition. -/
theorem getLsbD_eq_decide (w : Word) (i : Nat) : w.getLsbD i = decide (w.toNat / 2 ^ i % 2 = 1) := by
  rw [← BitVec.testBit_toNat, Nat.testBit_eq_decide_div_mod_eq]

theorem Cfg.strategy_eq (c : Cfg) : c.strategy = if c.cfg0.toNat / 512 % 2 = 0 then .intr else .cq := by
  unfold Cfg.strategy
  rw [getLsbD_eq_decide]
  rcases Nat.mod_two_eq_zero_or_one (c.cfg0.toNat / 512) with h | h <;> simp [h]

theorem strategySupported_eq_false (p : Params) (c : Cfg) : strategySupported p c.strategy = false ↔
    ¬ (if c.cfg0.toNat / 512 % 2 = 0 then p.intrSupported = true else p.cqSupported = true) := by
  rw [Cfg.strategy_eq]
  split <;> simp [strategySupported]

/-- Bits 7 and 8 of `CFG0` as one number: a trailer is enabled if it is not 0. -/
theorem Cfg.slotsPerValue_eq (c : Cfg) :
    c.slotsPerValue = c.cfg0.toNat % 64 + if c.cfg0.toNat / 128 % 4 ≠ 0 then 1 else 0 := by
  unfold Cfg.slotsPerValue Cfg.stopEn Cfg.eofEn
  rw [Cfg.width_eq, getLsbD_eq_decide, getLsbD_eq_decide]
  congr 1
  refine if_congr ?_ rfl rfl
  simp only [Bool.or_eq_true, decide_eq_true_eq]
  omega

theorem Cfg.framing_eq (c : Cfg) : c.idleBits + c.startBits = c.cfg1.toNat % 65536 + c.cfg1.toNat / 65536 := by
  have h := c.cfg1.isLt
  simp [Cfg.idleBits, Cfg.startBits, Nat.shiftRight_eq_div_pow]
  omega

/-- The checks on a latched descriptor, in their order (R271). -/
theorem configCheck_latched (d : Descriptor) (s : State) : configCheck (latchConfig d s) =
    if d.word0.toNat % 64 = 0 ∨ 32 < d.word0.toNat % 64 then some 0x11
    else if d.word0.toNat / 1024 % 64 ≠ 0 then some 0x12
    else if ¬ (if d.word0.toNat / 512 % 2 = 0 then s.params.intrSupported = true else s.params.cqSupported = true) then
      some 0x13
    else if findSource s d.word2 = none then some 0x14
    else if s.params.ringCap ≤ d.word0.toNat % 64 + if d.word0.toNat / 128 % 4 ≠ 0 then 1 else 0 then some 0x15
    else if s.params.ringCap < d.word1.toNat % 65536 + d.word1.toNat / 65536 then some 0x16
    else none := by
  unfold configCheck
  rw [Cfg.width_eq, Cfg.slotsPerValue_eq, Cfg.framing_eq]
  refine if_congr Iff.rfl rfl (if_congr (not_congr (Cfg.reserved_eq_zero _)) rfl (if_congr ?_ rfl rfl))
  exact strategySupported_eq_false _ _

/-! ### CH.INIT (R270 to R272, R331) -/

theorem exec_chInit_of_ready {s : State} (h : s.chState = .ready) :
    exec .chInit s = .next (faulted 0x20 10 (portOf s s.seq.cur).arg s) := by
  change settle (channelInit s) = _
  unfold channelInit; rw [h]; rfl

theorem exec_chInit_of_halted {s : State} (h : s.chState = .halted) :
    exec .chInit s = .next (replied s.seq.cur 0x05 0 s) := by
  change settle (channelInit s) = _
  unfold channelInit; rw [h]; rfl

theorem exec_chInit_of_reset {s : State} (h : s.chState = .reset) :
    exec .chInit s = .next (match findDesc s (portOf s s.seq.cur).arg with
      | none => configFailed 0x10 s
      | some d => checkAndInstall (latchConfig d s)) := by
  change settle (channelInit s) = _
  unfold channelInit argOperand
  rw [h]
  cases findDesc s (portOf s s.seq.cur).arg <;> rfl

theorem exec_chInit_latched {s : State} {d : Descriptor} (h : s.chState = .reset)
    (hd : findDesc s (portOf s s.seq.cur).arg = some d) :
    exec .chInit s = .next (checkAndInstall (latchConfig d s)) := by
  rw [exec_chInit_of_reset h, hd]

theorem checkAndInstall_of_check {s : State} {info : Word} (h : configCheck s = some info) :
    checkAndInstall s = configFailed info s := by
  unfold checkAndInstall; rw [h]; rfl

/-- Past the checks the outcome of the install decides. -/
theorem checkAndInstall_of_install {s : State} (h : configCheck s = none) :
    checkAndInstall s = match (installTable s.cfg.tblHandle s).1 with
      | some info => configFailed info (installTable s.cfg.tblHandle s).2
      | none => finishInit (installTable s.cfg.tblHandle s).2 := by
  unfold checkAndInstall
  rw [h]
  rcases installTable s.cfg.tblHandle s with ⟨_ | info, t⟩ <;> rfl

/-- Settles O44: each clause is one branch of the checks, those before it not taken. -/
theorem chInitChecks : Obligations.ChInitChecks := by
  unfold Obligations.ChInitChecks
  refine fun s => ⟨exec_chInit_of_ready, exec_chInit_of_halted, fun hreset hnone => ?_, fun d hreset hd => ?_⟩
  · rw [exec_chInit_of_reset hreset, hnone]
  · intro u w slots
    have hcheck := configCheck_latched d s
    have hfail : ∀ {info : Word}, configCheck (latchConfig d s) = some info →
        exec .chInit s = .next (configFailed info u) := fun h => by
      rw [exec_chInit_latched hreset hd, checkAndInstall_of_check h]; rfl
    refine ⟨fun hw => hfail ?_, fun hpos hle => ?_⟩
    · rw [hcheck, if_pos hw]
    rw [if_neg (by omega)] at hcheck
    refine ⟨fun hres => hfail ?_, fun hres => ?_⟩
    · rw [hcheck, if_pos hres]
    rw [if_neg (not_not.2 hres)] at hcheck
    refine ⟨fun hsup => hfail ?_, fun hsup => ?_⟩
    · rw [hcheck, if_pos hsup]
    rw [if_neg (not_not.2 hsup)] at hcheck
    refine ⟨fun hsrc => hfail ?_, fun hsrc => ?_⟩
    · rw [hcheck, if_pos hsrc]
    rw [if_neg hsrc] at hcheck
    refine ⟨fun hcap => hfail ?_, fun hcap hframing => hfail ?_⟩
    · rw [hcheck, if_pos hcap]
    · rw [hcheck, if_neg (Nat.not_le.2 hcap), if_pos hframing]

/-- The latches of the sequencer are no part of an install. -/
theorem installTable_seq (h : Word) (q : SeqState) (s : State) :
    installTable h { s with seq := q } = ((installTable h s).1, { (installTable h s).2 with seq := q }) := by
  cases hf : findTable s h with
  | none => rw [installTable_none (s := { s with seq := q }) hf, installTable_none hf]
  | some ws =>
    rw [installTable_some (s := { s with seq := q }) hf, installTable_some hf]
    dsimp only
    split
    · rfl
    · split
      · split <;> rfl
      · rfl

/-- A failed install changes the table only. -/
theorem installTable_fail_frame {h : Word} {s : State} {info : Word} (hi : (installTable h s).1 = some info) :
    (installTable h s).2 = { s with tbl := (installTable h s).2.tbl } := by
  have hframe := installTable_frame h s
  rw [installTable_fail hi] at hframe
  exact hframe

/-- A successful install changes the table and sets `TBL_OK`. -/
theorem installTable_ok_frame {h : Word} {s : State} (hi : (installTable h s).1 = none) :
    (installTable h s).2 = { s with tbl := (installTable h s).2.tbl, tblOk := true } := by
  have hframe := installTable_frame h s
  rw [(installTable_ok hi).1] at hframe
  exact hframe

/-- A list that ends in time, at the sentinel, and covers the required symbols the table lacks is installed (R150). -/
theorem installTable_covering {h : Word} {ws : List Word} {s : State} (hf : findTable s h = some ws)
    (hn : listedCount h ws s.params.maxTableEntries < s.params.maxTableEntries)
    (ht : recordTag h ws (listedCount h ws s.params.maxTableEntries) = listEndTag)
    (hcover : ∀ b ∈ s.cfg.required, (s.tbl.get b).valid = true ∨
      ∃ j, j < listedCount h ws s.params.maxTableEntries ∧ recordTag h ws j = b.tag) :
    (installTable h s).1 = none := by
  rw [installTable_ended hf hn.ne ht, Option.map_eq_none_iff, missingSymbol_eq_none]
  intro b hb
  rw [installTable_get hf]
  cases hl : lastRecord h ws (listedCount h ws s.params.maxTableEntries) b with
  | some j => rfl
  | none =>
    rcases hcover b hb with hv | ⟨j, hj, htag⟩
    · exact hv
    · exact absurd htag (lastRecord_eq_none.1 hl j hj)

/-- The end of `CH.INIT` on a channel whose list is present (R270). -/
theorem finishInit_of_list {s : State} {ws : List Word} (hf : findTable s s.cfg.tblHandle = some ws) :
    let js := mismatches s.tbl s.cfg.tblHandle ws s.params.maxTableEntries
    finishInit s = replied s.seq.cur (if js.isEmpty then 0x00 else 0x50) 0
      (called 0x11 [s.params.timingResolution, s.cfg.pin.setWidth 32, BitVec.ofNat 32 s.params.hwDepth]
        (mismatchesLogged s.cfg.tblHandle ws js { s with
          chState := .ready
          hw := { hwDisabled s.hw with configured := true }
          registry := if (s.cfg.channelId, s.params.channel) ∈ s.registry then s.registry
            else s.registry ++ [(s.cfg.channelId, s.params.channel)] })) := by
  dsimp only
  rw [finishInit_eq, ← rstatByte_mismatchCode]
  unfold initState
  rw [validateTable_some hf]
  rfl

/-- Past the checks, a failed install ends `CH.INIT` with its info (R270, R331). -/
theorem exec_chInit_of_install_fail {s : State} {d : Descriptor} {info : Word} (hreset : s.chState = .reset)
    (hd : findDesc s (portOf s s.seq.cur).arg = some d) (hcheck : configCheck (latchConfig d s) = none)
    (hi : (installTable d.word3 (latchConfig d s)).1 = some info) :
    exec .chInit s = .next (configFailed info
      { latchConfig d s with tbl := (installTable d.word3 (latchConfig d s)).2.tbl }) := by
  have hinstall : (installTable (latchConfig d s).cfg.tblHandle (latchConfig d s)).1 = some info := hi
  rw [exec_chInit_latched hreset hd, checkAndInstall_of_install hcheck, hinstall, ← installTable_fail_frame hi]
  rfl

/-- Past the checks, a successful install ends `CH.INIT` in READY (R270). -/
theorem exec_chInit_of_install_ok {s : State} {d : Descriptor} (hreset : s.chState = .reset)
    (hd : findDesc s (portOf s s.seq.cur).arg = some d) (hcheck : configCheck (latchConfig d s) = none)
    (hi : (installTable d.word3 (latchConfig d s)).1 = none) :
    exec .chInit s = .next (finishInit
      { latchConfig d s with tbl := (installTable d.word3 (latchConfig d s)).2.tbl, tblOk := true }) := by
  have hinstall : (installTable (latchConfig d s).cfg.tblHandle (latchConfig d s)).1 = none := hi
  rw [exec_chInit_latched hreset hd, checkAndInstall_of_install hcheck, hinstall, ← installTable_ok_frame hi]
  rfl

/-- Settles O45: the answer of `XLAT.CFG` tells which way the install went. -/
theorem chInitConfigures : Obligations.ChInitConfigures := by
  unfold Obligations.ChInitConfigures
  intro s u d hreset hd hu hcheck
  obtain rfl : u = latchConfig d s := hu
  obtain ⟨v, hv, -, htbl, hdone, hfail⟩ := exec_xlatCfg { latchConfig d s with seq := { s.seq with opnd := d.word3 } }
  rw [installTable_seq] at htbl hdone hfail
  refine ⟨v, hv, fun info hanswer => ?_, fun ws hf hn hend hcover => ?_⟩
  · have hi : (installTable d.word3 (latchConfig d s)).1 = some info := by
      cases hi : (installTable d.word3 (latchConfig d s)).1 with
      | none => rw [(hdone hi).1] at hanswer; cases hanswer
      | some i => rw [(hfail i hi).1] at hanswer; cases hanswer; rfl
    rw [exec_chInit_of_install_fail hreset hd hcheck hi, htbl]
  · have hi : (installTable d.word3 (latchConfig d s)).1 = none :=
      installTable_covering (s := latchConfig d s) hf hn hend hcover
    refine ⟨(hdone hi).1, ?_⟩
    rw [exec_chInit_of_install_ok hreset hd hcheck hi, finishInit_of_list hf, htbl]
    rfl

/-! ### PAUSE (R281) -/

theorem exec_pause (p : Bool) (s : State) :
    exec (.pause p) s = settle (whenReady 0x52 s (.ok (replied s.seq.cur 0x00 0 { s with paused := p }))) := rfl

/-- Settles O50: the three channel states of a command that needs a READY channel. -/
theorem pauseWritesFlag : Obligations.PauseWritesFlag := by
  unfold Obligations.PauseWritesFlag
  intro p s
  rw [exec_pause]
  split
  · rename_i hreset
    rw [whenReady_of_reset hreset]; rfl
  · rename_i hhalted
    rw [whenReady_of_halted hhalted]; rfl
  · rename_i hready
    rw [whenReady_of_ready hready]; rfl

/-! ### STATUS (R126, R283, R284) -/

/-- Where each part of twelve concatenated parts of these widths stands. -/
theorem parts_of_append (top : BitVec 8) (id : BitVec 8) (gap : BitVec 2) (notify data : BitVec 1) (err : BitVec 4)
    (restart : BitVec 1) (chan : BitVec 2) (drv : BitVec 1) (phase : BitVec 2) (paused strategy : BitVec 1) :
    let w : BitVec (8 + 8 + 2 + 1 + 1 + 4 + 1 + 2 + 1 + 2 + 1 + 1) :=
      top ++ id ++ gap ++ notify ++ data ++ err ++ restart ++ chan ++ drv ++ phase ++ paused ++ strategy
    w.extractLsb' 0 1 = strategy ∧ w.extractLsb' 1 1 = paused ∧ w.extractLsb' 2 2 = phase ∧ w.extractLsb' 4 1 = drv ∧
    w.extractLsb' 5 2 = chan ∧ w.extractLsb' 7 1 = restart ∧ w.extractLsb' 8 4 = err ∧ w.extractLsb' 12 1 = data ∧
    w.extractLsb' 13 1 = notify ∧ w.extractLsb' 14 2 = gap ∧ w.extractLsb' 16 8 = id ∧ w.extractLsb' 24 8 = top := by
  intro w
  simp (disch := decide) only [w, BitVec.extractLsb'_append_eq_of_le, BitVec.extractLsb'_append_eq_of_add_le,
    BitVec.extractLsb'_eq_self, Nat.reduceSub, and_self]

/-- A field of one bit, read as a bit. -/
theorem getLsbD_of_extractLsb' {w : Word} {i : Nat} {b : Bool} (h : w.extractLsb' i 1 = BitVec.ofBool b) :
    w.getLsbD i = b := by
  rw [BitVec.getLsbD_eq_extractLsb', h]; cases b <;> rfl

theorem Strategy.code_eq (x : Strategy) : x.code = BitVec.ofBool (decide (x = .cq)) := by cases x <;> rfl

theorem DrvState.code_eq (x : DrvState) : x.code = BitVec.ofBool (decide (x = .active)) := by cases x <;> rfl

theorem reportedPhase_toNat (s : State) :
    (reportedPhase s).toNat = if s.paused = true ∧ s.drvState = .idle then 3 else
        match s.orchPhase with | .idle => 0 | .framingEmit => 1 | .streaming => 2 := by
  unfold reportedPhase
  simp only [Bool.and_eq_true, beq_iff_eq]
  split
  · rfl
  · cases s.orchPhase <;> rfl

/-- The fields of word 0 of the snapshot, from bit 0 up; every other bit is 0 (R126, R284). -/
theorem snapFlags_fields (s : State) :
    (snapFlags s).getLsbD 0 = decide (s.cfg.strategy = .cq) ∧ (snapFlags s).getLsbD 1 = s.paused ∧
    (snapFlags s).extractLsb' 2 2 = reportedPhase s ∧ (snapFlags s).getLsbD 4 = decide (s.drvState = .active) ∧
    (snapFlags s).extractLsb' 5 2 = s.chState.code ∧ (snapFlags s).getLsbD 7 = s.err.restartReq ∧
    (snapFlags s).extractLsb' 8 4 = s.err.lastErr ∧ (snapFlags s).getLsbD 12 = s.hasData ∧
    (snapFlags s).getLsbD 13 = s.notify ∧ (snapFlags s).extractLsb' 14 2 = 0 ∧
    (snapFlags s).extractLsb' 16 8 = s.cfg.channelId ∧ (snapFlags s).extractLsb' 24 8 = 0 := by
  obtain ⟨hstrategy, hpaused, hphase, hdrv, hchan, hrestart, herr, hdata, hnotify, hgap, hid, htop⟩ :=
    parts_of_append 0 s.cfg.channelId 0 (.ofBool s.notify) (.ofBool s.hasData) s.err.lastErr (.ofBool s.err.restartReq)
      s.chState.code s.drvState.code (reportedPhase s) (.ofBool s.paused) s.cfg.strategy.code
  exact ⟨getLsbD_of_extractLsb' (hstrategy.trans (Strategy.code_eq _)), getLsbD_of_extractLsb' hpaused, hphase,
    getLsbD_of_extractLsb' (hdrv.trans (DrvState.code_eq _)), hchan,
    getLsbD_of_extractLsb' hrestart, herr, getLsbD_of_extractLsb' hdata, getLsbD_of_extractLsb' hnotify, hgap, hid, htop⟩

theorem ChState.code_toNat (c : ChState) : c.code.toNat = match c with | .reset => 0 | .ready => 1 | .halted => 2 := by
  cases c <;> rfl

/-- Settles O51: the snapshot word is the result, and word 0 is read field by field. -/
theorem statusReadsSnapshot : Obligations.StatusReadsSnapshot := by
  unfold Obligations.StatusReadsSnapshot
  intro i s
  refine ⟨snapWord i s, rfl, ?word0, ?_, ?_, ?_, ?_, ?_, ?_, ?_⟩
  case word0 =>
    rintro rfl
    obtain ⟨hstrategy, hpaused, hphase, hdrv, hchan, hrest⟩ := snapFlags_fields s
    exact ⟨hstrategy, hpaused, (congrArg BitVec.toNat hphase).trans (reportedPhase_toNat s), hdrv,
      (congrArg BitVec.toNat hchan).trans (ChState.code_toNat _), hrest⟩
  all_goals rintro rfl; rfl

/-! ### CH.TEARDOWN (R286) -/

theorem exec_chTeardown (s : State) :
    exec .chTeardown s = settle (whenReady 0x54 s (reply .ok .none 0 (teardown s))) := rfl

/-- Settles O52: the updates of a teardown, written as one. -/
theorem chTeardownHalts : Obligations.ChTeardownHalts := by
  unfold Obligations.ChTeardownHalts
  intro s hready
  rw [exec_chTeardown, whenReady_of_ready hready, teardown_eq]
  rfl

/-! ### Halted channels (R287) -/

/-- Every host command but `STATUS` is refused, whatever its operands. -/
theorem exec_of_halted {i : Instr} {s : State} (hh : s.chState = .halted) (hi : i.hostIssued = true)
    (hs : ∀ n, i ≠ .status n) : exec i s = .next (replied s.seq.cur 0x05 0 s) := by
  cases i with
  | xlatVal | ringAvf | ringAvd | bgWait | frameStart | pause | chTeardown => exact congrArg settle (whenReady_of_halted hh)
  | xlatLkp t => exact congrArg settle (if_pos hh)
  | chInit => exact exec_chInit_of_halted hh
  | status n => exact absurd rfl (hs n)
  | _ => cases hi

/-- A channel that `CH.INIT` leaves halted has a recorded ConfigurationError (R270, R331). -/
theorem checkAndInstall_halted {s : State} (h : (checkAndInstall s).chState = .halted) :
    (checkAndInstall s).err.lastErr = 1 := by
  cases hc : configCheck s with
  | some info => rw [checkAndInstall_of_check hc]; rfl
  | none =>
    rw [checkAndInstall_of_install hc] at h ⊢
    cases hi : (installTable s.cfg.tblHandle s).1 with
    | some info => rfl
    | none => rw [hi] at h; cases h

theorem exec_chInit_halted {s t : State} (hreset : s.chState = .reset) (h : exec .chInit s = .next t)
    (hh : t.chState = .halted) : t.err.lastErr = 1 := by
  rw [exec_chInit_of_reset hreset] at h
  cases h
  cases hd : findDesc s (portOf s s.seq.cur).arg with
  | none => rfl
  | some d => rw [hd] at hh; exact checkAndInstall_halted hh

/-- Settles O15: only `CH.INIT` and `CH.TEARDOWN` write `CH_STATE`. -/
theorem haltedRefuses : Obligations.HaltedRefuses := by
  unfold Obligations.HaltedRefuses
  refine ⟨fun i s => exec_of_halted, fun n s _ => rfl, fun i s t h hh => ?_⟩
  by_cases hs : s.chState = .halted
  · exact .inl hs
  · right
    rcases (exec_effect h).channel (.inl (by rw [hh]; exact Ne.symm hs)) with ⟨rfl, hreset⟩ | ⟨rfl, -⟩
    · exact .inl ⟨rfl, exec_chInit_halted hreset h hh⟩
    · exact .inr rfl

end Sys2Proof.Machine
end

section
/-! PROOFS. The frame orchestrator (45_orchestrator.md): the refusals of `FRAME.START`, what its set-up stages, the prime of
an INTR frame and the start of the completion-queue loop. -/

namespace Sys2Proof.Machine

/-! ### Refusals (R274, R385) -/

theorem exec_frameStart (s : State) :
    exec .frameStart s = settle (whenReady 0x51 s
      (if s.paused then .ok (replied s.seq.cur 0x01 0 s)
        else if s.drvState = .active then .ok (replied s.seq.cur 0x02 0 s)
        else frameBegin s)) := rfl

/-- Settles O46: the checks in their order. -/
theorem frameStartRefusals : Obligations.FrameStartRefusals := by
  unfold Obligations.FrameStartRefusals
  intro s
  rw [exec_frameStart]
  refine ⟨fun hreset => ?_, fun hhalted => ?_, fun hready hpaused => ?_, fun hready hpaused hactive => ?_⟩
  · rw [whenReady_of_reset hreset]; rfl
  · rw [whenReady_of_halted hhalted]; rfl
  · rw [whenReady_of_ready hready, if_pos hpaused]; rfl
  · rw [whenReady_of_ready hready, if_neg (ne_true_of_eq_false hpaused), if_pos hactive]; rfl

/-! ### An accepted frame (R274) -/

theorem exec_frameStart_accepted {s t : State} (hready : s.chState = .ready) (hpaused : s.paused = false)
    (hidle : s.drvState = .idle) (ht : frameBegin s = .ok t) : exec .frameStart s = .next t := by
  rw [exec_frameStart, whenReady_of_ready hready, if_neg (ne_true_of_eq_false hpaused), if_neg (by rw [hidle]; decide), ht]
  rfl

theorem frameBegin_intr {s u v : State} (hu : frameSetup s = .ok u) (hi : u.cfg.strategy = .intr)
    (hv : primeIntr u = .ok v) : frameBegin s = .ok (replied v.seq.cur 0x00 0 v) := by
  unfold frameBegin
  simp only [hu, bind, Except.bind, hi, hv]
  rfl

theorem frameBegin_cq {s u : State} (hu : frameSetup s = .ok u) (hc : u.cfg.strategy = .cq) :
    frameBegin s = .ok { u with cq := { u.cq with port := u.seq.cur, phase := .send } } := by
  unfold frameBegin
  simp only [hu, bind, Except.bind, hc]

/-- The counters start over under the per-frame policy only (R276). -/
theorem startCounters_eq (s : State) : startCounters s = if s.params.counterPolicy = .perFrame then
    { entries := 0, fills := 0, overruns := 0, timeouts := 0, txErrs := 0 } else s.cnt := by
  unfold startCounters
  cases s.params.counterPolicy <;> rfl

/-! ### Which slots the set-up writes (R170, R172, R277) -/

theorem frameReset_leaves {s : State} (hd : s.drvState = .idle) :
    (frameReset s).Leaves (WritesBehind (afterReset s)) id := by
  unfold frameReset
  rw [ringReset_ok hd]
  simp only [bind, Except.bind, frameCounters_eq]
  exact .of_same rfl rfl

/-- The set-up empties the ring and then writes slots in order. -/
theorem frameSetup_writesBehind {s : State} (hd : s.drvState = .idle) :
    (frameSetup s).Leaves (WritesBehind (afterReset s)) id := by
  unfold frameSetup
  have hreset : WritesBehind (afterReset s) (afterReset { s with orchPhase := .framingEmit }) := .of_same rfl rfl
  refine Res.Leaves.bind (hreset.leaves_trans (frameReset_leaves hd)) fun t ht => ?_
  have hcalls : WritesBehind t { (srcMore (srcFrameStart t)).2 with hasData := (srcMore (srcFrameStart t)).1 } :=
    .of_same (by simp) (by simp)
  refine Res.Leaves.bind ((ht.trans hcalls).leaves_trans (emitSymbols_writesBehind _ _)) fun u hu => ?_
  exact Res.Leaves.bind (hu.leaves_trans (encoderFill_writesBehind u)) fun v hv => hv.trans (.of_same rfl rfl)

/-- The codes staged stand from slot 0 on; every slot past them reads as before. -/
theorem frameSetup_slots {s u : State} (hd : s.drvState = .idle) (hu : frameSetup s = .ok u) (i : Nat)
    (hi : u.ring.used ≤ i % s.params.ringCap) : slotWord u i = slotWord s i := by
  have hleaves := frameSetup_writesBehind hd
  rw [hu] at hleaves
  obtain ⟨n, -, hused, -, hslots⟩ := hleaves
  have hn : u.ring.used = n := hused.trans (Nat.zero_add n)
  refine (hslots i fun j hj => ?_).trans (slotWord_congr rfl rfl i)
  exact ne_of_gt (calc (0 + j) % s.params.ringCap
      ≤ 0 + j := Nat.mod_le _ _
    _ < i % s.params.ringCap := by omega)

/-! ### CQ frames (R274) -/

/-- Settles O48: the set-up, and the hand-off to the loop. -/
theorem frameStartCq : Obligations.FrameStartCq := by
  unfold Obligations.FrameStartCq
  intro s hwf hready hcfg htab hpaused hidle hcq
  obtain ⟨r, d, e, vs, hrun, hinv, -, hcodes, hzero, -, hstop, hridx⟩ := frameSetup_ok htab hcfg hidle hwf
  exact ⟨_, vs, startCounters s, exec_frameStart_accepted hready hpaused hidle (frameBegin_cq hrun hcq), startCounters_eq s,
    rfl, hinv.congr rfl rfl, hridx, (ringCodes_congr rfl rfl).trans hcodes, hstop,
    fun i hi => (slotWord_congr rfl rfl i).trans (frameSetup_slots hidle hrun i hi), hzero⟩

/-! ### CQ frames of a list source (R279, R304) -/

/-- `SRC.FRAMESTART` puts the cursor of a list source back to the start (R302, R304). -/
theorem Env.frameStart_list {e : Env} {h : Word} {all rest : List Word} (hs : e.source h = .list all rest) :
    (e.frameStart h).source h = .list all all := by
  obtain ⟨hne, hlookup⟩ := Env.source_list hs
  unfold Env.frameStart
  rw [hs]
  unfold Env.source
  rw [if_neg hne, lookup_replaceSource hlookup]
  rfl

/-- After the two calls that begin a frame of a list source: the cursor at the start, and whether the list has a value. -/
theorem openingEnv_list {s : State} {all rest : List Word}
    (hs : findSource s s.cfg.srcHandle = some (.list all rest)) :
    (openingEnv s).1 = !all.isEmpty ∧ (openingEnv s).2.source s.cfg.srcHandle = .list all all := by
  have hstart : (((s.env.note 0x03 []).frameStart s.cfg.srcHandle).note 0x01 []).source s.cfg.srcHandle = .list all all :=
    Env.frameStart_list (e := s.env.note 0x03 []) (source_of_findSource hs)
  unfold openingEnv
  rw [Env.more_list hstart]
  exact ⟨rfl, hstart⟩

/-- The set-up of a frame of a list source stages the framing and the codes of the list's first k values. -/
theorem frameSetup_list {s : State} {all rest : List Word} (htab : TableComplete s) (hcfg : Configured s)
    (hidle : s.drvState = .idle) (hs : findSource s s.cfg.srcHandle = some (.list all rest)) :
    ∃ (u : State) (k : Nat), frameSetup s = .ok u ∧ u.cfg = s.cfg ∧ k ≤ all.length ∧
      ringCodes u = framingCodes s ++ encodedValues s (decide (k < all.length)) (all.take k) ∧
      findSource u s.cfg.srcHandle = some (.list all (all.drop k)) ∧ u.hasData = decide (k < all.length) ∧
      (k < all.length → s.params.ringCap - u.ring.used ≤ s.cfg.slotsPerValue) := by
  obtain ⟨r, hopen, hinv, hframing, -⟩ := frameSetup_open htab hcfg hidle
  obtain ⟨hdata, hsource⟩ := openingEnv_list hs
  obtain ⟨v, k, hrun, hk, hcodes, hsrc, hmore, hstop⟩ := encoderFill_list (s := opened r s) (hinv.congr rfl rfl)
    (hcfg.congr rfl rfl rfl rfl) (htab.congr rfl rfl) (findSource_of_source_list hsource) hdata
  have hcore := encoderFill_coreSame (opened r s)
  rw [hrun] at hcore hopen
  obtain ⟨hparams, hcfgv, -⟩ := hcore
  have hstaged : ringCodes (opened r s) = framingCodes s := (ringCodes_congr rfl rfl).trans hframing
  rw [hstaged, encodedValues_congr (s := s) (t := opened r s) rfl rfl] at hcodes
  rw [show v.cfg.srcHandle = s.cfg.srcHandle from congrArg Cfg.srcHandle hcfgv] at hsrc
  exact ⟨_, k, hopen, hcfgv, hk, (ringCodes_congr rfl rfl).trans hcodes, hsrc, hmore, hstop⟩

/-- Settles O49: the hand-off to the loop leaves the ring, the flag and the source as the set-up left them. -/
theorem frameOfListSource : Obligations.FrameOfListSource := by
  unfold Obligations.FrameOfListSource
  intro s all rest hwf hready hcfg htab hpaused hidle hcq hs
  obtain ⟨u, k, hrun, hcfgu, hk, hcodes, hsrc, hmore, hstop⟩ := frameSetup_list htab hcfg hidle hs
  have hcodes' :=
    (ringCodes_congr (t := { u with cq := { u.cq with port := u.seq.cur, phase := .send } }) rfl rfl).trans hcodes
  refine ⟨_, k, exec_frameStart_accepted hready hpaused hidle (frameBegin_cq hrun (by rw [hcfgu]; exact hcq)), hk, hcodes',
    ?_, hmore, hk.eq_or_lt.imp_right hstop, ?_⟩
  · rw [show u.cfg.srcHandle = s.cfg.srcHandle from congrArg Cfg.srcHandle hcfgu]
    exact hsrc
  · rintro rfl
    simpa [encodedValues] using hcodes'

/-! ### The prime of an INTR frame (R225 to R228) -/

section
variable {n : Nat} {r : Ring} {d : Bool} {e : Env} {s : State}

/-- Apart from what the fill and the end test decide, a prime moves the chunk, counts it and the fill, and enables the
transmitter. -/
theorem primed_frame (n : Nat) (r : Ring) (d : Bool) (e : Env) (s : State) :
    let t := primed n r d e s
    t = { s with
      orchPhase := t.orchPhase, drvState := t.drvState, ring := t.ring, hasData := t.hasData
      cnt := { s.cnt with entries := s.cnt.entries + BitVec.ofNat 32 n, fills := s.cnt.fills + 1 }
      notify := t.notify, thrIe := t.thrIe, doneIe := t.doneIe
      hw := { s.hw with
        txmem := s.hw.txmem ++ (ringCodes s).take n, txEn := true
        thrPend := t.hw.thrPend, donePend := t.hw.donePend }
      env := t.env } := by
  unfold primed
  split <;> rfl

theorem primed_params (n : Nat) (r : Ring) (d : Bool) (e : Env) (s : State) :
    (primed n r d e s).params = s.params := by rw [primed_frame]

theorem primed_txmem (n : Nat) (r : Ring) (d : Bool) (e : Env) (s : State) :
    (primed n r d e s).hw.txmem = s.hw.txmem ++ (ringCodes s).take n := by rw [primed_frame]

theorem primed_ring (n : Nat) (r : Ring) (d : Bool) (e : Env) (s : State) : (primed n r d e s).ring = r := by
  unfold primed
  split <;> rfl

theorem primed_hasData (n : Nat) (r : Ring) (d : Bool) (e : Env) (s : State) : (primed n r d e s).hasData = d := by
  unfold primed
  split <;> rfl

/-- A frame that ended inside the prime: the notification is given, the events masked, their pending bits as before. -/
theorem primed_ended (h : r.used = 0) : primed n r d e s =
    { endFrameIntr (serviced n r d e s) with hw := { (serviced n r d e s).hw with txEn := true } } := if_pos h

/-- A frame in flight after the prime: its events are armed. -/
theorem primed_armed (h : r.used ≠ 0) : primed n r d e s =
    { serviced n r d e s with
      hw := { (serviced n r d e s).hw with txEn := true, thrPend := false, donePend := false }
      thrIe := true, doneIe := true } :=
  if_neg h

/-- With no data left the fill of a service writes nothing. -/
theorem serviced_of_no_data (hn : n ≤ s.ring.used) (hfill : encoderFill (afterChunk n s) = .ok (serviced n r d e s))
    (hdata : s.hasData = false) : d = false ∧ ringCodes { s with ring := r } = (ringCodes s).drop n := by
  have heq : fillCounted (afterChunk n s) = serviced n r d e s :=
    Except.ok.inj ((encoderFill_of_no_data (s := afterChunk n s) hdata).symm.trans hfill)
  have hring : (afterChunk n s).ring = r := congrArg State.ring heq
  have hd : s.hasData = d := congrArg State.hasData heq
  refine ⟨hd.symm.trans hdata, ?_⟩
  rw [← ringCodes_afterChunk hn, ← hring]
  exact ringCodes_congr rfl rfl

/-- A service on a ring read from slot 0 on writes the m slots past the staged codes. -/
theorem serviced_slots {m : Nat} (hinv : RingInv s) (hridx : s.ring.ridx = 0)
    (hfill : encoderFill (afterChunk n s) = .ok (serviced n r d e s)) (hm : r.used = s.ring.used - n + m) (i : Nat)
    (hi : s.ring.used + m ≤ i % s.params.ringCap) : slotWord (serviced n r d e s) i = slotWord s i := by
  have hlt : i % s.params.ringCap < s.params.ringCap := Nat.mod_lt _ (Nat.zero_lt_of_lt hinv.ridx_lt)
  have hwidx : s.ring.widx = s.ring.used := by
    rw [hinv.widx_eq, hridx, Nat.zero_add, Nat.mod_eq_of_lt (by omega)]
  refine (encoderFill_slots hfill i fun j hj => ?_).trans (slotWord_congr rfl rfl i)
  have hjm : s.ring.used + j < s.ring.used + m := Nat.add_lt_add_left (lt_of_lt_of_eq hj (Nat.sub_eq_of_eq_add' hm)) _
  change i % s.params.ringCap ≠ (s.ring.widx + j) % s.params.ringCap
  rw [hwidx, Nat.mod_eq_of_lt (a := s.ring.used + j) (by omega)]
  omega

end

/-- The codes of whole values, each with its trailer (R202, R204). -/
abbrev wholeValues (s : State) (vs : List (Word × Bool)) : List Word :=
  vs.flatMap fun v => valueCodes s v.1 ++ trailerCodes s v.2

/-- Whole values have codes: what is written is empty only if no value is. -/
theorem wholeValues_eq_nil {s : State} (hw : 1 ≤ s.cfg.width) {vs : List (Word × Bool)}
    (h : wholeValues s vs = []) : vs = [] := by
  cases vs with
  | nil => rfl
  | cons v vs =>
    rw [wholeValues, List.flatMap_cons, List.append_eq_nil_iff, List.append_eq_nil_iff] at h
    obtain ⟨⟨hvalue, -⟩, -⟩ := h
    have hlen := congrArg List.length hvalue
    rw [valueCodes_length, List.length_nil] at hlen
    omega

/-- What a prime that starts in u leaves (R225, R226, R228): the chunk has moved from the ring to `TXMEM` and is counted,
the whole values ws stand behind the rest, none if no data was left, and the frame is over or in flight with its events
armed. -/
structure FramePrimed (ws : List (Word × Bool)) (u t : State) : Prop where
  frame : t = { u with
    orchPhase := t.orchPhase, drvState := t.drvState, ring := t.ring, hasData := t.hasData
    cnt := { u.cnt with entries := u.cnt.entries + BitVec.ofNat 32 (intrChunk u), fills := u.cnt.fills + 1 }
    notify := t.notify, thrIe := t.thrIe, doneIe := t.doneIe
    hw := { u.hw with
      txmem := u.hw.txmem ++ (ringCodes u).take (intrChunk u), txEn := true
      thrPend := t.hw.thrPend, donePend := t.hw.donePend }
    env := t.env }
  ring : RingInv t
  bound : t.hw.txmem.length ≤ u.params.hwDepth
  ridx : t.ring.ridx = intrChunk u % u.params.ringCap
  codes : ringCodes t = (ringCodes u).drop (intrChunk u) ++ wholeValues u ws
  stop : t.hasData = true → u.params.ringCap - t.ring.used ≤ u.cfg.slotsPerValue
  noData : u.hasData = false → t.hasData = false ∧ ws = []
  slots : ∀ i, u.ring.used + (wholeValues u ws).length ≤ i % u.params.ringCap → slotWord t i = slotWord u i
  outcome :
    (t.ring.used = 0 ∧ t.hasData = false ∧ t.drvState = .idle ∧ t.orchPhase = .idle ∧ t.notify = true ∧
      t.thrIe = false ∧ t.doneIe = false ∧ t.hw.thrPend = u.hw.thrPend ∧ t.hw.donePend = u.hw.donePend) ∨
    (0 < t.ring.used ∧ t.drvState = u.drvState ∧ t.orchPhase = u.orchPhase ∧ t.notify = u.notify ∧ t.hw.txmem ≠ [] ∧
      t.thrIe = true ∧ t.doneIe = true ∧ t.hw.thrPend = false ∧ t.hw.donePend = false)

/-- The prime of a frame in flight on a configured channel whose ring is read from slot 0 on (R228). -/
theorem primeIntr_primed {u : State} (hparams : paramsOk u.params = true) (hinv : RingInv u) (hwf : u.ring.slots.wf = true)
    (hcfg : Configured u) (htab : TableComplete u) (hbound : u.hw.txmem.length ≤ u.params.hwDepth)
    (hactive : u.drvState = .active) (hridx : u.ring.ridx = 0) (hzero : u.ring.used = 0 → u.hasData = false) :
    ∃ (t : State) (ws : List (Word × Bool)), primeIntr u = .ok t ∧ FramePrimed ws u t := by
  obtain ⟨r, d, e, ws, hfill, hprime, hinv', -, hcodes, hended, -, -, hstop, hridx'⟩ :=
    primeIntr_ok hinv htab hcfg hbound hactive hwf
  have hn := intrChunk_le_used u
  have hstaged : r.used = u.ring.used - intrChunk u + (wholeValues u ws).length := by
    simpa using congrArg List.length hcodes
  have hring := primed_ring (intrChunk u) r d e u
  have hpar := primed_params (intrChunk u) r d e u
  refine ⟨_, ws, hprime, primed_frame _ r d e u, hinv'.congr hring hpar, ?_, ?_, ?_, ?_, fun hdata => ?_, fun i hi => ?_,
    ?_⟩
  · rw [primed_txmem]; exact chunk_bound hbound
  · rw [hring, hridx', hridx, Nat.zero_add]
  · exact (ringCodes_congr (s := { u with ring := r }) hring hpar).trans hcodes
  · rw [hring, primed_hasData]; exact hstop
  · obtain ⟨hd, hsame⟩ := serviced_of_no_data hn hfill hdata
    rw [hsame] at hcodes
    exact ⟨(primed_hasData ..).trans hd, wholeValues_eq_nil hcfg.width_pos (by simpa using hcodes)⟩
  · have hserved : slotWord (primed (intrChunk u) r d e u) i = slotWord (serviced (intrChunk u) r d e u) i :=
      slotWord_congr (s := serviced (intrChunk u) r d e u) (congrArg Ring.slots hring) hpar i
    exact hserved.trans (serviced_slots hinv hridx hfill hstaged i hi)
  · by_cases hr : r.used = 0
    · rw [primed_ended hr]
      exact .inl ⟨hr, hended hr, rfl, rfl, rfl, rfl, rfl, rfl, rfl⟩
    · have hused : 0 < u.ring.used := by
        by_contra hempty
        obtain ⟨-, hsame⟩ := serviced_of_no_data hn hfill (hzero (by omega))
        have hlen : r.used = u.ring.used - intrChunk u := by simpa using congrArg List.length hsame
        omega
      rw [primed_armed hr]
      exact .inr ⟨Nat.pos_of_ne_zero hr, rfl, rfl, rfl, chunk_nonempty hparams (.inl hused), rfl, rfl, rfl, rfl⟩

/-- Settles O47: the set-up, the prime on the state it leaves, and the reply. -/
theorem frameStartIntr : Obligations.FrameStartIntr := by
  unfold Obligations.FrameStartIntr
  intro s hparams hwf hready hcfg htab hpaused hidle hintr hbound
  obtain ⟨r, d, e, vs, hrun, hinv, hwf', hcodes, hzero, -, hstop, hridx⟩ := frameSetup_ok htab hcfg hidle hwf
  obtain ⟨p, ws, hprime, pframe, pring, pbound, pridx, pcodes, pstop, pnoData, pslots, poutcome⟩ :=
    primeIntr_primed (u := started r d e s) hparams (hinv.congr rfl rfl) hwf' (hcfg.congr rfl rfl rfl rfl)
      (htab.congr rfl rfl) hbound rfl hridx hzero
  have hcur : p.seq.cur = s.seq.cur := by rw [pframe]; rfl
  have hexec := exec_frameStart_accepted hready hpaused hidle (frameBegin_intr hrun hintr hprime)
  rw [hcur] at hexec
  have hfills : (startCounters s).fills + 1 + 1 = (startCounters s).fills + 2 := BitVec.add_assoc ..
  refine ⟨started r d e s, replied s.seq.cur 0x00 0 p, vs, ws, startCounters s, startCounters_eq s, hinv.congr rfl rfl, rfl,
    hridx, (ringCodes_congr rfl rfl).trans hcodes, hstop, pnoData, hexec, ?_, pring.congr rfl rfl, pbound, pridx,
    (ringCodes_congr rfl rfl).trans pcodes, pstop, fun i hi => ?_, poutcome⟩
  · refine (congrArg (replied s.seq.cur 0x00 0) pframe).trans ?_
    rw [← hfills]
    rfl
  · calc slotWord (replied s.seq.cur 0x00 0 p) i
        = slotWord p i := slotWord_congr rfl rfl i
      _ = slotWord (started r d e s) i := pslots i hi
      _ = slotWord s i := frameSetup_slots hidle hrun i ((Nat.le_add_right _ _).trans hi)

end Sys2Proof.Machine
end

section
/-! PROOFS. The external calls (46_external_contracts.md): what the data-source calls and the transmitter calls answer, and what
they leave unchanged. -/

namespace Sys2Proof.Machine

/-- One bit as an answer word, by cases of the bit. -/
theorem bitWord_eq (b : Bool) : bitWord b = if b then 1 else 0 := by cases b <;> rfl

/-! ### Data-source calls (R300 to R302) -/

/-- `SRC.MORE` moves no list's cursor (R300). -/
theorem Env.more_sources (e : Env) (h : Word) : (e.more h).2.sources = e.sources := by
  unfold Env.more Env.srcDraw
  split
  · rfl
  · split <;> rfl

theorem Env.next_list_end {e : Env} {h : Word} {all : List Word} (hs : e.source h = .list all []) :
    e.next h = ((false, 0), e) := by
  unfold Env.next
  rw [hs]

/-- `SRC.MORE` as one update of the environment and the answer latch. -/
theorem exec_srcMore (s : State) :
    exec .srcMore s = .next { s with
      env := ((s.env.note 0x01 []).more s.cfg.srcHandle).2
      seq := { s.seq with answer := [if ((s.env.note 0x01 []).more s.cfg.srcHandle).1 then 1 else 0] } } := by
  change Host.Outcome.next (answering [bitWord (srcMore s).1] (srcMore s).2) = _
  rw [srcMore_env, bitWord_eq]
  rfl

/-- `SRC.NEXT` as one update of the environment and the answer latch. -/
theorem exec_srcNext (s : State) :
    exec .srcNext s = .next { s with
      env := ((s.env.note 0x02 []).next s.cfg.srcHandle).2
      seq := { s.seq with answer :=
        [if ((s.env.note 0x02 []).next s.cfg.srcHandle).1.1 then 1 else 0,
          ((s.env.note 0x02 []).next s.cfg.srcHandle).1.2] } } := by
  change Host.Outcome.next (answering [bitWord (srcNext s).1.1, (srcNext s).1.2] (srcNext s).2) = _
  rw [srcNext_env, bitWord_eq]
  rfl

/-- `SRC.FRAMESTART` as one update of the environment. -/
theorem exec_srcFramestart (s : State) :
    exec .srcFramestart s = .next { s with env := (s.env.note 0x03 []).frameStart s.cfg.srcHandle } :=
  congrArg Host.Outcome.next (srcFrameStart_env s)

/-- Settles O39: each call is one update of the environment and the answer latch. -/
theorem sourceCallsComplete : Obligations.SourceCallsComplete := by
  unfold Obligations.SourceCallsComplete
  intro s
  exact ⟨⟨_, _, exec_srcMore s, rfl, rfl, Env.more_sources _ _⟩, ⟨_, _, _, exec_srcNext s, rfl, rfl⟩,
    ⟨_, exec_srcFramestart s, rfl⟩⟩

/-- Settles O40: `SRC.MORE` and `SRC.NEXT` by whether a value is left, `SRC.FRAMESTART` for the whole list. -/
theorem listSourceAnswers : Obligations.ListSourceAnswers := by
  unfold Obligations.ListSourceAnswers
  intro s all rest hs
  have hsource : ∀ id args, (s.env.note id args).source s.cfg.srcHandle = .list all rest := fun _ _ => source_of_findSource hs
  have hmore := Env.more_list (hsource 0x01 [])
  refine ⟨⟨_, exec_srcMore s, ?answer, ?kept⟩, ⟨_, exec_srcNext s, ?next⟩,
    ⟨_, exec_srcFramestart s, findSource_of_source_list (Env.frameStart_list (hsource 0x03 []))⟩⟩
  case answer => rw [hmore]; cases rest <;> rfl
  case kept => rw [hmore]; exact hs
  case next =>
    cases rest with
    | nil => rw [Env.next_list_end (hsource 0x02 [])]; exact ⟨rfl, hs⟩
    | cons v rest =>
      obtain ⟨hanswer, hcursor⟩ := Env.next_list (hsource 0x02 [])
      rw [hanswer]
      exact ⟨rfl, findSource_of_source_list hcursor⟩

/-! ### Transmitter calls (R310 to R314) -/

theorem exec_txTransmit (s : State) :
    exec .txTransmit s =
      .next (answering [bitWord (txTransmit (scratchRun s s.cq.n) s).1] (txTransmit (scratchRun s s.cq.n) s).2) := rfl

theorem exec_txAwait (s : State) : exec .txAwait s = .next (answering [bitWord (txAwait s).1] (txAwait s).2) := rfl

theorem scratchRun_length (s : State) (n : Nat) : (scratchRun s n).length = n := by simp [scratchRun]

/-- Settles O41: the two outcomes of the call, for the run `SCRATCH[0..CQ_N-1]`. -/
theorem txTransmitAcceptsOrRejects : Obligations.TxTransmitAcceptsOrRejects := by
  unfold Obligations.TxTransmitAcceptsOrRejects
  intro s
  refine ⟨_, exec_txTransmit s, ?_⟩
  obtain ⟨e, haccepted | ⟨p, hp, hrejected⟩⟩ := txTransmit_cases (scratchRun s s.cq.n) s
  · rw [haccepted]
    exact ⟨rfl, .inl ⟨rfl, rfl⟩⟩
  · rw [scratchRun_length] at hp
    rw [hrejected]
    exact ⟨rfl, .inr ⟨rfl, p, hp, rfl⟩⟩

/-- Settles O42: the two outcomes of the call. -/
theorem txAwaitSucceedsOnlyDrained : Obligations.TxAwaitSucceedsOnlyDrained := by
  unfold Obligations.TxAwaitSucceedsOnlyDrained
  intro s
  refine ⟨_, exec_txAwait s, ?_⟩
  obtain ⟨e, -, -, ⟨hdrained, hconfirmed⟩ | htimeout⟩ := txAwait_cases s
  · rw [hconfirmed]
    exact ⟨rfl, .inl ⟨rfl, hdrained, rfl⟩⟩
  · rw [htimeout]
    exact ⟨rfl, .inr ⟨rfl, rfl⟩⟩

/-- `TX.CONFIGURE` as one update, and the call in the trace (R310). -/
theorem txConfigure_eq (s : State) :
    txConfigure s = called 0x11 [s.params.timingResolution, s.cfg.pin.setWidth 32, BitVec.ofNat 32 s.params.hwDepth]
      { s with hw := { hwDisabled s.hw with configured := true } } := rfl

/-- `TX.DISABLE` as one update, and the call in the trace (R313). -/
theorem txDisable_eq (s : State) : txDisable s = called 0x14 [] { s with hw := hwDisabled s.hw } := rfl

/-- `TX.TEARDOWN` as one update, and the call in the trace (R314). -/
theorem txTeardown_eq (s : State) : txTeardown s = called 0x15 [] { s with hw := { s.hw with configured := false } } := rfl

/-- Settles O43: each call is its update; none draws an answer. -/
theorem txControlCalls : Obligations.TxControlCalls := by
  unfold Obligations.TxControlCalls
  exact fun s => ⟨congrArg Host.Outcome.next (txConfigure_eq s), congrArg Host.Outcome.next (txDisable_eq s),
    congrArg Host.Outcome.next (txTeardown_eq s)⟩

end Sys2Proof.Machine
end

section
/-! PROOFS. Faults (60_exceptions.md): what raising one writes and that it stops every agent but the HOST (R333), and that no step
of a channel whose invariant holds raises one of the four faults of a broken internal rule (R337). -/

namespace Sys2Proof.Machine

/-! ### A faulted channel (R333) -/

/-- A fault disables every agent but the HOST. -/
theorem enabled_of_faulted {a : Agent} {s : State} (hf : s.err.fault ≠ 0) (he : enabled a s = true) : a = .host := by
  have hn : notFaulted s = false := Bool.eq_false_iff.2 fun h => hf (notFaulted_iff.1 h)
  cases a with
  | host => rfl
  | isr =>
    obtain ⟨e, hev⟩ := Option.isSome_iff_exists.1 (show (eventTaken s).isSome = true from he)
    exact absurd (eventTaken_some hev).1 hf
  | seq | cqdrv | pacer | hwtx | rule =>
    simp [enabled, seqEnabled, cqdrvEnabled, pacerEnabled, hwtxEnabled, ruleEnabled, hn] at he
  | src | env => simp [enabled, srcEnabled, envEnabled, oraclesAsked, hn] at he

/-- A step of a faulted channel is one of the HOST, which may step. -/
theorem step_of_faulted {s t : State} (hf : s.err.fault ≠ 0) (h : step s = .next t) :
    hostEnabled s = true ∧ hostStep (advanceSchedule s) = .next t := by
  unfold step machineStep at h
  split at h
  · split at h
    · rename_i a ha
      have he := nextAgent_enabled ha
      obtain rfl := enabled_of_faulted hf he
      exact ⟨he, h⟩
    · rw [if_neg (mt notFaulted_iff.1 hf)] at h; cases h
  · cases h

/-- With nothing for the HOST to do no agent of a faulted channel steps. -/
theorem nextAgent_of_stuck {s : State} (hf : s.err.fault ≠ 0) (hq : s.env.hostq = []) : nextAgent s = none := by
  refine Option.eq_none_iff_forall_ne_some.2 fun a ha => ?_
  have he := nextAgent_enabled ha
  obtain rfl := enabled_of_faulted hf he
  simp [enabled, hostEnabled, hq] at he

/-- From s to t the environment and the `ARG` registers changed at most. -/
def ArgTouch (s t : State) : Prop :=
  t = { s with ports := t.ports, env := t.env } ∧ ∀ k, portOf t k = { portOf s k with arg := (portOf t k).arg }

theorem ArgTouch.env (s : State) (e : Env) : ArgTouch s { s with env := e } := ⟨rfl, fun _ => rfl⟩

theorem portOf_modPort_same {s : State} {k : Nat} (h : k < s.ports.length) (f : Port → Port) :
    portOf (modPort k f s) k = f (portOf s k) := by
  rw [modPort_eq_set (portOf_getElem h)]
  exact portOf_of_getElem? (List.getElem?_set_self h)

theorem portOf_modPort_other {s : State} {j k : Nat} (h : k ≠ j) (f : Port → Port) :
    portOf (modPort k f s) j = portOf s j := by
  unfold portOf modPort
  simp only [List.getD_eq_getElem?_getD, List.getElem?_modify_ne f _ h]

theorem ArgTouch.writeArg {s : State} {k : Nat} (hk : k < s.ports.length) (v : Word) (e : Env) :
    ArgTouch s (modPort k (fun p => { p with arg := v }) { s with env := e }) := by
  refine ⟨rfl, fun j => ?_⟩
  by_cases hj : k = j
  · subst hj
    rw [portOf_modPort_same (s := { s with env := e }) hk]; rfl
  · rw [portOf_modPort_other hj]; rfl

/-- A HOST access answers a next state on a port that exists only (R30). -/
theorem next_of_portGuard {k n : Nat} {t : State} {o : Host.Outcome State Fault Refusal} {f : Fault}
    (h : (if k < n then o else .fault f) = .next t) : k < n ∧ o = .next t := by
  split at h
  · rename_i hk; exact ⟨hk, h⟩
  · cases h

/-- What is left to the HOST of a faulted channel but a restart: `ARG` writes and register reads (R30, R333). -/
theorem hostStep_of_faulted {s t : State} (hf : s.err.fault ≠ 0) (hq : ∀ as, s.env.hostq ≠ .restart :: as)
    (he : hostEnabled s = true) (h : hostStep s = .next t) : ArgTouch s t := by
  unfold hostStep at h
  split at h
  · cases h; exact .env s _
  · rename_i a as hact
    cases a with
    | write k pw =>
      cases pw with
      | arg v => obtain ⟨hk, h⟩ := next_of_portGuard h; cases h; exact .writeArg hk v _
      | cmd w =>
        simp only [hostEnabled, hact, Bool.and_eq_true, notFaulted_iff] at he
        obtain ⟨⟨hlive, -⟩, -⟩ := he
        exact absurd hlive hf
    | readArg k | readRes k | readRstat k => obtain ⟨-, h⟩ := next_of_portGuard h; cases h; exact .env s _
    | readCmd k => obtain ⟨-, h⟩ := next_of_portGuard h; cases h
    | restart => exact absurd hact (hq as)

/-- Settles O14: each kind's update is the definition's; what a faulted channel still does is the HOST's. -/
theorem faultStopsChannel : Obligations.FaultStopsChannel := by
  unfold Obligations.FaultStopsChannel
  refine ⟨fun i s => ⟨rfl, rfl, rfl, rfl, rfl, rfl, rfl, rfl⟩, fun s t hf h hq => ?_, fun s hf hp hq => ?_⟩
  · obtain ⟨he, hstep⟩ := step_of_faulted hf h
    exact hostStep_of_faulted (s := advanceSchedule s) hf hq he hstep
  · unfold step machineStep
    rw [if_pos hp, nextAgent_of_stuck hf hq]
    exact if_neg (mt notFaulted_iff.1 hf)

/-! ### The faults that are no broken rule's (R337) -/

/-- `Safe` looks at `FAULT` alone. -/
theorem Safe.congr {s t : State} (h : Safe s) (hf : t.err.fault = s.err.fault) : Safe t := by
  unfold Safe; rw [hf]; exact h

/-- A channel with no fault is safe. -/
theorem Safe.of_live {s : State} (h : s.err.fault = 0) : Safe s := by
  unfold Safe; rw [h]; decide

/-- A fault whose bit is none of the internal faults' keeps a channel safe. -/
theorem raiseFault_safe {k : FaultKind} {s : State} (h : Safe s) (hk : k.mask &&& internalFaults = 0) (i : Word) :
    Safe (raiseFault k i s) := by
  unfold Safe at h ⊢
  rw [raiseFault_err]
  calc (s.err.fault ||| k.mask) &&& internalFaults
      = s.err.fault &&& internalFaults ||| k.mask &&& internalFaults := by ext j; simp [Bool.and_or_distrib_right]
    _ = 0 := by rw [h, hk]; rfl

theorem reply_safe {s : State} (h : Safe s) (rc : ResultCode) (e : ErrCode) (r : Word) : (reply rc e r s).Leaves Safe id :=
  h.congr rfl

/-! ### Host commands -/

theorem whenReady_safe {opc : Word} {s : State} {body : Res State} (h : Safe s)
    (hb : s.chState = .ready → body.Leaves Safe id) : (whenReady opc s body).Leaves Safe id := by
  unfold whenReady
  split
  · exact raiseFault_safe h (by decide) _
  · exact reply_safe h _ _ _
  · rename_i hr; exact hb hr

theorem validate_safe {s : State} (h : Safe s) (k : Word) :
    (reply .ok (mismatchCode (validateTable k s).1) (drawWord (validateTable k s).2).1
      (drawWord (validateTable k s).2).2).Leaves Safe id :=
  reply_safe (h.congr (by rw [drawWord_err, validateTable_fault])) _ _ _

/-- A read of the table faults `F_NOT_CONFIGURED` or `F_UNTRANSLATED` (R159). -/
theorem tblRead_safe {s : State} (h : Safe s) (b : BitSymbol) : (tblRead b s).Leaves Safe fun _ => s := by
  unfold tblRead
  split
  · exact raiseFault_safe h (by decide) _
  · split
    · exact h
    · exact raiseFault_safe h (by decide) _

theorem execXlatLkp_safe {s t : State} (h : Safe s) {b : BitVec 3} (ht : execXlatLkp b s = .next t) : Safe t := by
  refine settle_next (P := Safe) ?_ ht
  split
  · exact reply_safe h _ _ _
  · split
    · exact raiseFault_safe h (by decide) _
    · rename_i c _
      have hread := tblRead_safe h c
      cases hc : tblRead c s with
      | ok w => exact reply_safe h _ _ _
      | error u => rw [hc] at hread; exact hread

theorem bgWaitFirst_safe {s : State} (h : Safe s) : (bgWaitFirst s).Leaves Safe id := by
  unfold bgWaitFirst
  split
  · exact reply_safe h _ _ _
  · split
    · exact reply_safe (s := clearNotify s) (h.congr rfl) _ _ _
    · split
      · exact reply_safe h _ _ _
      · exact h.congr rfl

/-- The install and what follows it record errors, no faults (R270, R331). -/
theorem checkAndInstall_fault (s : State) : (checkAndInstall s).err.fault = s.err.fault := by
  have hi : (installTable s.cfg.tblHandle s).2.err.fault = s.err.fault := by rw [installTable_frame]
  cases hc : configCheck s with
  | some info => rw [checkAndInstall_of_check hc]; rfl
  | none =>
    rw [checkAndInstall_of_install hc]
    split
    · exact hi
    · rw [finishInit_eq]
      exact (validateTable_fault _ _).trans hi

theorem channelInit_safe {s : State} (h : Safe s) : (channelInit s).Leaves Safe id := by
  unfold channelInit
  split
  · exact raiseFault_safe h (by decide) _
  · exact reply_safe h _ _ _
  · split
    · exact h.congr rfl
    · exact h.congr (checkAndInstall_fault _)

theorem teardown_safe {s : State} (h : Safe s) : (reply .ok .none 0 (teardown s)).Leaves Safe id := by
  have hf : (teardown s).err.fault = s.err.fault := by rw [teardown_eq]
  exact reply_safe (h.congr hf) _ _ _

/-- `FRAME.START` resets the ring of an idle driver and encodes with a complete table, so no part of it faults (R204, R226,
R276). -/
theorem frameBegin_safe {s : State} (hs : Safe s) (hb : BaseInv s) (hl : LiveInv s) (hr : s.chState = .ready)
    (hd : s.drvState = .idle) : (frameBegin s).Leaves Safe id := by
  have hc := hl.configured hr
  have ht := hl.tableComplete hc.tblOk
  obtain ⟨r, d, e, -, hsetup, hring, hwf, -⟩ := frameSetup_ok ht hc hd hb.store.slotsWf
  cases hst : s.cfg.strategy with
  | intr =>
    obtain ⟨r', d', e', -, -, hprime, -⟩ := primeIntr_ok (s := started r d e s) (hring.congr rfl rfl) (ht.congr rfl rfl)
      (hc.congr rfl rfl rfl rfl) hl.txmemBound rfl hwf
    have hf : (primed (intrChunk (started r d e s)) r' d' e' (started r d e s)).err.fault = s.err.fault := by
      rw [primed_frame]; rfl
    rw [frameBegin_intr hsetup hst hprime]
    exact hs.congr hf
  | cq =>
    rw [frameBegin_cq hsetup hst]
    exact hs.congr rfl

theorem frameStart_safe {s : State} (hs : Safe s) (hb : BaseInv s) (hl : LiveInv s) (hr : s.chState = .ready) :
    (if s.paused then reply .rejPaused .none 0 s
      else if s.drvState = .active then reply .rejBusy .none 0 s
      else frameBegin s : Res State).Leaves Safe id := by
  split
  · exact reply_safe hs _ _ _
  · split
    · exact reply_safe hs _ _ _
    · rename_i hna
      have hd : s.drvState = .idle := by cases h : s.drvState with
        | idle => rfl
        | active => exact absurd h hna
      exact frameBegin_safe hs hb hl hr hd

/-- A host command keeps a channel safe. -/
theorem exec_hostIssued_safe {i : Instr} {s t : State} (hs : Safe s) (hb : BaseInv s) (hl : LiveInv s)
    (hh : i.hostIssued = true) (ht : exec i s = .next t) : Safe t := by
  cases i with
  | xlatVal => exact settle_next (whenReady_safe hs fun _ => validate_safe hs _) ht
  | xlatLkp b => exact execXlatLkp_safe hs ht
  | ringAvf | ringAvd => exact settle_next (whenReady_safe hs fun _ => reply_safe hs _ _ _) ht
  | bgWait => exact settle_next (whenReady_safe hs fun _ => bgWaitFirst_safe hs) ht
  | chInit => exact settle_next (channelInit_safe hs) ht
  | frameStart => exact settle_next (whenReady_safe hs fun hr => frameStart_safe hs hb hl hr) ht
  | pause p => exact settle_next (whenReady_safe hs fun _ => reply_safe (s := { s with paused := p }) (hs.congr rfl) _ _ _) ht
  | status n => exact settle_next (reply_safe hs _ _ _) ht
  | chTeardown => exact settle_next (whenReady_safe hs fun _ => teardown_safe hs) ht
  | _ => cases hh

/-! ### The events and the completion-queue loop -/

/-- The handler of `EV.THR` pushes no more codes than are staged and than `TXMEM` has room for (R226). -/
theorem execEvThr_safe {s t : State} (hs : Safe s) (hb : BaseInv s) (hl : LiveInv s) (hr : s.chState = .ready)
    (ht : execEvThr s = .next t) : Safe t := by
  have hc := hl.configured hr
  obtain ⟨r, d, e, -, -, hrun, -⟩ := driverService_ok (s := eventEntry .thr s) (hb.store.ring.congr rfl rfl)
    ((hl.tableComplete hc.tblOk).congr rfl rfl) (hc.congr rfl rfl rfl rfl) hl.txmemBound
  unfold execEvThr at ht
  rw [hrun] at ht
  cases ht
  unfold eventReturn
  split <;> exact hs.congr rfl

theorem execEvTxdone_safe {s t : State} (hs : Safe s) (ht : execEvTxdone s = .next t) : Safe t := by
  cases ht; exact hs.congr rfl

theorem txTransmit_err (codes : List Word) (s : State) : (txTransmit codes s).2.err = s.err := by rw [txTransmit_frame]

/-- `CQ_SEND` copies no more codes than are staged (R240, R241). -/
theorem cqSend_safe {s : State} (hs : Safe s) : (cqSend s).Leaves Safe id := by
  by_cases hdr : s.ring.used = 0 ∧ s.hasData = false
  · rw [cqSend_drained hdr]; exact hs.congr rfl
  · rw [cqSend_undrained hdr]
    generalize min s.params.maxChunk s.ring.used = n
    have htx := congrArg ErrState.fault (txTransmit_err (scratchRun (chunkCopied n s) n) (chunkCopied n s))
    simp only [Res.Leaves, id, handOver]
    split <;> exact hs.congr htx

/-- `CQ_AWAIT` consumes the chunk that the invariant says is staged, and refills a ring with room for it (R204, R240, R244). -/
theorem cqAwait_safe {s : State} (hs : Safe s) (hb : BaseInv s) (hl : LiveInv s) (hr : s.chState = .ready)
    (hp : s.cq.phase = .await) : (cqAwait s).Leaves Safe id := by
  have hc := hl.configured hr
  obtain ⟨-, hstaged, -⟩ := hl.cqChunk hp
  obtain ⟨e, -, -, ⟨-, hx⟩ | hx⟩ := txAwait_cases s
  · have hring : RingInv (chunkConsumed { s with env := e }) :=
      chunkConsumed_ringInv (s := { s with env := e }) (hb.store.ring.congr rfl rfl) hstaged
    obtain ⟨r, d, e', -, hrun, -⟩ := encoderFill_ok hring ((hl.tableComplete hc.tblOk).congr rfl rfl)
      (hc.congr rfl rfl rfl rfl)
    rw [cqAwait_confirmed hx hstaged hrun]
    exact hs.congr rfl
  · rw [cqAwait_timedOut hx]
    exact hs.congr rfl

theorem cqStep_safe {s : State} (hs : Safe s) (hb : BaseInv s) (hl : LiveInv s) (hr : s.chState = .ready) :
    (cqStep s).Leaves Safe id := by
  unfold cqStep
  split
  · exact hs
  · exact cqSend_safe hs
  · rename_i hp; exact cqAwait_safe hs hb hl hr hp

/-! ### Every step -/

theorem pacerStep_fault (k : Nat) (s : State) : (pacerStep k s).err.fault = s.err.fault := by
  unfold pacerStep
  split
  · rfl
  · split
    · rfl
    · split <;> rfl

theorem hwtxShift_err (s : State) : (hwtxShift s).err = s.err := by
  unfold hwtxShift; split <;> rfl

/-- Every move of an agent keeps a channel safe whose invariant holds. -/
theorem Move.safe {s t : State} (h : Inv s) (hs : Safe s) (m : Move s t) : Safe t := by
  cases m with
  | environment e | writeArg e k v | writeCmd e w live port idle => exact hs.congr rfl
  | restart e first => exact .of_live rfl
  | command live held issued run =>
    obtain ⟨hl, -⟩ := takeCommand_live (h.live live) held
    exact exec_hostIssued_safe (s := takeCommand _ s) (hs.congr rfl) (takeCommand_base _ h.base) hl issued run
  | badCommand held => exact raiseFault_safe (hs.congr rfl) (by decide) _
  | threshold live ready intr armed run => exact execEvThr_safe hs h.base (h.live live) ready run
  | txdone live ready intr run => exact execEvTxdone_safe hs run
  | loop live ready run => exact settle_next (cqStep_safe hs h.base (h.live live) ready) run
  | pacer live waits => exact hs.congr (pacerStep_fault _ s)
  | shift live => exact hs.congr (by rw [hwtxShift_err])
  | invocation held run => rw [h.noInvocation] at held; cases held
  | badInvocation held => rw [h.noInvocation] at held; cases held

/-- Settles O58: a step is no change or one agent's move, and under the invariant every move meets the precondition of each ring
and push operation it makes. -/
theorem internalFaultsUnreachable : Obligations.InternalFaultsUnreachable := by
  unfold Obligations.InternalFaultsUnreachable
  intro s t hinv hs h
  rcases step_move h with rfl | m
  · exact hs
  · exact m.safe (advanceSchedule_inv hinv) (hs.congr rfl)

end Sys2Proof.Machine
end

section
/-! PROOFS. Reset (70_reset_and_hazards.md): the restart and the state it reaches (R370), which agents may step there (R371), and
which commands are legal before `CH.INIT` (R373). -/

namespace Sys2Proof.Machine

/-! ### The restart (R370) -/

/-- Settles O13: nothing disables a restart, and its action is the reset. -/
theorem restartResets : Obligations.RestartResets := by
  unfold Obligations.RestartResets
  intro s as hl hq
  have he : hostEnabled s = true := by simp [hostEnabled, hq]
  rw [step_host hl hq he]
  rfl

/-! ### After reset (R371) -/

/-- Every port of a reset channel is idle, and so reads one that does not exist. -/
theorem portOf_resetWith (p : Params) (e : Env) (k : Nat) : portOf (State.resetWith p e) k = Port.idle := by
  unfold portOf
  rw [List.getD_eq_getElem?_getD]
  exact List.getElem?_getD_replicate_default_eq _ _ k

/-- No agent but the HOST has anything to do on a channel that was reset: no command, no wait, no event, no frame. -/
theorem enabled_of_resetWith {p : Params} {e : Env} {a : Agent} (h : enabled a (State.resetWith p e) = true) :
    a = .host := by
  cases a with
  | host => rfl
  | seq k => simp [enabled, seqEnabled, portOf_resetWith, Port.idle] at h
  | pacer k =>
    obtain ⟨-, hwait⟩ := enabled_pacer_iff.1 h
    rw [portOf_resetWith] at hwait; cases hwait
  | isr =>
    obtain ⟨ev, hev⟩ := Option.isSome_iff_exists.1 (show (eventTaken (State.resetWith p e)).isSome = true from h)
    obtain ⟨-, hready, -⟩ := eventTaken_some hev
    cases hready
  | cqdrv => obtain ⟨-, -, hready⟩ := enabled_cqdrv_iff.1 h; cases hready
  | hwtx => obtain ⟨-, hen, -⟩ := enabled_hwtx_iff.1 h; cases hen
  | src | env | rule => cases h

/-- With the HOST alone able to step, and nothing for it to do, no agent steps. -/
theorem nextAgent_of_host_idle {s : State} (h : ∀ a, enabled a s = true → a = .host) (hq : s.env.hostq = []) :
    nextAgent s = none := by
  refine Option.eq_none_iff_forall_ne_some.2 fun a ha => ?_
  have he := nextAgent_enabled ha
  obtain rfl := h a he
  simp [enabled, hostEnabled, hq] at he

/-- Settles O12: with no agent to step an unfaulted channel waits as it is. -/
theorem afterResetOnlyHostSteps : Obligations.AfterResetOnlyHostSteps := by
  unfold Obligations.AfterResetOnlyHostSteps
  refine ⟨fun p e a => enabled_of_resetWith, fun p e hp hq => ?_⟩
  have hnone : nextAgent (State.resetWith p e) = none := nextAgent_of_host_idle (fun _ => enabled_of_resetWith) hq
  unfold step machineStep
  rw [if_pos (show paramsOk (State.resetWith p e).params = true from hp), hnone]
  rfl

/-! ### Before CH.INIT (R373) -/

/-- Whether its checks pass or fail, `CH.INIT` takes the channel out of RESET (R270, R331). -/
theorem checkAndInstall_chState (s : State) : (checkAndInstall s).chState ≠ .reset := by
  cases hc : configCheck s with
  | some info => rw [checkAndInstall_of_check hc]; exact nofun
  | none =>
    rw [checkAndInstall_of_install hc]
    cases (installTable s.cfg.tblHandle s).1 <;> exact nofun

/-- `CH.INIT` in RESET leaves RESET and raises no fault, whether or not its descriptor is there. -/
theorem exec_chInit_leaves_reset {s : State} (h : s.chState = .reset) :
    ∃ t, exec .chInit s = .next t ∧ t.err.fault = s.err.fault ∧ t.chState ≠ .reset := by
  refine ⟨_, exec_chInit_of_reset h, ?_⟩
  cases findDesc s (portOf s s.seq.cur).arg with
  | none => exact ⟨rfl, nofun⟩
  | some d => exact ⟨checkAndInstall_fault (latchConfig d s), checkAndInstall_chState _⟩

/-- An operand of three bits other than 7 is the tag of a symbol (R120, R158). -/
theorem exists_tag_of_ne {k : BitVec 3} (h : k ≠ 7) : ∃ b : BitSymbol, k.toNat = b.tag.toNat := by
  have hlt : k.setWidth 8 < 7#8 := by bv_omega
  obtain ⟨b, hb⟩ := Option.ne_none_iff_exists'.1 fun hnone => symbolOfTag_eq_none.1 hnone hlt
  have htag : k.setWidth 8 = b.tag := symbolOfTag_eq_some.1 hb
  exact ⟨b, by bv_omega⟩

/-- A lookup before `CH.INIT` is a table read that finds no table (R158, R273). -/
theorem exec_xlatLkp_of_reset {s : State} (h : s.chState = .reset) {k : BitVec 3} (hk : k ≠ 7) :
    exec (.xlatLkp k) s = .next (faulted 0x08 8 (k.setWidth 32) s) := by
  obtain ⟨b, hb⟩ := exists_tag_of_ne hk
  rw [xlatLkpReads b k s hb, if_neg (by rw [h]; decide), if_pos (.inl h)]

/-- The check that starts a command refuses it in RESET, whatever follows the check (R273). -/
theorem settle_whenReady_of_reset {s : State} (h : s.chState = .reset) (opc : Word) (body : Res State) :
    settle (whenReady opc s body) = .next (faulted 0x08 8 opc s) :=
  congrArg settle (whenReady_of_reset h)

/-- Settles O16: each refused command is one that needs a READY channel, or the lookup. -/
theorem resetRefuses : Obligations.ResetRefuses := by
  unfold Obligations.ResetRefuses
  intro s h
  have hrefused := settle_whenReady_of_reset h
  obtain ⟨-, -, -, -, hchan, -⟩ := snapFlags_fields s
  refine ⟨exec_chInit_leaves_reset h, fun n => rfl, hchan.trans (congrArg ChState.code h), hrefused 0x11 _,
    fun b => exec_xlatLkp_of_reset h, hrefused 0x22 _, hrefused 0x23 _, hrefused 0x40 _, hrefused 0x51 _,
    fun p => hrefused 0x52 _, hrefused 0x54 _⟩

end Sys2Proof.Machine
end
